-- ==== Sys2Proof/Word.lean ====
section
/-! DEFINITION. The word types of the block (`00_scope.md` R8, R10): bytes, 16-bit lengths and packet-memory offsets,
32-bit system-memory addresses, 64-bit command frames and notification records, endpoint numbers. -/

namespace Sys2Proof

/-- One byte of packet memory or system memory. -/
abbrev Byte := BitVec 8

/-- A 16-bit value: a length, a packet size, a packet-memory word, an endpoint or status register. -/
abbrev Half := BitVec 16

/-- A 32-bit value: a system-memory address, an operand B32, a register slot. -/
abbrev Word := BitVec 32

/-- A 64-bit value: a command frame `{CMD1, CMD0}` (R91) or a notification record (R98). -/
abbrev Wide := BitVec 64

/-- An endpoint number, 0 to 7 (R6, NUM_EP). -/
abbrev Ep := Fin 8

end Sys2Proof
end

