-- ==== Sys2Proof/Config.lean ====
section
/-! DEFINITION. The parameters `00_scope.md` R6 fixes for the block, and the free values the spec leaves open. The OPEN
parameters SETUP_BUF_ADDR, PMA_BASE and REG_BASE are arguments of every run: they stand in `Machine.Params`, a field of
State that no step writes (log 6). -/

namespace Sys2Proof.Config

/-- PMA_SIZE, the bytes of packet memory (R6; decision D2). -/
def pmaSize : Nat := 1024

/-- BDT_BASE, the packet-memory offset of the Buffer Descriptor Table (R6; decision D3). -/
def bdtBase : Half := 0

/-- ALLOC_BASE, the packet-memory offset the cursor is reset to (R6; decision D3). -/
def allocBase : Half := 64

/-- EP0_PACKET_SIZE, the packet size of endpoint 0 (R6; decision D17). -/
def ep0PacketSize : Half := 64

/-- SETUP_LEN, the bytes of the Setup Packet record (R6). -/
def setupLen : Half := 8

/-- MAX_PACKET_SIZE, the largest packet size the rules are specified for (R6; decision D28). -/
def maxPacketSize : Nat := 1023

/-- The largest sum `buffer + length` of a transfer, 2^32 - 1 (R12). -/
def maxBufferEnd : Nat := 4294967295

/-- The sentinel NONE of a cursor (R7). -/
def cursorNone : Word := 0

/-- The endpoint numbers in ascending order (R6). -/
def endpoints : List Ep := [0, 1, 2, 3, 4, 5, 6, 7]

/-- What CURSOR reads as before the first BUS_RESET, "an unspecified value" (R273, U15): a FREE VALUE, one for each index
(log 5). -/
opaque freeCursor : Nat → Half

/-- The upper half a 16-bit write leaves in a 32-bit register, on which the spec is silent: a FREE VALUE, one for each
index (log 15). -/
opaque freeHalf : Nat → Half

/-- The bits a read of the application inside a register's slot returns where the spec is silent: a FREE VALUE, one for each
index (log 16). -/
opaque freeWord : Nat → Word

end Sys2Proof.Config
end

