-- ==== Sys2Proof/Syntax.lean ====
section
/-! DEFINITION. The operations of the block, one constructor of `Instr` for each row of spec/opcode_table.json, and the
moves of the two environment agents (`30_encoding.md` R103, `47_sie_environment.md` R220, R227), which are no operations
of the block. -/

namespace Sys2Proof

/-- The endpoint types CONFIGURE recognises: bulk, control, interrupt (`41_endpoint_config_status.md` R130). -/
inductive TransferType
  | bulk | control | interrupt
  deriving DecidableEq, Repr

/-- The operations of the block. Commands carry their operands as the frame gives them (`30_encoding.md` R93), ignored
fields left out; internal operations always have an endpoint in range (R137). -/
inductive Instr
  /-- ALLOC length_bytes (R120). -/
  | alloc (length : Half)
  /-- CONFIGURE endpoint, address, packet_size, type (R130). -/
  | configure (ep : BitVec 8) (address : BitVec 8) (packetSize : Half) (type : BitVec 8)
  /-- SET_STATUS endpoint, desired_bits, mask (R133). -/
  | setStatus (ep : BitVec 8) (desired mask : Half)
  /-- SEND endpoint, buffer, length (R145, R146). -/
  | send (ep : BitVec 8) (buffer : Word) (length : Half)
  /-- RECEIVE endpoint, buffer, length (R160). -/
  | receive (ep : BitVec 8) (buffer : Word) (length : Half)
  /-- A frame with a reserved opcode (R95, R244). -/
  | reserved (opcode : BitVec 8)
  /-- CANCEL_SEND endpoint (R101). -/
  | cancelSend (ep : BitVec 8)
  /-- CANCEL_RECEIVE endpoint (R101). -/
  | cancelReceive (ep : BitVec 8)
  /-- SET_TX_STATUS endpoint, code (R101). -/
  | setTxStatus (ep : BitVec 8) (code : BitVec 2)
  /-- SET_RX_STATUS endpoint, code (R101). -/
  | setRxStatus (ep : BitVec 8) (code : BitVec 2)
  /-- DISPATCH_ENTRY (R201). -/
  | dispatchEntry
  /-- DISPATCH_EP, one loop iteration (R209). -/
  | dispatchEp
  /-- DISPATCH_EXIT (R212). -/
  | dispatchExit
  /-- The RESET handler (R202). -/
  | reset
  /-- The SUSP handler (R203). -/
  | susp
  /-- The WKUP handler (R204). -/
  | wkup
  /-- The ERR handler (R205). -/
  | err
  /-- The SOF handler (R206). -/
  | sof
  /-- The ESOF handler (R207). -/
  | esof
  /-- The PMAOVR handler (R208). -/
  | pmaovr
  /-- RX_COMPLETE(n, val) (R210). -/
  | rxComplete (n : Ep) (val : Half)
  /-- TX_COMPLETE(n, val) (R211). -/
  | txComplete (n : Ep) (val : Half)
  /-- CTL_EVENT(SETUP) (R181). -/
  | ctlEventSetup
  /-- CTL_EVENT(OUT) (R182). -/
  | ctlEventOut
  /-- CTL_EVENT(IN) (R183). -/
  | ctlEventIn
  /-- SEND_NEXT_PACKET(n) (R147). -/
  | sendNextPacket (n : Ep)
  /-- BEGIN_PACKET_RECEIVE(n) (R162). -/
  | beginPacketReceive (n : Ep)
  /-- END_PACKET_RECEIVE(n) (R163). -/
  | endPacketReceive (n : Ep)
  /-- BUS_RESET (R190). -/
  | busReset
  /-- ALLOC invoked internally: RESULT is not written (R102, R120). -/
  | allocInternal (length : Half)
  /-- CONFIGURE invoked internally (R102, R130). -/
  | configureInternal (n : Ep) (address : BitVec 8) (packetSize : Half) (type : TransferType)
  /-- RECEIVE invoked internally (R102, R160). -/
  | receiveInternal (n : Ep) (buffer : Word) (length : Half)
  /-- SET_STATUS invoked internally (R102, R133). -/
  | setStatusInternal (n : Ep) (desired mask : Half)
  /-- ClearCtrRx(n, val) (R136). -/
  | clearCtrRx (n : Ep) (val : Half)
  /-- ClearCtrTx(n, val) (R136). -/
  | clearCtrTx (n : Ep) (val : Half)
  /-- Notify(code, ep, buf, len) (R98). -/
  | notify (code : BitVec 8) (ep : BitVec 8) (buffer : Word) (length : Half)
  deriving DecidableEq, Repr

/-- The flags SIE_FLAG can raise (`47_sie_environment.md` R223). -/
inductive SieFlag
  | susp | wkup | err | sof | esof | pmaovr
  deriving DecidableEq, Repr

/-- The four steps of the serial-interface engine (R220). -/
inductive SieMove
  /-- SIE_TX(n) (R221). -/
  | tx (n : Ep)
  /-- SIE_RX(n, data, setup) (R222). -/
  | rx (n : Ep) (data : List Byte) (setup : Bool)
  /-- SIE_FLAG(name) (R223). -/
  | flag (name : SieFlag)
  /-- SIE_RESET (R224). -/
  | reset
  deriving DecidableEq, Repr

/-- The width of a register operation of the application: "one 16-bit or 32-bit operation" (`10_state.md` R47). -/
inductive RegWidth
  | w16 | w32
  deriving DecidableEq, Repr

/-- The width of a packet-memory access of the application; 32 bits is never allowed (`20_memory.md` R66). -/
inductive PmWidth
  | w8 | w16 | w32
  deriving DecidableEq, Repr

/-- The moves of the application (R227). Register and packet-memory addresses are host-bus addresses, REG_BASE and
PMA_BASE included (R47, R69). -/
inductive AppMove
  /-- Read a register. -/
  | regRead (width : RegWidth) (address : Word)
  /-- Write a register; the write of CMD0 presents a command frame (R91). -/
  | regWrite (width : RegWidth) (address : Word) (value : Word)
  /-- Read packet memory. -/
  | pmRead (width : PmWidth) (address : Word)
  /-- Write packet memory. -/
  | pmWrite (width : PmWidth) (address : Word) (value : Half)
  /-- Read a byte of system memory. -/
  | smRead (address : Word)
  /-- Write a byte of system memory. -/
  | smWrite (address : Word) (value : Byte)
  /-- Read the notification trace. -/
  | traceRead
  deriving DecidableEq, Repr

/-- A turn: which agent takes the next step, and with what (`20_memory.md` R73; log 1). -/
inductive Turn
  /-- The block takes its next step. -/
  | block
  /-- The SIE steps. -/
  | sie (m : SieMove)
  /-- The application moves. -/
  | app (m : AppMove)
  deriving DecidableEq, Repr

end Sys2Proof
end

