-- ==== Sys2Proof/WellFormed.lean ====
section
/-! DEFINITION. Which terms of `Instr` stand for an operation the spec has: a reserved opcode is none of the five
commands (`30_encoding.md` R95), a branch of DISPATCH_EP carries a sample with its flag set (R97), a notification carries
a code of the list and an endpoint number (R98, R99). Every operand value of a command is an encoding the spec gives a
meaning, an endpoint above 7 and an unknown type among them (R95). -/

namespace Sys2Proof

/-- The opcodes no command has: 0x00 and 0x06 to 0xFF (R92). -/
def isReservedOpcode (opcode : BitVec 8) : Bool := opcode == 0 || decide (5 < opcode.toNat)

/-- The notification codes of R99. -/
def notificationCodes : List (BitVec 8) := [0x01, 0x02, 0x03, 0x04, 0x05, 0x06, 0x10, 0x11, 0x12]

/-- The check of a term; the fields of every other constructor admit all their values. -/
def Instr.wellFormed : Instr → Bool
  | .reserved opcode => isReservedOpcode opcode
  | .rxComplete _ val => val.getLsbD 15
  | .txComplete _ val => val.getLsbD 7
  | .clearCtrRx _ val => val.getLsbD 15
  | .clearCtrTx _ val => val.getLsbD 7
  | .notify code ep _ _ => notificationCodes.contains code && decide (ep.toNat < 8)
  | .alloc _ => true
  | .configure _ _ _ _ => true
  | .setStatus _ _ _ => true
  | .send _ _ _ => true
  | .receive _ _ _ => true
  | .cancelSend _ => true
  | .cancelReceive _ => true
  | .setTxStatus _ _ => true
  | .setRxStatus _ _ => true
  | .dispatchEntry => true
  | .dispatchEp => true
  | .dispatchExit => true
  | .reset => true
  | .susp => true
  | .wkup => true
  | .err => true
  | .sof => true
  | .esof => true
  | .pmaovr => true
  | .ctlEventSetup => true
  | .ctlEventOut => true
  | .ctlEventIn => true
  | .sendNextPacket _ => true
  | .beginPacketReceive _ => true
  | .endPacketReceive _ => true
  | .busReset => true
  | .allocInternal _ => true
  | .configureInternal _ _ _ _ => true
  | .receiveInternal _ _ _ => true
  | .setStatusInternal _ _ _ => true

end Sys2Proof
end

