-- ==== Sys2Proof/Decode.lean ====
section
/-! DEFINITION. Decoding (`30_encoding.md`): a command frame to its operation (R91 to R95), the sampled status to its
handlers (R96), a sampled endpoint register to its branches (R97); then the encoder of command frames (R100, R101).
Decoding is total (R104). -/

namespace Sys2Proof

/-! ### Fields of a frame (R91) -/

/-- CMD0, the low word of a frame. -/
def frameCmd0 (f : Wide) : Word := f.extractLsb' 0 32

/-- CMD1, the high word of a frame: operand B32. -/
def frameCmd1 (f : Wide) : Word := f.extractLsb' 32 32

/-- OPC, CMD0[31:24]. -/
def opcodeOf (cmd0 : Word) : BitVec 8 := cmd0.extractLsb' 24 8

/-- EP, CMD0[23:16]. -/
def epOf (cmd0 : Word) : BitVec 8 := cmd0.extractLsb' 16 8

/-- A16, CMD0[15:0]. -/
def a16Of (cmd0 : Word) : Half := cmd0.extractLsb' 0 16

/-- The frame `{CMD1, CMD0}`. -/
def frameOf (cmd1 cmd0 : Word) : Wide := cmd1 ++ cmd0

/-! ### Command frames -/

/-- The operation a frame selects, by its opcode alone (R92), with its operands assembled as R93 says. Every other opcode
is reserved (R95). -/
def decodeFrame (f : Wide) : Instr :=
  let cmd0 := frameCmd0 f
  let b32 := frameCmd1 f
  let opc := opcodeOf cmd0
  if opc = 0x01 then .alloc (a16Of cmd0)
  else if opc = 0x02 then .configure (epOf cmd0) (b32.extractLsb' 0 8) (a16Of cmd0) (b32.extractLsb' 8 8)
  else if opc = 0x03 then .setStatus (epOf cmd0) (a16Of cmd0) (b32.extractLsb' 0 16)
  else if opc = 0x04 then .send (epOf cmd0) b32 (a16Of cmd0)
  else if opc = 0x05 then .receive (epOf cmd0) b32 (a16Of cmd0)
  else .reserved opc

/-! ### Events -/

/-- The handlers a status sample selects, in the order of R96. -/
def decodeStatus (s : Half) : List Instr :=
  (if s.getLsbD 10 then [.reset] else [])
    ++ (if s.getLsbD 11 then [.susp] else [])
    ++ (if s.getLsbD 12 then [.wkup] else [])
    ++ (if s.getLsbD 13 then [.err] else [])
    ++ (if s.getLsbD 9 then [.sof] else [])
    ++ (if s.getLsbD 8 then [.esof] else [])
    ++ (if s.getLsbD 14 then [.pmaovr] else [])

/-- The branches a sample of `EPR[n]` selects, receive first (R97, R209). -/
def decodeSample (n : Ep) (val : Half) : List Instr :=
  (if val.getLsbD 15 then [.rxComplete n val] else [])
    ++ (if val.getLsbD 7 then [.txComplete n val] else [])

/-- One operation for a 16-bit event word of the opcode table. The table reads some of these words as a status and some
as a sample of an endpoint register, and gives several rows one word; this reading is the model's (log 19). -/
def decodeEventWord (w : Half) : Instr :=
  if w.getLsbD 15 then
    if w.getLsbD 11 then .ctlEventSetup else .dispatchEp
  else if w.getLsbD 7 then .txComplete 0 w
  else
    match decodeStatus w with
    | h :: _ => h
    | [] => .dispatchExit

/-- The operation of a word of the opcode table: a frame whose low word is CMD0 where the row has more than 16 bits, an
event word where it has at most 16. -/
def decodeTableWord (nbits w : Nat) : Option Instr :=
  if nbits ≤ 16 then some (decodeEventWord (BitVec.ofNat 16 w))
  else some (decodeFrame (BitVec.ofNat 64 w))

/-! ### The encoder -/

/-- A frame from its fields (R91). -/
def frameFrom (opcode ep : BitVec 8) (a16 : Half) (b32 : Word) : Wide := frameOf b32 (opcode ++ ep ++ a16)

/-- The core command a pseudo-operation stands for (R101); every other operation stands for itself. -/
def Instr.expand : Instr → Instr
  | .cancelSend ep => .send ep 0 0
  | .cancelReceive ep => .receive ep 0 0
  | .setTxStatus ep code => .setStatus ep (code.setWidth 16 <<< 4) 0x0030
  | .setRxStatus ep code => .setStatus ep (code.setWidth 16 <<< 12) 0x3000
  | i => i

/-- The opcode of a command or pseudo-operation (R92). -/
def Instr.opcode : Instr → Option (BitVec 8)
  | .alloc _ => some 0x01
  | .configure _ _ _ _ => some 0x02
  | .setStatus _ _ _ => some 0x03
  | .send _ _ _ => some 0x04
  | .receive _ _ _ => some 0x05
  | .reserved opcode => some opcode
  | .cancelSend _ => some 0x04
  | .cancelReceive _ => some 0x05
  | .setTxStatus _ _ => some 0x03
  | .setRxStatus _ _ => some 0x03
  | _ => none

/-- The frame a line of text assembles to, ignored fields written as 0 (R100, R101); the operations that cannot be
requested have none (R102). -/
def encode : Instr → Option Wide
  | .alloc length => some (frameFrom 0x01 0 length 0)
  | .configure ep address packetSize type => some (frameFrom 0x02 ep packetSize ((0 : Half) ++ type ++ address))
  | .setStatus ep desired mask => some (frameFrom 0x03 ep desired ((0 : Half) ++ mask))
  | .send ep buffer length => some (frameFrom 0x04 ep length buffer)
  | .receive ep buffer length => some (frameFrom 0x05 ep length buffer)
  | .reserved opcode => some (frameFrom opcode 0 0 0)
  | .cancelSend ep => some (frameFrom 0x04 ep 0 0)
  | .cancelReceive ep => some (frameFrom 0x05 ep 0 0)
  | .setTxStatus ep code => some (frameFrom 0x03 ep (code.setWidth 16 <<< 4) 0x00000030)
  | .setRxStatus ep code => some (frameFrom 0x03 ep (code.setWidth 16 <<< 12) 0x00003000)
  | _ => none

end Sys2Proof
end

