-- ==== Sys2Proof/Machine/State.lean ====
section
/-! DEFINITION. The state of the block and of the boundary it shares with its environment (`10_state.md` R20), the reasons
a step can stop, and the state after power-on (`10_state.md` R46, `70_reset_and_hazards.md` R270). -/

namespace Sys2Proof.Machine

/-- A reason a step faults. The block's own faults never stop it (`60_exceptions.md` R240, R246): they are bits of the
FAULT register, `State.faults`. -/
inductive Fault
  /-- A packet-memory access of the application at a host-bus address outside PMA_BASE to PMA_BASE + PMA_SIZE - 1, where no
  packet memory exists (`20_memory.md` R61, R69; log 28). Raised by the application's accesses alone. Safe: the model
  stops at an address that does not exist. -/
  | outsidePacketMemory
  deriving DecidableEq, Repr

/-- A reason the model gives a step no meaning. -/
inductive Refusal
  /-- An instruction the model has no meaning for. No arm of exec answers it. -/
  | notModelled (mnemonic : String)
  /-- A command frame, or a DISPATCH_EP step, before the first BUS_RESET has run (R94, R273, U5). Raised by the fetch and
  by the application's write of CMD0. Safe: "this spec does not define it and a model refuses it". -/
  | beforeFirstBusReset
  /-- SEND or RECEIVE with a nonzero buffer and buffer + length above 2^32 - 1 (R12, U6). Safe. -/
  | bufferWraps
  /-- SEND_NEXT_PACKET or BEGIN_PACKET_RECEIVE with a packet size above 1023 (R12, U7). Safe. -/
  | packetSizeTooLarge
  /-- A 16-bit packet-memory access at an odd offset, by the application (R65, U9) or through a descriptor address the
  block did not write (log 10). Safe. -/
  | oddPacketMemoryAccess
  /-- A 32-bit packet-memory access by the application (R66, U8). Safe. -/
  | packetMemoryWidth32
  /-- A copy or a descriptor access, of the block or of the SIE, at a packet-memory offset of PMA_SIZE or beyond
  (`20_memory.md` R78, U10; log 9), also where a raised packet size alone carries a copy there (R281; log 31). Safe. -/
  | packetMemoryRange
  /-- An SIE_TX or SIE_RX turn whose precondition does not hold: not a step of the SIE (R221, R222, U11, U23). Safe. -/
  | sieStepNotEnabled
  /-- SIE_TX or SIE_RX on an endpoint whose type is the isochronous code 0b10 (U19). Safe. -/
  | isochronousEndpoint
  deriving DecidableEq, Repr

/-- Why an operation stops. -/
inductive Stop
  | fault (r : Fault)
  | refusal (r : Refusal)
  deriving DecidableEq, Repr

/-- The dispatcher phase `disp_phase` (R40). -/
inductive Phase
  | idle | loop
  deriving DecidableEq, Repr

/-- The state of the Control Endpoint State Machine: one value (R42). -/
inductive CtlState
  | idle
  deriving DecidableEq, Repr

/-- The causes of a block fault, bits of FAULT (R39). -/
inductive FaultCause
  | allocOverrun | badArg | badCmd | pmaOvr
  deriving DecidableEq, Repr

/-- One Endpoint Transfer State record (R22). -/
structure Ets where
  packetSize : Half
  txBuf : Word
  txCursor : Word
  txLen : Half
  rxBuf : Word
  rxCursor : Word
  rxLen : Half
  deriving DecidableEq, Repr

/-- One entry (TX, n, bytes) of the wire trace (R228). -/
structure WireEntry where
  ep : Ep
  bytes : List Byte
  deriving DecidableEq, Repr

/-- The parameters left OPEN (R6, U20); no step writes them (log 6). -/
structure Params where
  setupBufAddr : Word
  pmaBase : Word
  regBase : Word
  deriving DecidableEq, Repr

/-- What the application's last read returned (log 17). -/
inductive AppSaw
  | nothing
  | word (value : Word)
  | trace (records : List Wide)
  deriving DecidableEq, Repr

/-- The machine. -/
structure State where
  /-- SETUP_BUF_ADDR, PMA_BASE, REG_BASE. -/
  params : Params
  /-- The packet-memory cursor (R21). -/
  pmaCursor : Half
  /-- The Endpoint Transfer State file (R22). -/
  ets : Vector Ets 8
  /-- Packet memory (R61), the Buffer Descriptor Table in it (R24). -/
  pm : List Host.Cell
  /-- The endpoint registers EPR[0..7] (R27). -/
  epr : Vector Half 8
  /-- The stored bits ISTR[14:8] (R31): bit i here is ISTR bit i + 8. -/
  istr : BitVec 7
  /-- CNTR (R34). -/
  cntr : Half
  /-- DADDR (R36). -/
  daddr : Byte
  /-- BTABLE (R37). -/
  btable : Half
  /-- CRA (R38). -/
  cra : BitVec 1
  /-- FAULT (R39). -/
  faults : BitVec 4
  /-- disp_phase (R40). -/
  phase : Phase
  /-- RESULT (R41). -/
  result : Half
  /-- CMD0 (R41). -/
  cmd0 : Word
  /-- CMD1 (R41). -/
  cmd1 : Word
  /-- The presented frame that waits (R94, R272; log 7). -/
  frame : Option Wide
  /-- ctl_state (R42). -/
  ctlState : CtlState
  /-- The notification trace, oldest record first (R44). -/
  notes : List Wide
  /-- Whether the first BUS_RESET has run (R193, R273; log 8). -/
  created : Bool
  /-- System memory SM (R62), the Setup Packet record in it (R43). -/
  sm : List Host.Cell
  /-- The wire trace, oldest entry first (R228). -/
  wire : List WireEntry
  /-- The turns to come (log 1). -/
  script : List Turn
  /-- What the application's last read returned (log 17). -/
  appSaw : AppSaw
  /-- The index of the next free value (logs 5, 15, 16). -/
  freeIndex : Nat
  deriving DecidableEq, Repr

/-- A record with every field 0: "every field is zero after BUS_RESET" (R22). -/
def Ets.zero : Ets :=
  { packetSize := 0, txBuf := 0, txCursor := 0, txLen := 0, rxBuf := 0, rxCursor := 0, rxLen := 0 }

/-- The state after power-on (R46, R270). The cursor and the transfer state, which the spec gives no value, are 0 (log 2);
the parameters have the values log 6 names. -/
def State.reset : State :=
  { params := { setupBufAddr := 0x20000000, pmaBase := 0, regBase := 0 }
    pmaCursor := 0
    ets := Vector.replicate 8 Ets.zero
    pm := []
    epr := Vector.replicate 8 0
    istr := 0
    cntr := 0
    daddr := 0
    btable := 0
    cra := 0
    faults := 0
    phase := .idle
    result := 0
    cmd0 := 0
    cmd1 := 0
    frame := none
    ctlState := .idle
    notes := []
    created := false
    sm := []
    wire := []
    script := []
    appSaw := .nothing
    freeIndex := 0 }

end Sys2Proof.Machine
end

