-- ==== Sys2Proof/Machine/Flags.lean ====
section
/-! DEFINITION. The bit computations on EPR, ISTR, CNTR and FAULT values (`10_state.md` R27 to R39,
`41_endpoint_config_status.md` R131 to R136): pure functions of words. -/

namespace Sys2Proof.Machine

/-! ### Masks and codes (R30) -/

/-- FIXED_MASK: the fields that must be written back as read. -/
def fixedMask : Half := 0x8F8F

/-- TOGGLE_MASK: the toggle-on-write-1 bits. -/
def toggleMask : Half := 0x7070

def statTxMask : Half := 0x0030
def statRxMask : Half := 0x3000

/-- CTR_RX and CTR_TX: the completion flags. -/
def completionMask : Half := 0x8080

/-- The code VALID of a status field (R28). -/
def statValid : BitVec 2 := 0b11

/-- The code NAK of a status field (R28). -/
def statNak : BitVec 2 := 0b10

/-- STAT_RX of an endpoint register value (R27). -/
def statRx (epr : Half) : BitVec 2 := epr.extractLsb' 12 2

/-- STAT_TX of an endpoint register value (R27). -/
def statTx (epr : Half) : BitVec 2 := epr.extractLsb' 4 2

/-- EP_TYPE of an endpoint register value (R27). -/
def epTypeField (epr : Half) : BitVec 2 := epr.extractLsb' 9 2

/-- The EP_TYPE code CONTROL (R28). -/
def controlCode : BitVec 2 := 0b01

/-- The EP_TYPE code of the isochronous type, which is not supported (R28, U19). -/
def isochronousCode : BitVec 2 := 0b10

/-- `TypeCode`, the EP_TYPE code of a type (R28, R131). -/
def typeCode : TransferType → BitVec 2
  | .bulk => 0b00
  | .control => 0b01
  | .interrupt => 0b11

/-! ### The endpoint register (R29, R131, R133, R136) -/

/-- The value of an endpoint register `cur` after `EPRWrite` of `w`, field by field as R29 lists them. -/
def eprWriteWord (cur w : Half) : Half :=
  (cur.extractLsb' 15 1 &&& w.extractLsb' 15 1)
    ++ (cur.extractLsb' 14 1 ^^^ w.extractLsb' 14 1)
    ++ (cur.extractLsb' 12 2 ^^^ w.extractLsb' 12 2)
    ++ cur.extractLsb' 11 1
    ++ w.extractLsb' 9 2
    ++ w.extractLsb' 8 1
    ++ (cur.extractLsb' 7 1 &&& w.extractLsb' 7 1)
    ++ (cur.extractLsb' 6 1 ^^^ w.extractLsb' 6 1)
    ++ (cur.extractLsb' 4 2 ^^^ w.extractLsb' 4 2)
    ++ w.extractLsb' 0 4

/-- `ConfigWord`, the word CONFIGURE writes (R131). -/
def configWord (cur : Half) (address : BitVec 8) (type : TransferType) : Half :=
  (cur &&& 0x8980) ||| ((typeCode type).setWidth 16 <<< 9) ||| (address.setWidth 16 &&& 0x000F)

/-- The word SET_STATUS writes (R133). -/
def setStatusWord (cur desired mask : Half) : Half := (cur ^^^ (desired &&& mask)) &&& (fixedMask ||| mask)

/-- The word ClearCtrRx writes: FIXED_MASK without bit 15 (R136). -/
def clearCtrRxWord (val : Half) : Half := val &&& 0x0F8F

/-- The word ClearCtrTx writes: FIXED_MASK without bit 7 (R136). -/
def clearCtrTxWord (val : Half) : Half := val &&& 0x8F0F

/-- An endpoint register after an acknowledged transmit transaction: STAT_TX NAK, DTOG_TX flipped, CTR_TX set (R221). -/
def sieTxWord (epr : Half) : Half := (((epr &&& 0xFFCF) ||| 0x0020) ^^^ 0x0040) ||| 0x0080

/-- An endpoint register after an accepted receive transaction: STAT_RX NAK, DTOG_RX flipped, SETUP written, CTR_RX set
(R222). -/
def sieRxWord (epr : Half) (setup : Bool) : Half :=
  ((((epr &&& 0xC7FF) ||| 0x2000) ^^^ 0x4000) ||| (if setup then 0x0800 else 0)) ||| 0x8000

/-- Whether an endpoint register has a completion flag set (R32). -/
def completionPending (epr : Half) : Bool := (epr &&& completionMask) != 0

/-! ### The status register and the interrupt line (R31 to R35) -/

/-- ISTR as read: CTR, the stored flags, four reserved bits, EP_ID (R31, R32). -/
def istrWord (ctr : Bool) (flags : BitVec 7) (epId : Ep) : Half :=
  (if ctr then 1#1 else 0#1) ++ flags ++ 0#4 ++ BitVec.ofNat 4 epId.val

/-- The stored flags after `ISTRWrite(w)` (R33). -/
def istrWriteFlags (flags : BitVec 7) (w : Half) : BitVec 7 := flags &&& w.extractLsb' 8 7

/-- IRQ for ISTR as read and CNTR (R35). -/
def irqLine (istr cntr : Half) : Bool := ((istr &&& cntr) &&& 0xFF00) != 0

/-- The stored-flag bit of an SIE flag (R31, R223). -/
def sieFlagBit : SieFlag → BitVec 7
  | .esof => 0b0000001
  | .sof => 0b0000010
  | .susp => 0b0001000
  | .wkup => 0b0010000
  | .err => 0b0100000
  | .pmaovr => 0b1000000

/-- The stored-flag bit RESET (R31, R224). -/
def resetFlagBit : BitVec 7 := 0b0000100

/-! ### FAULT (R39) -/

/-- The FAULT bit of a cause. -/
def faultBit : FaultCause → BitVec 4
  | .allocOverrun => 0b0001
  | .badArg => 0b0010
  | .badCmd => 0b0100
  | .pmaOvr => 0b1000

end Sys2Proof.Machine
end

