-- ==== Sys2Proof/Machine/Operands.lean ====
section
/-! DEFINITION. Operand forms: the range checks of command operands (R95, R137), the lengths a transfer record gives
(R147, R163), the receive block-size encoding (R161, R229), notification records (R98) and host-bus addresses (R47,
R69). -/

namespace Sys2Proof.Machine

/-- The endpoint a command names, when it is at most 7 (R137). -/
def endpointOf (ep : BitVec 8) : Option Ep := if h : ep.toNat < 8 then some ⟨ep.toNat, h⟩ else none

/-- The type a CONFIGURE command names, when it is recognised (R93, R130). -/
def typeOf (type : BitVec 8) : Option TransferType :=
  if type = 0 then some .bulk
  else if type = 1 then some .control
  else if type = 2 then some .interrupt
  else none

/-- The 16-bit word of an endpoint number, as a notification carries it (R98). -/
def epByte (n : Ep) : BitVec 8 := BitVec.ofNat 8 n.val

/-- The unsigned minimum of two lengths (R8). -/
def minHalf (a b : Half) : Half := if a.toNat ≤ b.toNat then a else b

/-- Whether `buffer + length` passes 2^32 - 1 (R12). -/
def bufferWraps (buffer : Word) (length : Half) : Bool := decide (Config.maxBufferEnd < buffer.toNat + length.toNat)

/-- `completed` of the transmit direction (R11, R147). -/
def Ets.txCompleted (e : Ets) : Half := (e.txCursor - e.txBuf).setWidth 16

/-- The length of the next packet to send: `min(P, tx_len - completed)` (R147). -/
def Ets.txPacketLength (e : Ets) : Half := minHalf e.packetSize (e.txLen - e.txCompleted)

/-- `completed` of the receive direction (R11, R163). -/
def Ets.rxCompleted (e : Ets) : Half := (e.rxCursor - e.rxBuf).setWidth 16

/-- The length copied to the caller: `min(received, rx_len - completed)` (R163). -/
def Ets.rxCopyLength (e : Ets) (received : Half) : Half := minHalf received (e.rxLen - e.rxCompleted)

/-- The received byte count of an rx_count word, COUNT (R26, R163). -/
def receivedCount (rxCount : Half) : Half := (rxCount.extractLsb' 0 10).setWidth 16

/-- `BlockEnc(P)` (R161). -/
def blockEnc (p : Half) : Half :=
  if p.toNat ≤ 62 then BitVec.ofNat 16 ((p.toNat + 1) / 2) <<< 10
  else 0x8000 ||| (BitVec.ofNat 16 ((p.toNat + 31) / 32 - 1) <<< 10)

/-- `Cap(rc)`, the capacity an rx_count word advertises (R229). -/
def capacity (rc : Half) : Nat :=
  if rc.getLsbD 15 then 32 * ((rc.extractLsb' 10 5).toNat + 1) else 2 * (rc.extractLsb' 10 5).toNat

/-- The rx_count word after a packet of `count` bytes: COUNT written, BL_SIZE and NUM_BLOCK kept (R222). -/
def withCount (rxCount : Half) (count : Nat) : Half := (rxCount &&& 0xFC00) ||| BitVec.ofNat 16 count

/-- The 64-bit notification record (R98). -/
def notificationRecord (code ep : BitVec 8) (buffer : Word) (length : Half) : Wide := code ++ ep ++ length ++ buffer

/-- Notification codes (R99). -/
def codeBusReset : BitVec 8 := 0x01
def codeStartOfFrame : BitVec 8 := 0x02
def codeEndpointReceived : BitVec 8 := 0x05
def codeEndpointSent : BitVec 8 := 0x06
def codeCtlSetup : BitVec 8 := 0x10
def codeCtlIn : BitVec 8 := 0x11
def codeCtlOut : BitVec 8 := 0x12

/-- The words of allocation a length takes: `ceil(length / 2)` (R120). -/
def allocWords (length : Half) : Nat := (length.toNat + 1) / 2

/-- The four fields of a Buffer Descriptor (R24). -/
inductive BdtField
  | txAddr | txCount | rxAddr | rxCount
  deriving DecidableEq, Repr

/-- The byte offset of a field in its descriptor (R24). -/
def bdtFieldOffset : BdtField → Nat
  | .txAddr => 0
  | .txCount => 2
  | .rxAddr => 4
  | .rxCount => 6

/-- The packet-memory offset of a descriptor field: `BTABLE + 8n + off(f)` (R24, R72). DESIGN CHOICE: the sum is exact and
does not wrap modulo 2^16, so a BTABLE the application wrote too high is refused at the access (log 30). -/
def bdtOffset (btable : Half) (n : Ep) (f : BdtField) : Nat := btable.toNat + 8 * n.val + bdtFieldOffset f

/-- The offset of a host-bus address from a base (R47, R69), modulo 2^32. -/
def busOffset (base address : Word) : Nat := (address - base).toNat

/-- The registers of the map (R47). -/
inductive RegName
  | epr (n : Ep)
  | cntr | istr | daddr | btable | cra | cmd1 | cmd0 | result | fault | cursor
  /-- An offset of a reserved slot: "reads return 0, writes are ignored". -/
  | reserved
  /-- An offset inside the 32-bit slot of a register, other than the register's own (log 16). -/
  | insideSlot (offset : Nat)
  deriving DecidableEq, Repr

/-- The register whose 32-bit slot, number `slot` from REG_BASE, an access falls in (R47). -/
def regOfSlot (slot : Nat) : RegName :=
  if h : slot < 8 then .epr ⟨slot, h⟩
  else if slot = 0x40 / 4 then .cntr
  else if slot = 0x44 / 4 then .istr
  else if slot = 0x4C / 4 then .daddr
  else if slot = 0x50 / 4 then .btable
  else if slot = 0x58 / 4 then .cra
  else if slot = 0x60 / 4 then .cmd1
  else if slot = 0x64 / 4 then .cmd0
  else if slot = 0x68 / 4 then .result
  else if slot = 0x6C / 4 then .fault
  else if slot = 0x70 / 4 then .cursor
  else .reserved

/-- What the map has at an offset from REG_BASE (R47): a reserved slot is reserved at every offset in it. -/
def regAt (offset : Nat) : RegName :=
  let r := regOfSlot (offset / 4)
  if offset % 4 = 0 ∨ r = .reserved then r else .insideSlot offset

/-- The bits of its 32-bit slot that a register can read as 1: "bits above the register's width read as 0", and CMD1, CMD0
and the reserved slots read 0 (R47). -/
def RegName.readMask : RegName → Word
  | .epr _ => 0xFFFF
  | .cntr => 0xFFFF
  | .istr => 0xFFFF
  | .daddr => 0xFF
  | .btable => 0xFFFF
  | .cra => 1
  | .cmd1 => 0
  | .cmd0 => 0
  | .result => 0xFFFF
  | .fault => 0xF
  | .cursor => 0xFFFF
  | .reserved => 0
  | .insideSlot _ => 0

/-- The bits a read at an offset inside a slot leaves open: of the slot's bits it covers, and of the next slot's where it
runs over, the ones above a register's width are 0 (R47) and the others free (log 16). -/
def openReadBits (width : RegWidth) (offset : Nat) : Word :=
  let slots : Wide := (regOfSlot (offset / 4 + 1)).readMask ++ (regOfSlot (offset / 4)).readMask
  let covered : Word := (slots >>> (8 * (offset % 4))).setWidth 32
  match width with
  | .w16 => covered &&& 0xFFFF
  | .w32 => covered

end Sys2Proof.Machine
end

