-- ==== Sys2Proof/Machine/Ops.lean ====
section
/-! DEFINITION. The shared operations over memory and registers: memories in canonical form, the packet-memory and
system-memory accessors (`20_memory.md` R61, R62), descriptors (R72), the copy primitives (R70, R71), the register write
primitives (R29, R33), the notification trace (R44), the allocator (R120), raising a fault (R241), and the entry to and
the exit from the dispatcher (R251, R252). -/

namespace Sys2Proof.Machine

/-- An operation that may stop, for the cases the spec leaves outside. -/
abbrev Eff (α : Type) := Except Stop α

/-- The outcome of an operation that ends in a state. -/
def settle : Eff State → Host.Outcome State Fault Refusal
  | .ok s => .next s
  | .error (.fault r) => .fault r
  | .error (.refusal r) => .refused r

/-- Stop with a refusal. -/
def refuse {α : Type} (r : Refusal) : Eff α := .error (.refusal r)

/-! ### Memories -/

/-- What an address no cell lists reads as (logs 3, 4). -/
def Memory.unlisted : Byte := 0

/-- The byte at an address. -/
def Memory.read : List Host.Cell → Nat → Byte
  | [], _ => Memory.unlisted
  | (k, b) :: m, a => if k = a then b else Memory.read m a

/-- Take the cells of an address out. -/
def Memory.erase : List Host.Cell → Nat → List Host.Cell
  | [], _ => []
  | (k, b) :: m, a => if k = a then Memory.erase m a else (k, b) :: Memory.erase m a

/-- Put a cell in before the first cell whose address is not below its own. -/
def Memory.insert : List Host.Cell → Nat → Byte → List Host.Cell
  | [], a, v => [(a, v)]
  | (k, b) :: m, a, v => if k < a then (k, b) :: Memory.insert m a v else (a, v) :: (k, b) :: m

/-- Write a byte, keeping the canonical form: a byte equal to what an unlisted address reads as is listed nowhere. -/
def Memory.write (m : List Host.Cell) (a : Nat) (v : Byte) : List Host.Cell :=
  if v = Memory.unlisted then Memory.erase m a else Memory.insert (Memory.erase m a) a v

/-- The canonical form: addresses strictly rising and below `size`, no cell equal to what an unlisted address reads as. -/
abbrev Memory.wf (size : Nat) (m : List Host.Cell) : Prop :=
  m.Pairwise (fun c d => c.1 < d.1) ∧ ∀ c ∈ m, c.1 < size ∧ c.2 ≠ Memory.unlisted

/-- The number of system-memory addresses (R62). -/
def smSize : Nat := 4294967296

/-! ### Packet memory (R61, R65, R66)

"A model refuses the step" that reaches PMA_SIZE or beyond because a descriptor was overwritten (R78; log 9). DESIGN CHOICE:
it is refused too where no descriptor was overwritten and a packet size raised after the buffer was allocated carries the
copy there (R123, R281; log 31). -/

/-- The byte of packet memory at an offset. -/
def State.pmByte (s : State) (a : Nat) : Byte := Memory.read s.pm a

/-- The 16-bit little-endian word of packet memory at an offset. -/
def State.pmHalf (s : State) (a : Nat) : Half := s.pmByte (a + 1) ++ s.pmByte a

/-- Set a byte of packet memory. -/
def State.setPmByte (s : State) (a : Nat) (v : Byte) : State := { s with pm := Memory.write s.pm a v }

/-- `PmRead(a, 1)`. -/
def pmRead8 (a : Nat) (s : State) : Eff Byte :=
  if a < Config.pmaSize then .ok (s.pmByte a) else refuse .packetMemoryRange

/-- `PmWrite(a, 1, v)`. -/
def pmWrite8 (a : Nat) (v : Byte) (s : State) : Eff State :=
  if a < Config.pmaSize then .ok (s.setPmByte a v) else refuse .packetMemoryRange

/-- `PmRead(a, 2)`, the high byte at the higher offset. -/
def pmRead16 (a : Nat) (s : State) : Eff Half :=
  if a % 2 ≠ 0 then refuse .oddPacketMemoryAccess
  else if a + 1 < Config.pmaSize then .ok (s.pmHalf a)
  else refuse .packetMemoryRange

/-- `PmWrite(a, 2, v)`. -/
def pmWrite16 (a : Nat) (v : Half) (s : State) : Eff State :=
  if a % 2 ≠ 0 then refuse .oddPacketMemoryAccess
  else if a + 1 < Config.pmaSize then
    .ok ((s.setPmByte a (v.extractLsb' 0 8)).setPmByte (a + 1) (v.extractLsb' 8 8))
  else refuse .packetMemoryRange

/-! ### System memory (R62) -/

/-- `MemRead(addr, 1)`: never faults. -/
def State.smByte (s : State) (a : Word) : Byte := Memory.read s.sm a.toNat

/-- `MemWrite(addr, 1, v)`: never faults. -/
def State.setSmByte (s : State) (a : Word) (v : Byte) : State := { s with sm := Memory.write s.sm a.toNat v }

/-- The Setup Packet record's fields (R43). -/
structure SetupPacket where
  requestType : Byte
  request : Byte
  value : Half
  index : Half
  length : Half
  deriving DecidableEq, Repr

/-- The Setup Packet record: the 8 bytes of system memory at SETUP_BUF_ADDR (R43). -/
def State.setupPacket (s : State) : SetupPacket :=
  let a := s.params.setupBufAddr
  { requestType := s.smByte a
    request := s.smByte (a + 1)
    value := s.smByte (a + 3) ++ s.smByte (a + 2)
    index := s.smByte (a + 5) ++ s.smByte (a + 4)
    length := s.smByte (a + 7) ++ s.smByte (a + 6) }

/-! ### The copy primitives (R70, R71) -/

/-- `CopyIn(src, dst, len)`: whole words in ascending order, then an odd last byte. -/
def copyIn (src : Word) (dst : Nat) : Nat → State → Eff State
  | 0, s => .ok s
  | 1, s => pmWrite8 dst (s.smByte src) s
  | n + 2, s => do
    let t ← pmWrite16 dst (s.smByte (src + 1) ++ s.smByte src) s
    copyIn (src + 2) (dst + 2) n t

/-- `CopyOut(src, dst, len)`: whole words in ascending order, then an odd last byte. -/
def copyOut (src : Nat) (dst : Word) : Nat → State → Eff State
  | 0, s => .ok s
  | 1, s => do
    let b ← pmRead8 src s
    pure (s.setSmByte dst b)
  | n + 2, s => do
    let w ← pmRead16 src s
    copyOut (src + 2) (dst + 2) n
      ((s.setSmByte dst (w.extractLsb' 0 8)).setSmByte (dst + 1) (w.extractLsb' 8 8))

/-! ### Descriptors (R24, R72) -/

/-- Read `bdt[n].f` through BTABLE as it stands. -/
def bdtRead (n : Ep) (f : BdtField) (s : State) : Eff Half := pmRead16 (bdtOffset s.btable n f) s

/-- Write the whole field `bdt[n].f` through BTABLE as it stands. -/
def bdtWrite (n : Ep) (f : BdtField) (v : Half) (s : State) : Eff State := pmWrite16 (bdtOffset s.btable n f) v s

/-! ### The transfer state and the endpoint registers (R22, R27) -/

/-- `ets[n]`. -/
def State.etsOf (s : State) (n : Ep) : Ets := s.ets[n.val]

/-- Set `ets[n]`. -/
def State.setEts (s : State) (n : Ep) (e : Ets) : State := { s with ets := s.ets.set n.val e n.isLt }

/-- `EPR[n]`. -/
def State.eprOf (s : State) (n : Ep) : Half := s.epr[n.val]

/-- Set `EPR[n]` whole, as only the SIE does. -/
def State.setEpr (s : State) (n : Ep) (v : Half) : State := { s with epr := s.epr.set n.val v n.isLt }

/-- `EPRWrite(n, w)` (R29). -/
def eprWrite (n : Ep) (w : Half) (s : State) : State := s.setEpr n (eprWriteWord (s.eprOf n) w)

/-- SET_STATUS on an endpoint in range (R133). -/
def setStatusOf (n : Ep) (desired mask : Half) (s : State) : State :=
  eprWrite n (setStatusWord (s.eprOf n) desired mask) s

/-- SetTxValid(n) (R135). -/
def setTxValid (n : Ep) (s : State) : State := setStatusOf n 0x0030 statTxMask s

/-- SetTxDisabled(n) (R135). -/
def setTxDisabled (n : Ep) (s : State) : State := setStatusOf n 0x0000 statTxMask s

/-- SetRxValid(n) (R135). -/
def setRxValid (n : Ep) (s : State) : State := setStatusOf n 0x3000 statRxMask s

/-- SetRxDisabled(n) (R135). -/
def setRxDisabled (n : Ep) (s : State) : State := setStatusOf n 0x0000 statRxMask s

/-! ### ISTR and the interrupt line (R31 to R35) -/

/-- The endpoints with a completion pending, in ascending order. -/
def State.pendingEps (s : State) : List Ep := Config.endpoints.filter (fun n => completionPending (s.eprOf n))

/-- CTR, ISTR[15]: some endpoint has a completion pending (R32). -/
def State.ctr (s : State) : Bool := !s.pendingEps.isEmpty

/-- EP_ID, ISTR[3:0]: the lowest endpoint with a completion pending, 0 when there is none (R32). -/
def State.epId (s : State) : Ep := s.pendingEps.headD 0

/-- ISTR as read (R31, R32). -/
def State.istrRead (s : State) : Half := istrWord s.ctr s.istr s.epId

/-- `ISTRWrite(w)` (R33). -/
def istrWrite (w : Half) (s : State) : State := { s with istr := istrWriteFlags s.istr w }

/-- IRQ (R35). -/
def State.irq (s : State) : Bool := irqLine s.istrRead s.cntr

/-- A write of BTABLE: bits 2:0 are hardwired to 0 (R37). -/
def btableWrite (w : Half) (s : State) : State := { s with btable := w &&& 0xFFF8 }

/-! ### Faults, entry and exit (R241, R251, R252) -/

/-- `FAULT[c] <- 1`, the recording half of `raise Fault(c)` (R39, R241); the operation that raises ends where it stands. -/
def raiseFault (c : FaultCause) (s : State) : State := { s with faults := s.faults ||| faultBit c }

/-- Entry to the dispatcher: `disp_phase <- LOOP`, nothing saved (R251). -/
def enterDispatcher (s : State) : State := { s with phase := .loop }

/-- Exit from the dispatcher: `disp_phase <- IDLE`, nothing restored (R252). -/
def leaveDispatcher (s : State) : State := { s with phase := .idle }

/-! ### Notifications (R98) -/

/-- `Notify(code, ep, buf, len)`: one record at the end of the trace. -/
def notifyApp (code ep : BitVec 8) (buffer : Word) (length : Half) (s : State) : State :=
  { s with notes := s.notes ++ [notificationRecord code ep buffer length] }

/-! ### The allocator (R120, R121) -/

/-- ALLOC: the address handed out, or none on overrun, which sets FAULT.ALLOC_OVERRUN and leaves the cursor. -/
def allocate (length : Half) (s : State) : Option Half × State :=
  let next := s.pmaCursor.toNat + 2 * allocWords length
  if Config.pmaSize < next then (none, raiseFault .allocOverrun s)
  else (some s.pmaCursor, { s with pmaCursor := BitVec.ofNat 16 next })

end Sys2Proof.Machine
end

