-- ==== Sys2Proof/Machine/App.lean ====
section
/-! DEFINITION. The moves of the application, an environment agent (`47_sie_environment.md` R227): register accesses
(`10_state.md` R47), packet-memory accesses (`20_memory.md` R65, R66, R69), system-memory accesses (R62), reading the
notification trace (R44). -/

namespace Sys2Proof.Machine

/-- What a read of a register returns, bits above its width 0 (R47). CURSOR before the first BUS_RESET is a free value
(R273, U15; log 5), and so are the bits of a read inside a slot that R47 does not give as 0 (log 16). -/
def regValue (width : RegWidth) (r : RegName) (s : State) : Word :=
  match r with
  | .epr n => (s.eprOf n).setWidth 32
  | .cntr => s.cntr.setWidth 32
  | .istr => s.istrRead.setWidth 32
  | .daddr => s.daddr.setWidth 32
  | .btable => s.btable.setWidth 32
  | .cra => s.cra.setWidth 32
  | .cmd1 => 0
  | .cmd0 => 0
  | .result => s.result.setWidth 32
  | .fault => s.faults.setWidth 32
  | .cursor => if s.created then s.pmaCursor.setWidth 32 else (Config.freeCursor s.freeIndex).setWidth 32
  | .reserved => 0
  | .insideSlot offset => Config.freeWord s.freeIndex &&& openReadBits width offset

/-- Whether a read of a register takes a free value. -/
def regReadIsFree (width : RegWidth) (r : RegName) (s : State) : Bool :=
  match r with
  | .insideSlot offset => decide (openReadBits width offset ≠ 0)
  | .cursor => !s.created
  | _ => false

/-- The application reads a register; the block's state does not change (R63). -/
def appRegRead (width : RegWidth) (r : RegName) (s : State) : State :=
  { s with
    appSaw := .word (regValue width r s)
    freeIndex := if regReadIsFree width r s then s.freeIndex + 1 else s.freeIndex }

/-- The value a write gives a 32-bit register: a 16-bit write leaves a free upper half (log 15). -/
def wideValue (width : RegWidth) (value : Word) (s : State) : Word :=
  match width with
  | .w32 => value
  | .w16 => Config.freeHalf s.freeIndex ++ value.extractLsb' 0 16

/-- The free-value index after a write of a 32-bit register. -/
def wideIndex (width : RegWidth) (s : State) : Nat :=
  match width with
  | .w32 => s.freeIndex
  | .w16 => s.freeIndex + 1

/-- The write of CMD0 presents the frame `{CMD1, CMD0}` with the value CMD1 holds at that moment (R91); before the first
BUS_RESET a frame is refused (R94, R273). -/
def presentFrame (cmd0 : Word) (s : State) : Eff State :=
  if s.created then .ok { s with cmd0 := cmd0, frame := some (frameOf s.cmd1 cmd0) }
  else refuse .beforeFirstBusReset

/-- The application writes a register, each by its own rule; bits above its width are ignored (R47, R63). A write
inside a slot names no register and does nothing (log 16). -/
def appRegWrite (r : RegName) (width : RegWidth) (value : Word) (s : State) : Eff State :=
  let low : Half := value.extractLsb' 0 16
  match r with
  | .epr n => .ok (eprWrite n low s)
  | .cntr => .ok { s with cntr := low }
  | .istr => .ok (istrWrite low s)
  | .daddr => .ok { s with daddr := value.extractLsb' 0 8 }
  | .btable => .ok (btableWrite low s)
  | .cra => .ok { s with cra := value.extractLsb' 0 1 }
  | .cmd1 => .ok { s with cmd1 := wideValue width value s, freeIndex := wideIndex width s }
  | .cmd0 => presentFrame (wideValue width value s) { s with freeIndex := wideIndex width s }
  | .result => .ok s
  | .fault => .ok s
  | .cursor => .ok s
  | .reserved => .ok s
  | .insideSlot _ => .ok s

/-- The offset of a packet-memory access of the application (R69); at an address where no packet memory exists the access
faults (log 28). -/
def appPmOffset (address : Word) (s : State) : Eff Nat :=
  let a := busOffset s.params.pmaBase address
  if a < Config.pmaSize then .ok a else .error (.fault .outsidePacketMemory)

/-- The application reads packet memory (R65, R66). -/
def appPmRead (width : PmWidth) (address : Word) (s : State) : Eff State := do
  let a ← appPmOffset address s
  match width with
  | .w8 => do
    let b ← pmRead8 a s
    pure { s with appSaw := .word (b.setWidth 32) }
  | .w16 => do
    let w ← pmRead16 a s
    pure { s with appSaw := .word (w.setWidth 32) }
  | .w32 => refuse .packetMemoryWidth32

/-- The application writes packet memory (R65, R66). -/
def appPmWrite (width : PmWidth) (address : Word) (value : Half) (s : State) : Eff State := do
  let a ← appPmOffset address s
  match width with
  | .w8 => pmWrite8 a (value.extractLsb' 0 8) s
  | .w16 => pmWrite16 a value s
  | .w32 => refuse .packetMemoryWidth32

/-- What the map has at a host-bus address (R47). -/
def State.regAtBus (s : State) (address : Word) : RegName := regAt (busOffset s.params.regBase address)

/-- A move of the application. -/
def appStep (m : AppMove) (s : State) : Eff State :=
  match m with
  | .regRead width address => .ok (appRegRead width (s.regAtBus address) s)
  | .regWrite width address value => appRegWrite (s.regAtBus address) width value s
  | .pmRead width address => appPmRead width address s
  | .pmWrite width address value => appPmWrite width address value s
  | .smRead address => .ok { s with appSaw := .word ((s.smByte address).setWidth 32) }
  | .smWrite address value => .ok (s.setSmByte address value)
  | .traceRead => .ok { s with appSaw := .trace s.notes }

/-- Whether a move must wait: the application can present no other frame while one waits (R94; log 7). -/
def appHeld (m : AppMove) (s : State) : Bool :=
  match m with
  | .regWrite _ address _ => decide (s.regAtBus address = .cmd0) && s.frame.isSome
  | _ => false

end Sys2Proof.Machine
end

