-- ==== Sys2Proof/Machine/Allocator.lean ====
section
/-! DEFINITION. The packet-memory allocator (`40_allocator.md`): ALLOC as a command and invoked internally. -/

namespace Sys2Proof.Machine

/-- ALLOC as a command: RESULT takes the address, or 0 on overrun (R120, R121). -/
def execAlloc (length : Half) (s : State) : Host.Outcome State Fault Refusal :=
  match allocate length s with
  | (some a, t) => .next { t with result := a }
  | (none, t) => .next { t with result := 0 }

/-- ALLOC invoked internally: the address goes to the invoker, RESULT is not written (R102, R120). -/
def execAllocInternal (length : Half) (s : State) : Host.Outcome State Fault Refusal := .next (allocate length s).2

end Sys2Proof.Machine
end

