-- ==== Sys2Proof/Machine/Endpoint.lean ====
section
/-! DEFINITION. Endpoint configuration and the status-bit primitive (`41_endpoint_config_status.md`): CONFIGURE, SET_STATUS,
their internal forms, the status pseudo-operations (R101), ClearCtrRx and ClearCtrTx (R136). -/

namespace Sys2Proof.Machine

/-- CONFIGURE on an endpoint in range with a recognised type (R130). -/
def configureOf (n : Ep) (address : BitVec 8) (packetSize : Half) (type : TransferType) (s : State) : State :=
  let t := s.setEts n { s.etsOf n with packetSize := packetSize }
  eprWrite n (configWord (t.eprOf n) address type) t

/-- CONFIGURE as a command: an endpoint above 7 or an unrecognised type is rejected with BAD_ARG (R130, R243). -/
def execConfigure (ep address : BitVec 8) (packetSize : Half) (type : BitVec 8) (s : State) :
    Host.Outcome State Fault Refusal :=
  match endpointOf ep, typeOf type with
  | some n, some ty => .next (configureOf n address packetSize ty s)
  | _, _ => .next (raiseFault .badArg s)

/-- CONFIGURE invoked internally (R102). -/
def execConfigureInternal (n : Ep) (address : BitVec 8) (packetSize : Half) (type : TransferType) (s : State) :
    Host.Outcome State Fault Refusal :=
  .next (configureOf n address packetSize type s)

/-- The SET_STATUS command's operation: an endpoint above 7 is rejected with BAD_ARG (R133, R137). -/
def setStatusCommand (ep : BitVec 8) (desired mask : Half) (s : State) : State :=
  match endpointOf ep with
  | some n => setStatusOf n desired mask s
  | none => raiseFault .badArg s

/-- SET_STATUS as a command (R133). -/
def execSetStatus (ep : BitVec 8) (desired mask : Half) (s : State) : Host.Outcome State Fault Refusal :=
  .next (setStatusCommand ep desired mask s)

/-- SET_STATUS invoked internally (R102, R135). -/
def execSetStatusInternal (n : Ep) (desired mask : Half) (s : State) : Host.Outcome State Fault Refusal :=
  .next (setStatusOf n desired mask s)

/-- SET_TX_STATUS: `SET_STATUS endpoint, code << 4, 0x0030` (R101). -/
def execSetTxStatus (ep : BitVec 8) (code : BitVec 2) (s : State) : Host.Outcome State Fault Refusal :=
  .next (setStatusCommand ep (code.setWidth 16 <<< 4) statTxMask s)

/-- SET_RX_STATUS: `SET_STATUS endpoint, code << 12, 0x3000` (R101). -/
def execSetRxStatus (ep : BitVec 8) (code : BitVec 2) (s : State) : Host.Outcome State Fault Refusal :=
  .next (setStatusCommand ep (code.setWidth 16 <<< 12) statRxMask s)

/-- ClearCtrRx(n, val) on a state (R136). -/
def clearCtrRxOf (n : Ep) (val : Half) (s : State) : State := eprWrite n (clearCtrRxWord val) s

/-- ClearCtrTx(n, val) on a state (R136). -/
def clearCtrTxOf (n : Ep) (val : Half) (s : State) : State := eprWrite n (clearCtrTxWord val) s

/-- ClearCtrRx (R136). -/
def execClearCtrRx (n : Ep) (val : Half) (s : State) : Host.Outcome State Fault Refusal := .next (clearCtrRxOf n val s)

/-- ClearCtrTx (R136). -/
def execClearCtrTx (n : Ep) (val : Half) (s : State) : Host.Outcome State Fault Refusal := .next (clearCtrTxOf n val s)

/-- A frame with a reserved opcode: FAULT.BAD_CMD and nothing else (R95, R244). -/
def execReserved (_opcode : BitVec 8) (s : State) : Host.Outcome State Fault Refusal := .next (raiseFault .badCmd s)

/-- Notify (R98). -/
def execNotify (code ep : BitVec 8) (buffer : Word) (length : Half) (s : State) : Host.Outcome State Fault Refusal :=
  .next (notifyApp code ep buffer length s)

end Sys2Proof.Machine
end

