-- ==== Sys2Proof/Machine/Receive.lean ====
section
/-! DEFINITION. Receive (`43_receive.md`): RECEIVE, its cancel, BEGIN_PACKET_RECEIVE, END_PACKET_RECEIVE. -/

namespace Sys2Proof.Machine

/-- The lines of BEGIN_PACKET_RECEIVE after the lazy allocation: the block-size count, then VALID (R162). -/
def armReceive (n : Ep) (s : State) : Eff State := do
  let t ← bdtWrite n .rxCount (blockEnc (s.etsOf n).packetSize) s
  pure (setRxValid n t)

/-- BEGIN_PACKET_RECEIVE(n) (R162): refused on an endpoint whose packet size is above 1023, before anything else (R12, U7);
nothing on an idle or unconfigured direction; the buffer is allocated on first use, and an overrun ends the operation
(R121, R241). -/
def beginReceive (n : Ep) (s : State) : Eff State :=
  let e := s.etsOf n
  if Config.maxPacketSize < e.packetSize.toNat then refuse .packetSizeTooLarge
  else if e.rxCursor = Config.cursorNone ∨ e.packetSize = 0 then .ok s
  else do
    let a ← bdtRead n .rxAddr s
    if a = 0 then
      match allocate e.packetSize s with
      | (none, t) => .ok t
      | (some b, t) => do
        let u ← bdtWrite n .rxAddr b t
        armReceive n u
    else armReceive n s

/-- END_PACKET_RECEIVE(n) (R163): the copy is clamped to the caller's room (R165), the received count alone decides
whether the transfer ends (R164), an idle direction does nothing (R166). -/
def endReceive (n : Ep) (s : State) : Eff State :=
  let e := s.etsOf n
  if e.rxCursor = Config.cursorNone then .ok s
  else do
    let count ← bdtRead n .rxCount s
    let received := receivedCount count
    let len := e.rxCopyLength received
    let src ← bdtRead n .rxAddr s
    let t ← copyOut src.toNat e.rxCursor len.toNat s
    if received ≠ e.packetSize then pure (t.setEts n { e with rxCursor := Config.cursorNone })
    else beginReceive n (t.setEts n { e with rxCursor := e.rxCursor + len.setWidth 32 })

/-- Cancel of the receive direction (R160). -/
def cancelRx (n : Ep) (s : State) : State :=
  setRxDisabled n (s.setEts n { s.etsOf n with rxCursor := Config.cursorNone })

/-- RECEIVE on an endpoint in range (R160): a null buffer cancels, any other records the transfer and arms it. -/
def receiveOf (n : Ep) (buffer : Word) (length : Half) (s : State) : Eff State :=
  if buffer = 0 then .ok (cancelRx n s)
  else if bufferWraps buffer length then refuse .bufferWraps
  else beginReceive n (s.setEts n { s.etsOf n with rxBuf := buffer, rxLen := length, rxCursor := buffer })

/-- The RECEIVE command's operation: an endpoint above 7 is rejected with BAD_ARG before any other effect (R137, R243). -/
def receiveCommand (ep : BitVec 8) (buffer : Word) (length : Half) (s : State) : Eff State :=
  match endpointOf ep with
  | some n => receiveOf n buffer length s
  | none => .ok (raiseFault .badArg s)

/-- RECEIVE (R160). -/
def execReceive (ep : BitVec 8) (buffer : Word) (length : Half) (s : State) : Host.Outcome State Fault Refusal :=
  settle (receiveCommand ep buffer length s)

/-- CANCEL_RECEIVE: `RECEIVE endpoint, 0, 0` (R101). -/
def execCancelReceive (ep : BitVec 8) (s : State) : Host.Outcome State Fault Refusal := settle (receiveCommand ep 0 0 s)

/-- RECEIVE invoked internally (R102). -/
def execReceiveInternal (n : Ep) (buffer : Word) (length : Half) (s : State) : Host.Outcome State Fault Refusal :=
  settle (receiveOf n buffer length s)

/-- BEGIN_PACKET_RECEIVE (R162). -/
def execBeginPacketReceive (n : Ep) (s : State) : Host.Outcome State Fault Refusal := settle (beginReceive n s)

/-- END_PACKET_RECEIVE (R163). -/
def execEndPacketReceive (n : Ep) (s : State) : Host.Outcome State Fault Refusal := settle (endReceive n s)

end Sys2Proof.Machine
end

