-- ==== Sys2Proof/Machine/BusReset.lean ====
section
/-! DEFINITION. The bus reset sequence (`45_bus_reset.md` R190). -/

namespace Sys2Proof.Machine

/-- Zero the four fields of descriptor `n` and record `ets[n]` (R190, step 4). -/
def clearEndpoint (s : State) (n : Ep) : Eff State := do
  let a ← bdtWrite n .txAddr 0 s
  let b ← bdtWrite n .txCount 0 a
  let c ← bdtWrite n .rxAddr 0 b
  let d ← bdtWrite n .rxCount 0 c
  pure (d.setEts n Ets.zero)

/-- Zero the endpoints of a list, in order (R190, step 4). -/
def clearEndpoints : List Ep → State → Eff State
  | [], s => .ok s
  | n :: ns, s => do
    let t ← clearEndpoint s n
    clearEndpoints ns t

/-- BUS_RESET, its steps in order (R190). The allocator and descriptor state is created by it (R193; log 8). -/
def busResetOf (s : State) : Eff State := do
  let s1 := istrWrite 0x0000 s
  let s2 := { s1 with cra := 1 }
  let s3 := btableWrite Config.bdtBase s2
  let s4 ← clearEndpoints Config.endpoints s3
  let s5 := { s4 with pmaCursor := Config.allocBase, created := true }
  let s6 := configureOf 0 0 Config.ep0PacketSize .control s5
  let s7 ← receiveOf 0 s6.params.setupBufAddr Config.setupLen s6
  let s8 := notifyApp codeBusReset 0 0 0 s7
  let s9 := { s8 with cntr := 0xE600 }
  pure { s9 with daddr := 0x80 }

/-- BUS_RESET (R190). -/
def execBusReset (s : State) : Host.Outcome State Fault Refusal := settle (busResetOf s)

end Sys2Proof.Machine
end

