-- ==== Sys2Proof/Machine/Control.lean ====
section
/-! DEFINITION. The control endpoint state machine (`44_control_endpoint.md`): CTL_EVENT for SETUP, OUT and IN on endpoint
0. -/

namespace Sys2Proof.Machine

/-- CTL_EVENT(SETUP): the record, then the re-arm onto the Setup Packet record (R181). -/
def ctlSetup (s : State) : Eff State :=
  receiveOf 0 s.params.setupBufAddr Config.setupLen
    (notifyApp codeCtlSetup 0 (s.etsOf 0).rxBuf (s.etsOf 0).rxLen s)

/-- CTL_EVENT(OUT): the record, nothing else (R182). -/
def ctlOut (s : State) : State := notifyApp codeCtlOut 0 (s.etsOf 0).rxBuf (s.etsOf 0).rxLen s

/-- CTL_EVENT(IN): the record, nothing else (R183). -/
def ctlIn (s : State) : State := notifyApp codeCtlIn 0 (s.etsOf 0).txBuf (s.etsOf 0).txLen s

/-- CTL_EVENT(SETUP) (R181). -/
def execCtlEventSetup (s : State) : Host.Outcome State Fault Refusal := settle (ctlSetup s)

/-- CTL_EVENT(OUT) (R182). -/
def execCtlEventOut (s : State) : Host.Outcome State Fault Refusal := .next (ctlOut s)

/-- CTL_EVENT(IN) (R183). -/
def execCtlEventIn (s : State) : Host.Outcome State Fault Refusal := .next (ctlIn s)

end Sys2Proof.Machine
end

