-- ==== Sys2Proof/Machine/Transmit.lean ====
section
/-! DEFINITION. Transmit (`42_transmit.md`): SEND, its cancel, SEND_NEXT_PACKET. -/

namespace Sys2Proof.Machine

/-- The lines of SEND_NEXT_PACKET after the lazy allocation: copy, count, cursor, termination, VALID (R147, R148).
DESIGN CHOICE: a copy that a packet size raised since the allocation carries past PMA_SIZE is refused (R123, R281; log
31). -/
def queuePacket (n : Ep) (s : State) : Eff State := do
  let e := s.etsOf n
  let len := e.txPacketLength
  let dst ← bdtRead n .txAddr s
  let t ← copyIn e.txCursor dst.toNat len.toNat s
  let u ← bdtWrite n .txCount len t
  let cursor := if len ≠ e.packetSize then Config.cursorNone else e.txCursor + len.setWidth 32
  pure (setTxValid n (u.setEts n { e with txCursor := cursor }))

/-- SEND_NEXT_PACKET(n) (R147): refused on an endpoint whose packet size is above 1023, before anything else (R12, U7); nothing
on an idle or unconfigured direction; the buffer is allocated on first use, and an overrun ends the operation (R121,
R241). -/
def sendNext (n : Ep) (s : State) : Eff State :=
  let e := s.etsOf n
  if Config.maxPacketSize < e.packetSize.toNat then refuse .packetSizeTooLarge
  else if e.txCursor = Config.cursorNone ∨ e.packetSize = 0 then .ok s
  else do
    let a ← bdtRead n .txAddr s
    if a = 0 then
      match allocate e.packetSize s with
      | (none, t) => .ok t
      | (some b, t) => do
        let u ← bdtWrite n .txAddr b t
        queuePacket n u
    else queuePacket n s

/-- Cancel of the transmit direction (R146). -/
def cancelTx (n : Ep) (s : State) : State :=
  setTxDisabled n (s.setEts n { s.etsOf n with txCursor := Config.cursorNone })

/-- SEND on an endpoint in range: a null buffer cancels (R146), any other records the transfer and queues its first packet
(R145). -/
def sendOf (n : Ep) (buffer : Word) (length : Half) (s : State) : Eff State :=
  if buffer = 0 then .ok (cancelTx n s)
  else if bufferWraps buffer length then refuse .bufferWraps
  else sendNext n (s.setEts n { s.etsOf n with txBuf := buffer, txLen := length, txCursor := buffer })

/-- The SEND command's operation: an endpoint above 7 is rejected with BAD_ARG before any other effect (R137, R243). -/
def sendCommand (ep : BitVec 8) (buffer : Word) (length : Half) (s : State) : Eff State :=
  match endpointOf ep with
  | some n => sendOf n buffer length s
  | none => .ok (raiseFault .badArg s)

/-- SEND (R145, R146). -/
def execSend (ep : BitVec 8) (buffer : Word) (length : Half) (s : State) : Host.Outcome State Fault Refusal :=
  settle (sendCommand ep buffer length s)

/-- CANCEL_SEND: `SEND endpoint, 0, 0` (R101). -/
def execCancelSend (ep : BitVec 8) (s : State) : Host.Outcome State Fault Refusal := settle (sendCommand ep 0 0 s)

/-- SEND_NEXT_PACKET (R147). -/
def execSendNextPacket (n : Ep) (s : State) : Host.Outcome State Fault Refusal := settle (sendNext n s)

end Sys2Proof.Machine
end

