-- ==== Sys2Proof/Machine/Dispatcher.lean ====
section
/-! DEFINITION. The interrupt dispatcher (`46_dispatcher.md`): DISPATCH_ENTRY and its seven handlers, DISPATCH_EP and its two
branches, DISPATCH_EXIT. -/

namespace Sys2Proof.Machine

/-! ### The flag handlers (R202 to R208) -/

/-- The RESET handler: BUS_RESET, then clear RESET (R202). -/
def handleReset (s : State) : Eff State := do
  let t ← busResetOf s
  pure (istrWrite 0xFBFF t)

/-- The SUSP handler: clear the flag (R203). -/
def handleSusp (s : State) : State := istrWrite 0xF7FF s

/-- The WKUP handler: clear the flag (R204). -/
def handleWkup (s : State) : State := istrWrite 0xEFFF s

/-- The ERR handler: clear the flag (R205). -/
def handleErr (s : State) : State := istrWrite 0xDFFF s

/-- The SOF handler: one START_OF_FRAME record, then clear the flag (R206). -/
def handleSof (s : State) : State := istrWrite 0xFDFF (notifyApp codeStartOfFrame 0 0 0 s)

/-- The ESOF handler: clear the flag (R207). -/
def handleEsof (s : State) : State := istrWrite 0xFEFF s

/-- The PMAOVR handler: clear the flag, then FAULT.PMA_OVR (R208). -/
def handlePmaovr (s : State) : State := raiseFault .pmaOvr (istrWrite 0xBFFF s)

/-- Run a handler when its bit of the sample is set (R96). -/
def whenFlag (b : Bool) (f : State → State) (s : State) : State := if b then f s else s

/-- DISPATCH_ENTRY: one sample of ISTR, a handler for every flag set in it, in the fixed order, then the phase (R201). -/
def dispatchEntryOf (s : State) : Eff State := do
  let x := s.istrRead
  let s0 ← if x.getLsbD 10 then handleReset s else pure s
  let s1 := whenFlag (x.getLsbD 11) handleSusp s0
  let s2 := whenFlag (x.getLsbD 12) handleWkup s1
  let s3 := whenFlag (x.getLsbD 13) handleErr s2
  let s4 := whenFlag (x.getLsbD 9) handleSof s3
  let s5 := whenFlag (x.getLsbD 8) handleEsof s4
  let s6 := whenFlag (x.getLsbD 14) handlePmaovr s5
  pure (enterDispatcher s6)

/-! ### The endpoint loop (R209 to R211) -/

/-- RX_COMPLETE(n, val) (R210). -/
def rxCompleteOf (n : Ep) (val : Half) (s : State) : Eff State := do
  let t ← endReceive n s
  let u := clearCtrRxOf n val t
  if (u.etsOf n).rxCursor = Config.cursorNone then
    if n = 0 then
      if val.getLsbD 11 then ctlSetup u else pure (ctlOut u)
    else pure (notifyApp codeEndpointReceived (epByte n) (u.etsOf n).rxBuf (u.etsOf n).rxLen u)
  else pure u

/-- TX_COMPLETE(n, val): the idle test is made on the cursor before the next packet is queued (R211). -/
def txCompleteOf (n : Ep) (val : Half) (s : State) : Eff State := do
  let t ← sendNext n s
  let u := clearCtrTxOf n val t
  if (s.etsOf n).txCursor = Config.cursorNone then
    if n = 0 then pure (ctlIn u)
    else pure (notifyApp codeEndpointSent (epByte n) (u.etsOf n).txBuf (u.etsOf n).txLen u)
  else pure u

/-- DISPATCH_EP: one iteration on the endpoint EP_ID names, both branches on one sample (R209). -/
def dispatchEpOf (s : State) : Eff State := do
  let n := s.epId
  let val := s.eprOf n
  let t ← if val.getLsbD 15 then rxCompleteOf n val s else pure s
  if val.getLsbD 7 then txCompleteOf n val t else pure t

/-! ### The meanings -/

/-- DISPATCH_ENTRY (R201). -/
def execDispatchEntry (s : State) : Host.Outcome State Fault Refusal := settle (dispatchEntryOf s)

/-- DISPATCH_EP (R209). -/
def execDispatchEp (s : State) : Host.Outcome State Fault Refusal := settle (dispatchEpOf s)

/-- DISPATCH_EXIT (R212). -/
def execDispatchExit (s : State) : Host.Outcome State Fault Refusal := .next (leaveDispatcher s)

/-- The RESET handler (R202). -/
def execReset (s : State) : Host.Outcome State Fault Refusal := settle (handleReset s)

/-- The SUSP handler (R203). -/
def execSusp (s : State) : Host.Outcome State Fault Refusal := .next (handleSusp s)

/-- The WKUP handler (R204). -/
def execWkup (s : State) : Host.Outcome State Fault Refusal := .next (handleWkup s)

/-- The ERR handler (R205). -/
def execErr (s : State) : Host.Outcome State Fault Refusal := .next (handleErr s)

/-- The SOF handler (R206). -/
def execSof (s : State) : Host.Outcome State Fault Refusal := .next (handleSof s)

/-- The ESOF handler (R207). -/
def execEsof (s : State) : Host.Outcome State Fault Refusal := .next (handleEsof s)

/-- The PMAOVR handler (R208). -/
def execPmaovr (s : State) : Host.Outcome State Fault Refusal := .next (handlePmaovr s)

/-- RX_COMPLETE (R210). -/
def execRxComplete (n : Ep) (val : Half) (s : State) : Host.Outcome State Fault Refusal := settle (rxCompleteOf n val s)

/-- TX_COMPLETE (R211). -/
def execTxComplete (n : Ep) (val : Half) (s : State) : Host.Outcome State Fault Refusal := settle (txCompleteOf n val s)

end Sys2Proof.Machine
end

