-- ==== Sys2Proof/Machine/Dispatch.lean ====
section
/-! DEFINITION. One arm per operation of the opcode table, each one call of its meaning. -/

namespace Sys2Proof.Machine

def exec (i : Instr) (s : State) : Host.Outcome State Fault Refusal :=
  match i with
  -- commands (R92)
  | .alloc length => Sys2Proof.Machine.execAlloc length s
  | .configure ep address packetSize type => Sys2Proof.Machine.execConfigure ep address packetSize type s
  | .setStatus ep desired mask => Sys2Proof.Machine.execSetStatus ep desired mask s
  | .send ep buffer length => Sys2Proof.Machine.execSend ep buffer length s
  | .receive ep buffer length => Sys2Proof.Machine.execReceive ep buffer length s
  | .reserved opcode => Sys2Proof.Machine.execReserved opcode s
  -- pseudo-operations (R101)
  | .cancelSend ep => Sys2Proof.Machine.execCancelSend ep s
  | .cancelReceive ep => Sys2Proof.Machine.execCancelReceive ep s
  | .setTxStatus ep code => Sys2Proof.Machine.execSetTxStatus ep code s
  | .setRxStatus ep code => Sys2Proof.Machine.execSetRxStatus ep code s
  -- dispatcher steps and flag handlers (R201 to R212)
  | .dispatchEntry => Sys2Proof.Machine.execDispatchEntry s
  | .dispatchEp => Sys2Proof.Machine.execDispatchEp s
  | .dispatchExit => Sys2Proof.Machine.execDispatchExit s
  | .reset => Sys2Proof.Machine.execReset s
  | .susp => Sys2Proof.Machine.execSusp s
  | .wkup => Sys2Proof.Machine.execWkup s
  | .err => Sys2Proof.Machine.execErr s
  | .sof => Sys2Proof.Machine.execSof s
  | .esof => Sys2Proof.Machine.execEsof s
  | .pmaovr => Sys2Proof.Machine.execPmaovr s
  | .rxComplete n val => Sys2Proof.Machine.execRxComplete n val s
  | .txComplete n val => Sys2Proof.Machine.execTxComplete n val s
  | .ctlEventSetup => Sys2Proof.Machine.execCtlEventSetup s
  | .ctlEventOut => Sys2Proof.Machine.execCtlEventOut s
  | .ctlEventIn => Sys2Proof.Machine.execCtlEventIn s
  -- internal operations (R102)
  | .sendNextPacket n => Sys2Proof.Machine.execSendNextPacket n s
  | .beginPacketReceive n => Sys2Proof.Machine.execBeginPacketReceive n s
  | .endPacketReceive n => Sys2Proof.Machine.execEndPacketReceive n s
  | .busReset => Sys2Proof.Machine.execBusReset s
  | .allocInternal length => Sys2Proof.Machine.execAllocInternal length s
  | .configureInternal n address packetSize type => Sys2Proof.Machine.execConfigureInternal n address packetSize type s
  | .receiveInternal n buffer length => Sys2Proof.Machine.execReceiveInternal n buffer length s
  | .setStatusInternal n desired mask => Sys2Proof.Machine.execSetStatusInternal n desired mask s
  | .clearCtrRx n val => Sys2Proof.Machine.execClearCtrRx n val s
  | .clearCtrTx n val => Sys2Proof.Machine.execClearCtrTx n val s
  | .notify code ep buffer length => Sys2Proof.Machine.execNotify code ep buffer length s

end Sys2Proof.Machine
end

