-- ==== Sys2Proof/Machine/Fetch.lean ====
section
/-! DEFINITION. What the block does next (`30_encoding.md` R94, `46_dispatcher.md` R200, R209, R212): a dispatcher step, the
waiting command frame, or nothing. -/

namespace Sys2Proof.Machine

/-- The block's next step. -/
inductive Fetched
  /-- Run an operation at a state. -/
  | run (i : Instr) (s : State)
  /-- Nothing is enabled. -/
  | nothing
  /-- A frame or a loop iteration before the first BUS_RESET (R273, U5). -/
  | uncreated
  deriving DecidableEq, Repr

/-- The block's next step: in LOOP, DISPATCH_EP while CTR is 1 (R209), else DISPATCH_EXIT (R212); in IDLE, DISPATCH_ENTRY
while IRQ is asserted (R200), else the waiting frame (R94). -/
def fetch (s : State) : Fetched :=
  match s.phase with
  | .loop =>
    if s.ctr then (if s.created then .run .dispatchEp s else .uncreated)
    else .run .dispatchExit s
  | .idle =>
    if s.irq then .run .dispatchEntry s
    else
      match s.frame with
      | none => .nothing
      | some f => if s.created then .run (decodeFrame f) { s with frame := none } else .uncreated

end Sys2Proof.Machine
end

