-- ==== Sys2Proof/Machine/Sie.lean ====
section
/-! DEFINITION. The four steps of the serial-interface engine (`47_sie_environment.md` R220 to R226), an environment agent: a
step whose precondition does not hold is none of its steps, and the model refuses it (U11, U23; log 13). -/

namespace Sys2Proof.Machine

/-- The bytes of packet memory from an offset, in ascending order. -/
def State.pmBytes (s : State) (a len : Nat) : List Byte := (List.range len).map (fun i => s.pmByte (a + i))

/-- Write bytes to packet memory from an offset, in ascending order. -/
def pmWriteBytes (a : Nat) : List Byte → State → Eff State
  | [], s => .ok s
  | b :: bs, s => do
    let t ← pmWrite8 a b s
    pmWriteBytes (a + 1) bs t

/-- EF, DADDR[7]: the device is enabled (R36). -/
def State.deviceEnabled (s : State) : Bool := s.daddr.getLsbD 7

/-- The bytes SIE_TX puts on the wire, by an address and a count word of a descriptor (R25, R221). -/
def txByteCount (txCount : Half) : Nat := (txCount.extractLsb' 0 10).toNat

/-- SIE_TX(n) (R221). DESIGN CHOICE: before the first BUS_RESET it runs on the table as packet memory holds it (log 32). -/
def sieTx (n : Ep) (s : State) : Eff State :=
  if epTypeField (s.eprOf n) = isochronousCode then refuse .isochronousEndpoint
  else if s.deviceEnabled = true ∧ statTx (s.eprOf n) = statValid then do
    let a ← bdtRead n .txAddr s
    let c ← bdtRead n .txCount s
    if a.toNat + txByteCount c ≤ Config.pmaSize then
      pure ({ s with wire := s.wire ++ [WireEntry.mk n (s.pmBytes a.toNat (txByteCount c))] }.setEpr n (sieTxWord (s.eprOf n)))
    else refuse .sieStepNotEnabled
  else refuse .sieStepNotEnabled

/-- The clauses of SIE_RX's precondition that do not read the descriptor (R222). -/
def sieRxAllowed (n : Ep) (data : List Byte) (setup : Bool) (s : State) : Bool :=
  s.deviceEnabled && statRx (s.eprOf n) == statValid && decide (data.length ≤ 1023)
    && (!setup || (epTypeField (s.eprOf n) == controlCode && data.length == 8))

/-- SIE_RX(n, data, setup) (R222). DESIGN CHOICE: before the first BUS_RESET it runs on the table as packet memory holds it
(log 32). -/
def sieRx (n : Ep) (data : List Byte) (setup : Bool) (s : State) : Eff State :=
  if epTypeField (s.eprOf n) = isochronousCode then refuse .isochronousEndpoint
  else if sieRxAllowed n data setup s then do
    let a ← bdtRead n .rxAddr s
    let rc ← bdtRead n .rxCount s
    if data.length ≤ capacity rc ∧ a.toNat + data.length ≤ Config.pmaSize then do
      let t ← pmWriteBytes a.toNat data s
      let now ← bdtRead n .rxCount t
      let u ← bdtWrite n .rxCount (withCount now data.length) t
      pure (u.setEpr n (sieRxWord (u.eprOf n) setup))
    else refuse .sieStepNotEnabled
  else refuse .sieStepNotEnabled

/-- SIE_FLAG(name) (R223). -/
def sieFlag (name : SieFlag) (s : State) : State := { s with istr := s.istr ||| sieFlagBit name }

/-- SIE_RESET: the RESET flag is set and every endpoint register cleared (R224). -/
def sieReset (s : State) : State := { s with istr := s.istr ||| resetFlagBit, epr := Vector.replicate 8 0 }

/-- A step of the SIE. -/
def sieStep (m : SieMove) (s : State) : Eff State :=
  match m with
  | .tx n => sieTx n s
  | .rx n data setup => sieRx n data setup s
  | .flag name => .ok (sieFlag name s)
  | .reset => .ok (sieReset s)

end Sys2Proof.Machine
end

