-- ==== Sys2Proof/Machine/Turn.lean ====
section
/-! DEFINITION. A turn of the interleaving (`20_memory.md` R73): the script says which agent steps; with no turn left the
block steps (log 1). Then where an operation is placed for the block to run it next. -/

namespace Sys2Proof.Machine

/-- The block takes its next step; with nothing enabled it does nothing (R270; log 21). -/
def blockTurn (s : State) : Host.Outcome State Fault Refusal :=
  match fetch s with
  | .run i t => exec i t
  | .nothing => .next s
  | .uncreated => .refused .beforeFirstBusReset

/-- One turn. A held move of the application stays at the head of the script while the block steps (R94). -/
def takeTurn (s : State) : Host.Outcome State Fault Refusal :=
  match s.script with
  | [] => blockTurn s
  | .block :: rest => blockTurn { s with script := rest }
  | .sie m :: rest => settle (sieStep m { s with script := rest })
  | .app m :: rest => if appHeld m s then blockTurn s else settle (appStep m { s with script := rest })

/-! ### Placing an operation (logs 19, 20) -/

/-- The state in which a frame waits and is accepted: dispatcher idle, IRQ not asserted (CNTR masks every source where it
is), the first BUS_RESET taken as run, no environment turn before it. -/
def placeFrame (s : State) (f : Wide) : State :=
  { s with
    script := []
    phase := .idle
    cntr := if s.irq then 0 else s.cntr
    created := true
    cmd0 := frameCmd0 f
    cmd1 := frameCmd1 f
    frame := some f }

/-- The state in which DISPATCH_ENTRY samples the flags of a status word. -/
def placeStatus (s : State) (w : Half) : State :=
  { s with script := [], phase := .idle, istr := w.extractLsb' 8 7, cntr := s.cntr ||| w }

/-- The state in which DISPATCH_EP samples a word from `EPR[0]`. -/
def placeSample (s : State) (w : Half) : State :=
  { s with script := [], phase := .loop, created := true }.setEpr 0 w

/-- An endpoint register with its completion flags cleared. -/
def withoutCompletion (epr : Half) : Half := epr &&& ~~~completionMask

/-- The state in which DISPATCH_EXIT is the next step. -/
def placeExit (s : State) : State := { s with script := [], phase := .loop, epr := s.epr.map withoutCompletion }

/-- Place the operation of an event word (log 19). -/
def placeEvent (s : State) (w : Half) : State :=
  if w.getLsbD 15 || w.getLsbD 7 then placeSample s w
  else if (decodeStatus w).isEmpty then placeExit s
  else placeStatus s w

end Sys2Proof.Machine
end

