-- ==== Sys2Proof/Machine/Step.lean ====
section
/-! DEFINITION. The step of the machine, and where it finds its next instruction. -/

namespace Sys2Proof.Machine

/-- One step of the interleaving (R73). -/
def step (s : State) : Host.Outcome State Fault Refusal := takeTurn s

/-- `s` with a word of the opcode table placed so that the very next step runs it: a command frame waiting to be accepted,
or the flags an event word stands for (logs 19, 20). -/
def State.withFetchWord (s : State) (nbits w : Nat) : State :=
  if nbits ≤ 16 then placeEvent s (BitVec.ofNat 16 w) else placeFrame s (BitVec.ofNat 64 w)

end Sys2Proof.Machine
end

