-- ==== Sys2Proof/Safety.lean ====
section
/-! DEFINITION. The terms the claims are stated in: the invariant of the machine, views of descriptors, when a packet
operation has what it needs, and a list of operations run in order. -/

namespace Sys2Proof.Machine

/-! ### The invariant -/

/-- The parameters obey R6 and R12: SETUP_BUF_ADDR is nonzero and its 8 bytes do not wrap. -/
def Params.Ok (p : Params) : Prop :=
  p.setupBufAddr ≠ 0 ∧ p.setupBufAddr.toNat + Config.setupLen.toNat ≤ Config.maxBufferEnd

/-- A cursor inside its buffer (R23, R151, R167): NONE, or between `buf` and `buf + len`, which does not wrap (R12). -/
def CursorOk (buf cursor : Word) (len : Half) : Prop :=
  cursor ≠ Config.cursorNone →
    buf.toNat ≤ cursor.toNat ∧ cursor.toNat ≤ buf.toNat + len.toNat ∧ buf.toNat + len.toNat ≤ Config.maxBufferEnd

/-- The allocator's cursor is even and inside the allocation region (R21). -/
def AllocCursorOk (cursor : Half) : Prop :=
  cursor.toNat % 2 = 0 ∧ Config.allocBase.toNat ≤ cursor.toNat ∧ cursor.toNat ≤ Config.pmaSize

/-- The invariant of the machine. -/
structure State.Inv (s : State) : Prop where
  /-- The parameters obey their constraints (R6, R12). -/
  params : s.params.Ok
  /-- Packet memory is in canonical form and inside PMA_SIZE (R61). -/
  pm : Memory.wf Config.pmaSize s.pm
  /-- System memory is in canonical form and inside 32 bits (R62). -/
  sm : Memory.wf smSize s.sm
  /-- BTABLE bits 2:0 are 0 (R37). -/
  btable : s.btable &&& 7 = 0
  /-- From the first BUS_RESET on, the allocator's cursor is in its range (R21). -/
  cursor : s.created = true → AllocCursorOk s.pmaCursor
  /-- Every transmit cursor is inside its buffer (R151). -/
  tx : ∀ n, CursorOk (s.etsOf n).txBuf (s.etsOf n).txCursor (s.etsOf n).txLen
  /-- Every receive cursor is inside its buffer (R167). -/
  rx : ∀ n, CursorOk (s.etsOf n).rxBuf (s.etsOf n).rxCursor (s.etsOf n).rxLen
  /-- A frame waits only after the first BUS_RESET (R94). -/
  frame : s.frame.isSome = true → s.created = true

/-! ### Descriptors as data -/

/-- The word `bdt[n].f` (R24). -/
def State.bdt (s : State) (n : Ep) (f : BdtField) : Half := s.pmHalf (bdtOffset s.btable n f)

/-- `s` with the word `bdt[n].f` set (R24). -/
def State.setBdt (s : State) (n : Ep) (f : BdtField) (v : Half) : State :=
  (s.setPmByte (bdtOffset s.btable n f) (v.extractLsb' 0 8)).setPmByte (bdtOffset s.btable n f + 1) (v.extractLsb' 8 8)

/-- Descriptor `n` lies in packet memory at an even offset, as it does for every BTABLE the block writes (R37, R78). -/
def State.DescriptorOk (s : State) (n : Ep) : Prop :=
  s.btable.toNat % 2 = 0 ∧ s.btable.toNat + 8 * n.val + 8 ≤ Config.pmaSize

/-- The byte `x` is one of the two of the word `bdt[n].f`. -/
def State.InBdtField (s : State) (n : Ep) (f : BdtField) (x : Nat) : Prop :=
  x = bdtOffset s.btable n f ∨ x = bdtOffset s.btable n f + 1

/-! ### When a packet operation has what it needs -/

/-- Whether ALLOC of a length fits (R120). -/
def State.Fits (s : State) (length : Half) : Prop :=
  s.pmaCursor.toNat + 2 * allocWords length ≤ Config.pmaSize

/-- The direction does nothing: no transfer, or the endpoint is not configured (R147, R162). -/
def Ets.TxNothing (e : Ets) : Prop := e.txCursor = Config.cursorNone ∨ e.packetSize = 0

/-- The receive direction does nothing (R162). -/
def Ets.RxNothing (e : Ets) : Prop := e.rxCursor = Config.cursorNone ∨ e.packetSize = 0

/-- `s` after the first-use allocation of the transmit buffer, where it is due (R147). -/
def State.withTxBuffer (s : State) (n : Ep) : State :=
  if s.bdt n .txAddr = 0 then (allocate (s.etsOf n).packetSize s).2.setBdt n .txAddr s.pmaCursor else s

/-- `s` after the first-use allocation of the receive buffer, where it is due (R162). -/
def State.withRxBuffer (s : State) (n : Ep) : State :=
  if s.bdt n .rxAddr = 0 then (allocate (s.etsOf n).packetSize s).2.setBdt n .rxAddr s.pmaCursor else s

/-- The copy of `len` bytes at packet-memory offset `a` is possible: inside packet memory, and at an even offset where a
whole word is accessed (R65, R70, R71, R78). -/
def CopyOk (a len : Nat) : Prop := (a % 2 = 0 ∨ len ≤ 1) ∧ a + len ≤ Config.pmaSize

/-- The transmit direction has a transfer, a packet size in range, a descriptor, and a buffer that holds the packet. -/
def State.TxReady (s : State) (n : Ep) : Prop :=
  s.DescriptorOk n ∧ ¬ (s.etsOf n).TxNothing ∧ (s.etsOf n).packetSize.toNat ≤ Config.maxPacketSize
    ∧ (s.bdt n .txAddr = 0 → s.Fits (s.etsOf n).packetSize)
    ∧ CopyOk ((s.withTxBuffer n).bdt n .txAddr).toNat (s.etsOf n).txPacketLength.toNat

/-- The receive direction can be armed: a transfer, a packet size in range, a descriptor, and a buffer or room for one. -/
def State.RxReady (s : State) (n : Ep) : Prop :=
  s.DescriptorOk n ∧ ¬ (s.etsOf n).RxNothing ∧ (s.etsOf n).packetSize.toNat ≤ Config.maxPacketSize
    ∧ (s.bdt n .rxAddr = 0 → s.Fits (s.etsOf n).packetSize)

/-- The number of bytes END_PACKET_RECEIVE copies (R163). -/
def State.rxCopyLen (s : State) (n : Ep) : Nat :=
  ((s.etsOf n).rxCopyLength (receivedCount (s.bdt n .rxCount))).toNat

/-- The receive direction can be ended: an idle one always; an active one with a descriptor and a copy that is
possible. -/
def State.RxEndReady (s : State) (n : Ep) : Prop :=
  (s.etsOf n).rxCursor = Config.cursorNone ∨
    (s.DescriptorOk n ∧ CopyOk (s.bdt n .rxAddr).toNat (s.rxCopyLen n))

/-- The transmit direction can be continued: an idle or unconfigured one with a packet size in range (R12); an active one
that is ready. -/
def State.TxContinueReady (s : State) (n : Ep) : Prop :=
  ((s.etsOf n).TxNothing ∧ (s.etsOf n).packetSize.toNat ≤ Config.maxPacketSize) ∨ s.TxReady n

/-- Endpoint 0 can be armed onto the Setup Packet record (R181): the parameters obey R12, and its packet size and
descriptor are in range where it has a packet size. -/
def State.SetupReady (s : State) : Prop :=
  s.params.Ok ∧ s.DescriptorOk 0 ∧ (s.etsOf 0).packetSize.toNat ≤ Config.maxPacketSize

/-! ### What a packet operation leaves -/

/-- `t` is `s` with the next packet of endpoint `n`'s transfer queued (R147, R148), `s1` being `s` with the buffer
allocated where that is due: the packet's bytes at the buffer, its length in tx_count, the cursor advanced, or NONE after a
packet shorter than the packet size, STAT_TX VALID, and nothing else changed. -/
def State.QueuedPacket (s : State) (n : Ep) (t : State) : Prop :=
  let s1 := s.withTxBuffer n
  let e := s.etsOf n
  let len := e.txPacketLength
  let a := (s1.bdt n .txAddr).toNat
  t = { s1 with
        pm := t.pm
        ets := (s.setEts n
          { e with txCursor := if len = e.packetSize then e.txCursor + len.setWidth 32 else Config.cursorNone }).ets
        epr := (s.setEpr n (s.eprOf n ||| 0x0030)).epr }
  ∧ t.bdt n .txCount = len
  ∧ ∀ x, ¬ s.InBdtField n .txCount x →
      t.pmByte x = if a ≤ x ∧ x < a + len.toNat then s.smByte (e.txCursor + BitVec.ofNat 32 (x - a)) else s1.pmByte x

/-- `s` with endpoint `n`'s receive direction armed (R162): the buffer allocated where that is due, rx_count the
block-size encoding of the packet size, STAT_RX VALID. -/
def State.armedReceive (s : State) (n : Ep) : State :=
  ((s.withRxBuffer n).setBdt n .rxCount (blockEnc (s.etsOf n).packetSize)).setEpr n (s.eprOf n ||| 0x3000)

/-- `t` is `s` with the received packet of endpoint `n` copied to the caller's buffer, clamped to its room (R163, R165),
and nothing else changed. -/
def State.Delivered (s : State) (n : Ep) (t : State) : Prop :=
  let e := s.etsOf n
  let a := (s.bdt n .rxAddr).toNat
  t = { s with sm := t.sm }
  ∧ ∀ y : Word, t.smByte y =
      if (y - e.rxCursor).toNat < s.rxCopyLen n then s.pmByte (a + (y - e.rxCursor).toNat) else s.smByte y

/-! ### Operations in order -/

/-- Run operations one after another. -/
def execAll : List Instr → State → Host.Outcome State Fault Refusal
  | [], s => .next s
  | i :: is, s =>
    match exec i s with
    | .next t => execAll is t
    | .fault r => .fault r
    | .refused r => .refused r

/-- The packet-memory ranges `(address, end)` a sequence of ALLOC commands hands out, in order (R122). -/
def allocatedRanges : List Half → State → List (Nat × Nat)
  | [], _ => []
  | length :: lengths, s =>
    match exec (.alloc length) s with
    | .next t =>
      if s.pmaCursor.toNat + 2 * allocWords length ≤ Config.pmaSize then
        (t.result.toNat, t.result.toNat + 2 * allocWords length) :: allocatedRanges lengths t
      else allocatedRanges lengths t
    | _ => []

/-- The lengths of the packets TX_COMPLETE queues for endpoint `n`, one after another, until the transfer has no more
(R149). -/
def queuedLengths (n : Ep) : Nat → State → List Half
  | 0, _ => []
  | k + 1, s =>
    if (s.etsOf n).txCursor = Config.cursorNone then []
    else
      match exec (.txComplete n (s.eprOf n ||| 0x0080)) s with
      | .next t => t.bdt n .txCount :: queuedLengths n k t
      | _ => []

end Sys2Proof.Machine
end

