-- ==== Sys2Proof/Certificates/Slice0/Obligations.lean ====
section
/-! DEFINITION. The statements for the provers. Each docstring names the rule of spec/ a statement formalises. -/

open Sys2Proof Sys2Proof.Machine

/-! ### Encoding and decoding (`30_encoding.md`) -/

/-- Frames of the test vectors of `95_test_vectors.md`, section 2.1, decode to the commands they stand for. -/
def Obligations.WrittenFramesDecode : Prop :=
  decodeFrame 0x0000000001000040 = .alloc 64
    ∧ decodeFrame 0xDEADBEEF01AB0040 = .alloc 64
    ∧ decodeFrame 0x0000011302030010 = .configure 3 0x13 16 1
    ∧ decodeFrame 0x0000300003021000 = .setStatus 2 0x1000 0x3000
    ∧ decodeFrame 0x2000010004010082 = .send 1 0x20000100 130
    ∧ decodeFrame 0x2000020005020014 = .receive 2 0x20000200 20
    ∧ decodeFrame 0x0000000004030000 = .send 3 0 0
    ∧ decodeFrame 0x0000000006000000 = .reserved 0x06

/-- R91 to R93, R95: the opcode CMD0[31:24] alone selects the command, and each operand is a field of the frame taken as an
unsigned integer. -/
def Obligations.OperandsAreFrameFields : Prop :=
  ∀ f : Wide,
    let opc := f.toNat / 2 ^ 24 % 256
    let ep := BitVec.ofNat 8 (f.toNat / 2 ^ 16)
    let a16 := BitVec.ofNat 16 f.toNat
    let b32 := BitVec.ofNat 32 (f.toNat / 2 ^ 32)
    decodeFrame f =
      if opc = 1 then .alloc a16
      else if opc = 2 then .configure ep (BitVec.ofNat 8 b32.toNat) a16 (BitVec.ofNat 8 (b32.toNat / 256))
      else if opc = 3 then .setStatus ep a16 (BitVec.ofNat 16 b32.toNat)
      else if opc = 4 then .send ep b32 a16
      else if opc = 5 then .receive ep b32 a16
      else .reserved (BitVec.ofNat 8 opc)

/-- R100, R101: every well-formed command and pseudo-operation has a frame, and the frame decodes to the command itself, or
to the command the pseudo-operation stands for, with every operand. -/
def Obligations.EncodedFramesDecode : Prop :=
  ∀ i : Instr, i.wellFormed = true → ∀ opc : BitVec 8, i.opcode = some opc →
    ∃ f : Wide, encode i = some f ∧ decodeFrame f = i.expand

/-- R96, R97: the handlers of a status sample, in the fixed order, and the branches of an endpoint sample. -/
def Obligations.EventDecode : Prop :=
  (∀ s : Half, decodeStatus s =
    (([(10, .reset), (11, .susp), (12, .wkup), (13, .err), (9, .sof), (8, .esof), (14, .pmaovr)] :
      List (Nat × Instr)).filter (fun p => s.getLsbD p.1)).map Prod.snd)
  ∧ ∀ (n : Ep) (val : Half), decodeSample n val =
    (([(15, .rxComplete n val), (7, .txComplete n val)] : List (Nat × Instr)).filter (fun p => val.getLsbD p.1)).map
      Prod.snd

/-! ### The step (`20_memory.md` R73, `30_encoding.md` R94, `46_dispatcher.md` R200) -/

/-- R94, R200, R209, R212, R270, R273: at a turn of the block (its own turn, no turn to come, or a write of CMD0 held while
a frame waits; logs 1, 7), `u` being the state with that turn taken, the step runs the operation that is selected, at the
very state: the dispatcher's while IRQ is asserted or the dispatcher runs, otherwise the operation the waiting frame decodes
to, and the frame waits no longer; with nothing enabled nothing changes (log 21); a frame or a loop iteration before the
first BUS_RESET is refused (log 8). -/
def Obligations.StepRunsSelectedOperation : Prop :=
  ∀ s u : State,
    (s.script = [] ∧ u = s)
      ∨ (∃ rest, s.script = .block :: rest ∧ u = { s with script := rest })
      ∨ (∃ width v rest, s.script = .app (.regWrite width (s.params.regBase + 0x64) v) :: rest ∧ s.frame.isSome = true
          ∧ u = s) →
    (u.phase = .idle → u.irq = true → step s = exec .dispatchEntry u)
    ∧ (u.phase = .loop → u.ctr = true → u.created = true → step s = exec .dispatchEp u)
    ∧ (u.phase = .loop → u.ctr = true → u.created = false → step s = .refused .beforeFirstBusReset)
    ∧ (u.phase = .loop → u.ctr = false → step s = exec .dispatchExit u)
    ∧ (∀ f, u.frame = some f → u.created = true → u.phase = .idle → u.irq = false →
        step s = exec (decodeFrame f) { u with frame := none })
    ∧ (∀ f, u.frame = some f → u.created = false → u.phase = .idle → u.irq = false →
        step s = .refused .beforeFirstBusReset)
    ∧ (u.frame = none → u.phase = .idle → u.irq = false → step s = .next u)

/-- A word placed by `withFetchWord` is what the very next step runs: a command frame as the operation it decodes to; an
event word with a completion flag as the sample of EPR[0], one with a status flag as the handlers of ISTR, any other as
DISPATCH_EXIT (the model's reading, logs 19 and 20). -/
def Obligations.PlacedWordRuns : Prop :=
  (∀ (s : State) (nbits w : Nat) (i : Instr), 16 < nbits → decodeTableWord nbits w = some i →
    step (s.withFetchWord nbits w) = exec i { s.withFetchWord nbits w with frame := none })
  ∧ ∀ (s : State) (nbits : Nat) (w : Half), nbits ≤ 16 →
    let t := s.withFetchWord nbits w.toNat
    ((w.getLsbD 15 || w.getLsbD 7) = true → step t = exec .dispatchEp t ∧ t.epId = 0 ∧ t.eprOf 0 = w)
    ∧ ((w.getLsbD 15 || w.getLsbD 7) = false → w &&& 0x7F00 ≠ 0 →
        step t = exec .dispatchEntry t ∧ decodeStatus t.istrRead = decodeStatus w)
    ∧ (w &&& 0xFF80 = 0 → step t = exec .dispatchExit t)

/-- R91, R94, R273: the write of CMD0 presents the frame `{CMD1, CMD0}` with the value CMD1 holds; a 16-bit write fixes the low
half of CMD0 and leaves its upper half free (log 15); while a frame waits, the write is held and the block steps (log 7);
before the first BUS_RESET the model refuses it (log 8). -/
def Obligations.FramePresentedHeldRefused : Prop :=
  ∀ (s : State) (width : RegWidth) (v : Word) (rest : List Turn),
    s.script = .app (.regWrite width (s.params.regBase + 0x64) v) :: rest →
    (s.created = true → s.frame = none →
      ∃ w : Word, (width = .w32 → w = v) ∧ w.extractLsb' 0 16 = v.extractLsb' 0 16
        ∧ step s = .next { s with
            script := rest, cmd0 := w, frame := some (s.cmd1 ++ w),
            freeIndex := s.freeIndex + (if width = .w16 then 1 else 0) })
    ∧ (∀ f, s.created = true → s.frame = some f → s.phase = .idle → s.irq = false →
        step s = exec (decodeFrame f) { s with frame := none })
    ∧ (s.created = false → s.frame = none → step s = .refused .beforeFirstBusReset)

/-! ### Registers (`10_state.md`) -/

/-- R29: `EPRWrite`, field by field, and nothing else changes. -/
def Obligations.EprWriteFields : Prop :=
  ∀ (n : Ep) (w : Half) (s : State),
    let cur := s.eprOf n
    let new := (eprWrite n w s).eprOf n
    eprWrite n w s = s.setEpr n new
      ∧ new.extractLsb' 15 1 = cur.extractLsb' 15 1 &&& w.extractLsb' 15 1
      ∧ new.extractLsb' 14 1 = cur.extractLsb' 14 1 ^^^ w.extractLsb' 14 1
      ∧ new.extractLsb' 12 2 = cur.extractLsb' 12 2 ^^^ w.extractLsb' 12 2
      ∧ new.extractLsb' 11 1 = cur.extractLsb' 11 1
      ∧ new.extractLsb' 9 2 = w.extractLsb' 9 2
      ∧ new.extractLsb' 8 1 = w.extractLsb' 8 1
      ∧ new.extractLsb' 7 1 = cur.extractLsb' 7 1 &&& w.extractLsb' 7 1
      ∧ new.extractLsb' 6 1 = cur.extractLsb' 6 1 ^^^ w.extractLsb' 6 1
      ∧ new.extractLsb' 4 2 = cur.extractLsb' 4 2 ^^^ w.extractLsb' 4 2
      ∧ new.extractLsb' 0 4 = w.extractLsb' 0 4

/-- R31, R32, R35: CTR is 1 when any endpoint register has a completion flag; EP_ID is the lowest such endpoint, 0 when
there is none; bits 14:8 are the stored flags and bits 7:4 are 0; IRQ is asserted exactly when some condition of ISTR[15:8]
is set and enabled in CNTR. -/
def Obligations.StatusReadAndInterruptLine : Prop :=
  ∀ s : State,
    (s.istrRead.getLsbD 15 = true ↔ ∃ n : Ep, (s.eprOf n).getLsbD 15 = true ∨ (s.eprOf n).getLsbD 7 = true)
    ∧ (∀ n : Ep, ((s.eprOf n).getLsbD 15 = true ∨ (s.eprOf n).getLsbD 7 = true) →
        (∀ k : Ep, k < n → (s.eprOf k).getLsbD 15 = false ∧ (s.eprOf k).getLsbD 7 = false) →
          (s.istrRead.extractLsb' 0 4).toNat = n.val)
    ∧ ((∀ n : Ep, (s.eprOf n).getLsbD 15 = false ∧ (s.eprOf n).getLsbD 7 = false) → s.istrRead.extractLsb' 0 4 = 0)
    ∧ s.istrRead.extractLsb' 8 7 = s.istr
    ∧ s.istrRead.extractLsb' 4 4 = 0
    ∧ (s.irq = true ↔ ∃ i, 8 ≤ i ∧ i ≤ 15 ∧ s.istrRead.getLsbD i = true ∧ s.cntr.getLsbD i = true)

/-- R33: `ISTRWrite` clears the stored flags whose bit of `w` is 0 and changes nothing else. -/
def Obligations.IstrWriteClears : Prop :=
  ∀ (w : Half) (s : State),
    istrWrite w s = { s with istr := (istrWrite w s).istr }
    ∧ ∀ i, 8 ≤ i → i ≤ 14 → (istrWrite w s).istrRead.getLsbD i = (s.istrRead.getLsbD i && w.getLsbD i)

/-- R47, R63, R227: what each offset of the register map reads as, 16 or 32 bits wide; bits above a register's width read as
0, also by a 16-bit read inside its slot; a read at any offset completes and changes nothing of the block, CURSOR before the
first BUS_RESET (log 5) and every other read inside a slot (log 16) included, whose open bits are free; the notification
trace is read whole. The record of the value read is the model's (log 17). -/
def Obligations.RegisterReads : Prop :=
  (∀ (s : State) (rest : List Turn) (width : RegWidth) (off v : Word),
    ((∃ n : Ep, off = BitVec.ofNat 32 (4 * n.val) ∧ v = (s.eprOf n).setWidth 32)
      ∨ (off = 0x40 ∧ v = s.cntr.setWidth 32)
      ∨ (off = 0x44 ∧ v = s.istrRead.setWidth 32)
      ∨ (off = 0x4C ∧ v = s.daddr.setWidth 32)
      ∨ (off = 0x50 ∧ v = s.btable.setWidth 32)
      ∨ (off = 0x58 ∧ v = s.cra.setWidth 32)
      ∨ (off = 0x60 ∧ v = 0)
      ∨ (off = 0x64 ∧ v = 0)
      ∨ (off = 0x68 ∧ v = s.result.setWidth 32)
      ∨ (off = 0x6C ∧ v = s.faults.setWidth 32)
      ∨ (off = 0x70 ∧ s.created = true ∧ v = s.pmaCursor.setWidth 32)
      ∨ (v = 0 ∧ ((0x20 ≤ off.toNat ∧ off.toNat ≤ 0x3F) ∨ off = 0x48 ∨ off = 0x54 ∨ off = 0x5C ∨ 0x74 ≤ off.toNat))
      ∨ (width = .w16 ∧ v = 0 ∧ (off.toNat % 4 = 2 ∨ off = 0x4D ∨ off = 0x59 ∨ off = 0x6D))) →
    s.script = .app (.regRead width (s.params.regBase + off)) :: rest →
      step s = .next { s with script := rest, appSaw := .word v })
  ∧ (∀ (s : State) (rest : List Turn) (width : RegWidth) (off : Word),
      s.script = .app (.regRead width (s.params.regBase + off)) :: rest →
      ∃ v k, step s = .next { s with script := rest, appSaw := .word v, freeIndex := k })
  ∧ ∀ (s : State) (rest : List Turn), s.script = .app .traceRead :: rest →
      step s = .next { s with script := rest, appSaw := .trace s.notes }

/-- R47, R63: what a write of each offset of the register map does, 16 or 32 bits wide; a 16-bit write of CMD1 fixes its low
half and leaves the upper half free (log 15); a write inside a slot does nothing (the model's choice inside the slot of a
register, log 16); the write of CMD0 has a statement of its own. -/
def Obligations.RegisterWrites : Prop :=
  (∀ (s : State) (rest : List Turn) (width : RegWidth) (off v : Word) (t : State),
    ((∃ n : Ep, off = BitVec.ofNat 32 (4 * n.val) ∧ t = eprWrite n (v.extractLsb' 0 16) s)
      ∨ (off = 0x40 ∧ t = { s with cntr := v.extractLsb' 0 16 })
      ∨ (off = 0x44 ∧ t = istrWrite (v.extractLsb' 0 16) s)
      ∨ (off = 0x4C ∧ t = { s with daddr := v.extractLsb' 0 8 })
      ∨ (off = 0x50 ∧ t = { s with btable := v.extractLsb' 3 13 ++ (0 : BitVec 3) })
      ∨ (off = 0x58 ∧ t = { s with cra := v.extractLsb' 0 1 })
      ∨ (off = 0x60 ∧ width = .w32 ∧ t = { s with cmd1 := v })
      ∨ ((off = 0x68 ∨ off = 0x6C ∨ off = 0x70) ∧ t = s)
      ∨ (t = s ∧ ((0x20 ≤ off.toNat ∧ off.toNat ≤ 0x3F) ∨ off = 0x48 ∨ off = 0x54 ∨ off = 0x5C ∨ 0x74 ≤ off.toNat))
      ∨ (off.toNat % 4 ≠ 0 ∧ t = s)) →
    s.script = .app (.regWrite width (s.params.regBase + off) v) :: rest →
      step s = .next { t with script := rest })
  ∧ ∀ (s : State) (rest : List Turn) (v : Word),
    s.script = .app (.regWrite .w16 (s.params.regBase + 0x60) v) :: rest →
      ∃ w : Word, w.extractLsb' 0 16 = v.extractLsb' 0 16
        ∧ step s = .next { s with script := rest, cmd1 := w, freeIndex := s.freeIndex + 1 }

/-- R46, R270: the state after power-on, where the spec gives a value: registers 0, dispatcher idle, traces empty, IRQ not
asserted. -/
def Obligations.PowerOnState : Prop :=
  (∀ n : Ep, State.reset.eprOf n = 0)
    ∧ State.reset.istrRead = 0 ∧ State.reset.cntr = 0 ∧ State.reset.daddr = 0 ∧ State.reset.btable = 0
    ∧ State.reset.cra = 0 ∧ State.reset.faults = 0 ∧ State.reset.result = 0 ∧ State.reset.cmd0 = 0
    ∧ State.reset.cmd1 = 0 ∧ State.reset.phase = .idle ∧ State.reset.notes = [] ∧ State.reset.wire = []
    ∧ State.reset.irq = false

/-! ### Memory accesses of the application (`20_memory.md`) -/

/-- R61, R62, R65, R66, R69: an application access to packet memory at PMA_BASE + a is a byte anywhere or a little-endian
word at an even offset, and leaves every other byte; a 16-bit access at an odd offset and a 32-bit access, reads and writes,
are refused; an address outside packet memory faults (log 28); an access to system memory never faults and a write changes
the byte at its address alone. -/
def Obligations.ApplicationMemoryAccess : Prop :=
  (∀ (s : State) (rest : List Turn) (a : Nat) (v : Half), a < 1024 →
    let addr := s.params.pmaBase + BitVec.ofNat 32 a
    (s.script = .app (.pmRead .w8 addr) :: rest →
        step s = .next { s with script := rest, appSaw := .word ((s.pmByte a).setWidth 32) })
    ∧ (a % 2 = 0 → s.script = .app (.pmRead .w16 addr) :: rest →
        step s = .next { s with script := rest, appSaw := .word ((s.pmByte (a + 1) ++ s.pmByte a).setWidth 32) })
    ∧ (s.script = .app (.pmWrite .w8 addr v) :: rest → ∃ t, step s = .next t ∧ t = { s with script := rest, pm := t.pm }
        ∧ ∀ x, t.pmByte x = if x = a then v.extractLsb' 0 8 else s.pmByte x)
    ∧ (a % 2 = 0 → s.script = .app (.pmWrite .w16 addr v) :: rest →
        ∃ t, step s = .next t ∧ t = { s with script := rest, pm := t.pm }
          ∧ ∀ x, t.pmByte x =
              if x = a then v.extractLsb' 0 8 else if x = a + 1 then v.extractLsb' 8 8 else s.pmByte x)
    ∧ (a % 2 = 1 → s.script = .app (.pmRead .w16 addr) :: rest → step s = .refused .oddPacketMemoryAccess)
    ∧ (a % 2 = 1 → s.script = .app (.pmWrite .w16 addr v) :: rest → step s = .refused .oddPacketMemoryAccess)
    ∧ (s.script = .app (.pmRead .w32 addr) :: rest → step s = .refused .packetMemoryWidth32)
    ∧ (s.script = .app (.pmWrite .w32 addr v) :: rest → step s = .refused .packetMemoryWidth32))
  ∧ (∀ (s : State) (rest : List Turn) (width : PmWidth) (a : Nat) (v : Half), 1024 ≤ a → a < 2 ^ 32 →
    let addr := s.params.pmaBase + BitVec.ofNat 32 a
    (s.script = .app (.pmRead width addr) :: rest → step s = .fault .outsidePacketMemory)
    ∧ (s.script = .app (.pmWrite width addr v) :: rest → step s = .fault .outsidePacketMemory))
  ∧ ∀ (s : State) (rest : List Turn) (a : Word) (v : Byte),
    (s.script = .app (.smRead a) :: rest →
        step s = .next { s with script := rest, appSaw := .word ((s.smByte a).setWidth 32) })
    ∧ (s.script = .app (.smWrite a v) :: rest → ∃ t, step s = .next t ∧ t = { s with script := rest, sm := t.sm }
        ∧ ∀ y, t.smByte y = if y = a then v else s.smByte y)

/-! ### The allocator (`40_allocator.md`) -/

/-- R120, R121: ALLOC, as a command, and invoked internally, where RESULT is not written. -/
def Obligations.AllocEffect : Prop :=
  ∀ (length : Half) (s : State),
    let next := s.pmaCursor.toNat + 2 * ((length.toNat + 1) / 2)
    (next ≤ 1024 →
      exec (.alloc length) s = .next { s with pmaCursor := BitVec.ofNat 16 next, result := s.pmaCursor }
      ∧ exec (.allocInternal length) s = .next { s with pmaCursor := BitVec.ofNat 16 next })
    ∧ (1024 < next →
      exec (.alloc length) s = .next { s with faults := s.faults ||| 0b0001, result := 0 }
      ∧ exec (.allocInternal length) s = .next { s with faults := s.faults ||| 0b0001 })

/-- R122: the ranges a sequence of ALLOC commands hands out start at the cursor, follow one another without a gap, are
pairwise disjoint and ascending, strictly for nonzero lengths, even, and inside the allocation region. -/
def Obligations.AllocationsAreDisjoint : Prop :=
  ∀ (lengths : List Half) (s : State), AllocCursorOk s.pmaCursor →
    let ranges := allocatedRanges lengths s
    (∀ r, ranges.head? = some r → r.1 = s.pmaCursor.toNat)
    ∧ (∀ i, ∀ h : i + 1 < ranges.length, ranges[i + 1].1 = ranges[i].2)
    ∧ ranges.Pairwise (fun r q => r.2 ≤ q.1 ∧ (r.1 < r.2 → r.1 < q.1))
    ∧ ∀ r ∈ ranges, r.1 % 2 = 0 ∧ 64 ≤ r.1 ∧ r.1 ≤ r.2 ∧ r.2 ≤ 1024

/-! ### CONFIGURE, SET_STATUS, the completion flags (`41_endpoint_config_status.md`) -/

/-- R130, R131: CONFIGURE of an endpoint in range with a recognised type, as a command and invoked internally: the packet
size, the type and the low four address bits take the new values, everything else is kept. -/
def Obligations.ConfigureEffect : Prop :=
  ∀ (n : Ep) (ep address code : BitVec 8) (size : Half) (type : TransferType) (epType : BitVec 2) (s : State),
    ep.toNat = n.val →
    (code, type, epType) ∈
      ([(0, .bulk, 0b00), (1, .control, 0b01), (2, .interrupt, 0b11)] : List (BitVec 8 × TransferType × BitVec 2)) →
    let cur := s.eprOf n
    let new := (cur &&& 0xF9F0) ||| (epType.setWidth 16 <<< 9) ||| (address.setWidth 16 &&& 0x000F)
    let t := (s.setEts n { s.etsOf n with packetSize := size }).setEpr n new
    exec (.configure ep address size code) s = .next t ∧ exec (.configureInternal n address size type) s = .next t

/-- R137, R243: an endpoint above 7 in any command that takes one, or a CONFIGURE type above 2, sets FAULT.BAD_ARG and
changes nothing else. That the endpoint is tested before a buffer that wraps is the model's reading (log 11), and so is that
a pseudo-operation does what its expansion does (log 18). -/
def Obligations.BadArgumentRejected : Prop :=
  ∀ (ep : BitVec 8) (s : State),
    let t := { s with faults := s.faults ||| 0b0010 }
    (7 < ep.toNat →
      (∀ address size code, exec (.configure ep address size code) s = .next t)
      ∧ (∀ desired mask, exec (.setStatus ep desired mask) s = .next t)
      ∧ (∀ buffer length, exec (.send ep buffer length) s = .next t)
      ∧ (∀ buffer length, exec (.receive ep buffer length) s = .next t)
      ∧ exec (.cancelSend ep) s = .next t
      ∧ exec (.cancelReceive ep) s = .next t
      ∧ (∀ code, exec (.setTxStatus ep code) s = .next t)
      ∧ (∀ code, exec (.setRxStatus ep code) s = .next t))
    ∧ ∀ (address code : BitVec 8) (size : Half), 2 < code.toNat → exec (.configure ep address size code) s = .next t

/-- R244: a frame with a reserved opcode sets FAULT.BAD_CMD and changes nothing else. -/
def Obligations.ReservedOpcodeRejected : Prop :=
  ∀ (f : Wide) (s : State), (f.extractLsb' 24 8 = 0 ∨ 6 ≤ (f.extractLsb' 24 8).toNat) →
    decodeFrame f = .reserved (f.extractLsb' 24 8)
    ∧ exec (.reserved (f.extractLsb' 24 8)) s = .next { s with faults := s.faults ||| 0b0100 }

/-- R134: with a mask inside the toggle bits, SET_STATUS, as a command and invoked internally, makes the masked bits
exactly the desired ones and keeps every other bit, whatever the register held. -/
def Obligations.SetStatusProperty : Prop :=
  ∀ (n : Ep) (ep : BitVec 8) (desired mask : Half) (s : State), ep.toNat = n.val → mask &&& 0x8F8F = 0 →
    let t := s.setEpr n ((s.eprOf n &&& ~~~mask) ||| (desired &&& mask))
    exec (.setStatus ep desired mask) s = .next t ∧ exec (.setStatusInternal n desired mask) s = .next t

/-- R133, R134: the register SET_STATUS leaves for any mask, bit by bit: outside the mask kept; inside it, a toggle bit
becomes the desired one, a plain field `cur XOR desired`, a completion flag `cur AND NOT desired`, and SETUP does not
move. -/
def Obligations.SetStatusAnyMask : Prop :=
  ∀ (n : Ep) (ep : BitVec 8) (desired mask : Half) (s : State), ep.toNat = n.val →
    ∃ new : Half,
      exec (.setStatus ep desired mask) s = .next (s.setEpr n new)
      ∧ exec (.setStatusInternal n desired mask) s = .next (s.setEpr n new)
      ∧ ∀ i, i < 16 → new.getLsbD i =
          let c := (s.eprOf n).getLsbD i
          let d := desired.getLsbD i
          if mask.getLsbD i = false then c
          else if i = 15 ∨ i = 7 then c && !d
          else if i = 11 then c
          else if i = 10 ∨ i = 9 ∨ i = 8 ∨ i < 4 then xor c d
          else d

/-- R101: every pseudo-operation does what its expansion does; the status ones write the code into their field and keep
every other bit. -/
def Obligations.PseudoOperationsExpand : Prop :=
  ∀ (ep : BitVec 8) (code : BitVec 2) (s : State),
    exec (.cancelSend ep) s = exec (.send ep 0 0) s
    ∧ exec (.cancelReceive ep) s = exec (.receive ep 0 0) s
    ∧ exec (.setTxStatus ep code) s = exec (.setStatus ep (BitVec.ofNat 16 (16 * code.toNat)) 0x0030) s
    ∧ exec (.setRxStatus ep code) s = exec (.setStatus ep (BitVec.ofNat 16 (4096 * code.toNat)) 0x3000) s
    ∧ ∀ n : Ep, ep.toNat = n.val →
        exec (.setTxStatus ep code) s = .next (s.setEpr n ((s.eprOf n &&& 0xFFCF) ||| (code.setWidth 16 <<< 4)))
        ∧ exec (.setRxStatus ep code) s = .next (s.setEpr n ((s.eprOf n &&& 0xCFFF) ||| (code.setWidth 16 <<< 12)))

/-- R136: ClearCtrRx clears CTR_RX and ClearCtrTx clears CTR_TX; every toggle bit and SETUP keep their values, the plain
fields are written back as sampled, and the other flag stays where it was sampled 1. -/
def Obligations.ClearCompletionFlag : Prop :=
  ∀ (n : Ep) (val : Half) (s : State),
    let cur := s.eprOf n
    exec (.clearCtrRx n val) s =
        .next (s.setEpr n ((cur &&& 0x7870) ||| (val &&& 0x070F) ||| (cur &&& val &&& 0x0080)))
    ∧ exec (.clearCtrTx n val) s =
        .next (s.setEpr n ((cur &&& 0x7870) ||| (val &&& 0x070F) ||| (cur &&& val &&& 0x8000)))

/-! ### Transmit (`42_transmit.md`) -/

/-- R147, R148: SEND_NEXT_PACKET on an active, configured direction queues the next packet. -/
def Obligations.SendNextPacketQueues : Prop :=
  ∀ (n : Ep) (s : State), s.TxReady n → ∃ t, exec (.sendNextPacket n) s = .next t ∧ s.QueuedPacket n t

/-- R145: SEND of a buffer records the transfer, then queues its first packet; on an unconfigured endpoint it records the
transfer only; a buffer that wraps is refused (R12). -/
def Obligations.SendRecordsAndQueues : Prop :=
  ∀ (n : Ep) (ep : BitVec 8) (buffer : Word) (length : Half) (s : State), ep.toNat = n.val → buffer ≠ 0 →
    let s0 := s.setEts n { s.etsOf n with txBuf := buffer, txLen := length, txCursor := buffer }
    (buffer.toNat + length.toNat ≤ 2 ^ 32 - 1 →
      exec (.send ep buffer length) s = exec (.sendNextPacket n) s0
      ∧ (s0.TxReady n → ∃ t, exec (.send ep buffer length) s = .next t ∧ s0.QueuedPacket n t)
      ∧ ((s.etsOf n).packetSize = 0 → exec (.send ep buffer length) s = .next s0))
    ∧ (2 ^ 32 - 1 < buffer.toNat + length.toNat → exec (.send ep buffer length) s = .refused .bufferWraps)

/-- R11, R151: inside its buffer, the length of the next packet is the smaller of the packet size and the bytes not yet
queued, exactly, and the cursor moved on by it is still inside the buffer. -/
def Obligations.PacketLengthExact : Prop :=
  ∀ e : Ets, e.txCursor ≠ 0 → CursorOk e.txBuf e.txCursor e.txLen →
    let queued := e.txCursor.toNat - e.txBuf.toNat
    e.txPacketLength.toNat = min e.packetSize.toNat (e.txLen.toNat - queued)
    ∧ (e.txCursor + e.txPacketLength.setWidth 32).toNat = e.txCursor.toNat + e.txPacketLength.toNat
    ∧ queued + e.txPacketLength.toNat ≤ e.txLen.toNat

/-- R149: a SEND of N bytes with packet size P, undisturbed, queues N / P packets of P bytes and then one of N mod P, the
first by SEND and each later one by TX_COMPLETE. The packet buffer is an allocated one beside the descriptor. -/
def Obligations.PacketCount : Prop :=
  ∀ (n : Ep) (ep : BitVec 8) (buffer : Word) (length : Half) (s : State), ep.toNat = n.val → buffer ≠ 0 →
    buffer.toNat + length.toNat ≤ 2 ^ 32 - 1 → s.DescriptorOk n →
    let size := (s.etsOf n).packetSize
    let a := (s.bdt n .txAddr).toNat
    1 ≤ size.toNat → size.toNat ≤ 1023 →
    a ≠ 0 → a % 2 = 0 → a + size.toNat ≤ 1024 → s.btable.toNat + 8 * n.val + 8 ≤ a →
    ∃ t, exec (.send ep buffer length) s = .next t
      ∧ (t.bdt n .txCount :: queuedLengths n (length.toNat / size.toNat + 1) t).map BitVec.toNat =
          List.replicate (length.toNat / size.toNat) size.toNat ++ [length.toNat % size.toNat]

/-! ### Receive (`43_receive.md`) -/

/-- R161, R229: for a packet size up to 1023, the block-size encoding by its formula, its COUNT bits 0, its capacity the
least representable one not below the size. -/
def Obligations.BlockEncodingIsLeast : Prop :=
  (∀ rc : Half, capacity rc = if rc.getLsbD 15 then 32 * (rc.toNat / 1024 % 32 + 1) else 2 * (rc.toNat / 1024 % 32))
  ∧ ∀ p : Half, p.toNat ≤ 1023 →
    (blockEnc p).toNat =
        (if p.toNat ≤ 62 then 1024 * ((p.toNat + 1) / 2) else 32768 + 1024 * ((p.toNat + 31) / 32 - 1))
    ∧ (blockEnc p).extractLsb' 0 10 = 0
    ∧ p.toNat ≤ capacity (blockEnc p)
    ∧ ∀ rc : Half, p.toNat ≤ capacity rc → capacity (blockEnc p) ≤ capacity rc

/-- R162: BEGIN_PACKET_RECEIVE on an active, configured direction arms it. -/
def Obligations.BeginPacketReceiveArms : Prop :=
  ∀ (n : Ep) (s : State), s.RxReady n → exec (.beginPacketReceive n) s = .next (s.armedReceive n)

/-- R147, R162, R121, R241, R12: SEND_NEXT_PACKET and BEGIN_PACKET_RECEIVE do nothing on an idle or unconfigured direction;
an allocation overrun records the fault and leaves everything else; on an endpoint whose packet size is above 1023 both are
refused, whatever the cursor. -/
def Obligations.PacketOperationsOtherwise : Prop :=
  ∀ (n : Ep) (s : State),
    let size := (s.etsOf n).packetSize
    let overrun := { s with faults := s.faults ||| 0b0001 }
    ((s.etsOf n).TxNothing → size.toNat ≤ 1023 → exec (.sendNextPacket n) s = .next s)
    ∧ ((s.etsOf n).RxNothing → size.toNat ≤ 1023 → exec (.beginPacketReceive n) s = .next s)
    ∧ (¬ (s.etsOf n).TxNothing → size.toNat ≤ 1023 → s.DescriptorOk n → s.bdt n .txAddr = 0 → ¬ s.Fits size →
        exec (.sendNextPacket n) s = .next overrun)
    ∧ (¬ (s.etsOf n).RxNothing → size.toNat ≤ 1023 → s.DescriptorOk n → s.bdt n .rxAddr = 0 → ¬ s.Fits size →
        exec (.beginPacketReceive n) s = .next overrun)
    ∧ (1023 < size.toNat → exec (.sendNextPacket n) s = .refused .packetSizeTooLarge)
    ∧ (1023 < size.toNat → exec (.beginPacketReceive n) s = .refused .packetSizeTooLarge)

/-- R163, R164, R166: END_PACKET_RECEIVE does nothing on an idle direction; otherwise it delivers the packet, clamped, and
a received count that differs from the packet size ends the transfer, an equal one moves the cursor on and re-arms. -/
def Obligations.EndPacketReceiveEffect : Prop :=
  ∀ (n : Ep) (s : State), s.RxEndReady n →
    let e := s.etsOf n
    let received := s.bdt n .rxCount &&& 0x03FF
    (e.rxCursor = 0 → exec (.endPacketReceive n) s = .next s)
    ∧ (e.rxCursor ≠ 0 → received ≠ e.packetSize →
        ∃ u, s.Delivered n u ∧ exec (.endPacketReceive n) s = .next (u.setEts n { e with rxCursor := 0 }))
    ∧ (e.rxCursor ≠ 0 → received = e.packetSize →
        ∃ u, s.Delivered n u ∧
          let v := u.setEts n { e with rxCursor := e.rxCursor + BitVec.ofNat 32 (s.rxCopyLen n) }
          (v.RxReady n → exec (.endPacketReceive n) s = .next (v.armedReceive n))
          ∧ ((v.etsOf n).RxNothing → exec (.endPacketReceive n) s = .next v)
          ∧ ∃ t, exec (.endPacketReceive n) s = .next t)

/-- R165, R167: END_PACKET_RECEIVE on a direction whose cursor is inside its buffer writes no byte of system memory outside
the caller's buffer, and copies no more bytes than were received or than there is room for. -/
def Obligations.ReceiveStaysInBuffer : Prop :=
  ∀ (n : Ep) (s : State), s.RxEndReady n → CursorOk (s.etsOf n).rxBuf (s.etsOf n).rxCursor (s.etsOf n).rxLen →
    let e := s.etsOf n
    ∃ t, exec (.endPacketReceive n) s = .next t
      ∧ (∀ y : Word, y.toNat < e.rxBuf.toNat ∨ e.rxBuf.toNat + e.rxLen.toNat ≤ y.toNat → t.smByte y = s.smByte y)
      ∧ CursorOk (t.etsOf n).rxBuf (t.etsOf n).rxCursor (t.etsOf n).rxLen
      ∧ (e.rxCursor ≠ 0 → s.rxCopyLen n =
          min (s.bdt n .rxCount &&& 0x03FF).toNat (e.rxLen.toNat - (e.rxCursor.toNat - e.rxBuf.toNat)))

/-- R160: RECEIVE of a buffer, as a command and invoked internally, records the transfer and arms it; on an unconfigured
endpoint it records the transfer only; a buffer that wraps is refused (R12). -/
def Obligations.ReceiveRecordsAndArms : Prop :=
  ∀ (n : Ep) (ep : BitVec 8) (buffer : Word) (length : Half) (s : State), ep.toNat = n.val → buffer ≠ 0 →
    let s0 := s.setEts n { s.etsOf n with rxBuf := buffer, rxLen := length, rxCursor := buffer }
    exec (.receiveInternal n buffer length) s = exec (.receive ep buffer length) s
    ∧ (buffer.toNat + length.toNat ≤ 2 ^ 32 - 1 →
        (s0.RxReady n → exec (.receive ep buffer length) s = .next (s0.armedReceive n))
        ∧ ((s.etsOf n).packetSize = 0 → exec (.receive ep buffer length) s = .next s0))
    ∧ (2 ^ 32 - 1 < buffer.toNat + length.toNat → exec (.receive ep buffer length) s = .refused .bufferWraps)

/-- R146, R160: SEND or RECEIVE with a null buffer, whatever its length, and CANCEL_SEND and CANCEL_RECEIVE, clear the
cursor of the direction and set its status to DISABLED, and leave everything else. -/
def Obligations.CancelEffect : Prop :=
  ∀ (n : Ep) (ep : BitVec 8) (length : Half) (s : State), ep.toNat = n.val →
    let tx := (s.setEts n { s.etsOf n with txCursor := 0 }).setEpr n (s.eprOf n &&& 0xFFCF)
    let rx := (s.setEts n { s.etsOf n with rxCursor := 0 }).setEpr n (s.eprOf n &&& 0xCFFF)
    exec (.send ep 0 length) s = .next tx
    ∧ exec (.cancelSend ep) s = .next tx
    ∧ exec (.receive ep 0 length) s = .next rx
    ∧ exec (.cancelReceive ep) s = .next rx
    ∧ exec (.receiveInternal n 0 length) s = .next rx

/-! ### The control endpoint (`44_control_endpoint.md`) and notifications (`30_encoding.md`) -/

/-- R98: Notify appends one record, its fields at the bit positions of the rule, and changes nothing else. -/
def Obligations.NotifyAppendsRecord : Prop :=
  ∀ (code ep : BitVec 8) (buffer : Word) (length : Half) (s : State),
    ∃ record : Wide,
      exec (.notify code ep buffer length) s = .next { s with notes := s.notes ++ [record] }
      ∧ record.toNat = 2 ^ 56 * code.toNat + 2 ^ 48 * ep.toNat + 2 ^ 32 * length.toNat + buffer.toNat

/-- R181 to R183: each CTL_EVENT appends its record; OUT and IN do nothing else; SETUP then arms endpoint 0 onto the Setup
Packet record. -/
def Obligations.ControlEvents : Prop :=
  ∀ s : State,
    let e := s.etsOf 0
    exec .ctlEventOut s = .next { s with notes := s.notes ++ [notificationRecord 0x12 0 e.rxBuf e.rxLen] }
    ∧ exec .ctlEventIn s = .next { s with notes := s.notes ++ [notificationRecord 0x11 0 e.txBuf e.txLen] }
    ∧ (s.params.Ok →
        let s1 := { s with notes := s.notes ++ [notificationRecord 0x10 0 e.rxBuf e.rxLen] }
        let s0 := s1.setEts 0 { e with rxBuf := s.params.setupBufAddr, rxLen := 8, rxCursor := s.params.setupBufAddr }
        (s0.RxReady 0 → exec .ctlEventSetup s = .next (s0.armedReceive 0))
        ∧ (e.packetSize = 0 → exec .ctlEventSetup s = .next s0))

/-! ### The bus reset (`45_bus_reset.md`) -/

/-- R190: what BUS_RESET leaves, from any state; bits of EPR[0] the rule does not write keep their values, and so do the
other endpoint registers and packet memory outside the table. From then on commands are acceptable (R193, R273): the model's
flag `created` is set (log 8). -/
def Obligations.BusResetEffect : Prop :=
  ∀ s : State, s.params.Ok → ∃ t, exec .busReset s = .next t
    ∧ t = { s with
        istr := 0
        cra := 1
        btable := 0
        pm := t.pm
        ets := t.ets
        pmaCursor := 128
        epr := (s.setEpr 0 ((s.eprOf 0 &&& 0xC9F0) ||| 0x3200)).epr
        notes := s.notes ++ [0x0100000000000000]
        cntr := 0xE600
        daddr := 0x80
        created := true }
    ∧ t.etsOf 0 =
        { packetSize := 64, txBuf := 0, txCursor := 0, txLen := 0, rxBuf := s.params.setupBufAddr,
          rxCursor := s.params.setupBufAddr, rxLen := 8 }
    ∧ (∀ n : Ep, n ≠ 0 → t.etsOf n =
        { packetSize := 0, txBuf := 0, txCursor := 0, txLen := 0, rxBuf := 0, rxCursor := 0, rxLen := 0 })
    ∧ ∀ x, t.pmByte x = if x = 4 then 0x40 else if x = 7 then 0x84 else if x < 64 then 0 else s.pmByte x

/-- R192: the post-state of SIE_RESET followed by BUS_RESET. -/
def Obligations.BusResetPostState : Prop :=
  ∀ s : State, s.params.Ok →
    ∃ t, exec .busReset (sieReset s) = .next t
      ∧ t.pmaCursor = 128
      ∧ (t.etsOf 0).packetSize = 64
      ∧ (t.etsOf 0).rxBuf = s.params.setupBufAddr ∧ (t.etsOf 0).rxCursor = s.params.setupBufAddr
      ∧ (t.etsOf 0).rxLen = 8
      ∧ (t.etsOf 0).txBuf = 0 ∧ (t.etsOf 0).txCursor = 0 ∧ (t.etsOf 0).txLen = 0
      ∧ (∀ n : Ep, n ≠ 0 → t.etsOf n = Ets.zero)
      ∧ t.bdt 0 .txAddr = 0 ∧ t.bdt 0 .txCount = 0 ∧ t.bdt 0 .rxAddr = 64 ∧ t.bdt 0 .rxCount = 0x8400
      ∧ (∀ n : Ep, n ≠ 0 → ∀ f, t.bdt n f = 0)
      ∧ (∀ x, x < 64 → t.pmByte x = if x = 4 then 0x40 else if x = 7 then 0x84 else 0)
      ∧ t.eprOf 0 = 0x3200 ∧ (∀ n : Ep, n ≠ 0 → t.eprOf n = 0)
      ∧ t.istr = 0 ∧ t.btable = 0 ∧ t.cra = 1 ∧ t.cntr = 0xE600 ∧ t.daddr = 0x80
      ∧ t.notes = s.notes ++ [0x0100000000000000]

/-- R191: BUS_RESET from any two states leaves the same cursor, transfer state, descriptors, BTABLE, CRA, CNTR, DADDR and
stored flags, and the same type, address and receive status of EPR[0]; with SIE_RESET just before, every endpoint register
is the same too. -/
def Obligations.BusResetIdempotent : Prop :=
  ∀ s q : State, s.params.Ok → q.params = s.params →
    (∃ t u, exec .busReset s = .next t ∧ exec .busReset q = .next u
      ∧ t.pmaCursor = u.pmaCursor ∧ t.ets = u.ets ∧ (∀ n f, t.bdt n f = u.bdt n f)
      ∧ t.btable = u.btable ∧ t.cra = u.cra ∧ t.cntr = u.cntr ∧ t.daddr = u.daddr ∧ t.istr = u.istr
      ∧ t.eprOf 0 &&& 0x360F = u.eprOf 0 &&& 0x360F)
    ∧ ∃ t u, exec .busReset (sieReset s) = .next t ∧ exec .busReset (sieReset q) = .next u ∧ t.epr = u.epr

/-! ### The dispatcher (`46_dispatcher.md`) -/

/-- R201: DISPATCH_ENTRY runs the handlers of one sample of ISTR, in order, and enters the loop. -/
def Obligations.DispatchEntryRunsHandlers : Prop :=
  ∀ s : State, (s.istrRead.getLsbD 10 = true → s.params.Ok) →
    ∃ u, execAll (decodeStatus s.istrRead) s = .next u ∧ exec .dispatchEntry s = .next { u with phase := .loop }

/-- R202 to R208: the RESET handler is BUS_RESET, after which the flag is clear; every other handler clears its flag, the
start-of-frame one after one record, the overrun one with FAULT.PMA_OVR set, and changes nothing else. -/
def Obligations.FlagHandlers : Prop :=
  ∀ s : State,
    (s.params.Ok → ∃ t, exec .busReset s = .next t ∧ exec .reset s = .next t ∧ t.istr = 0)
    ∧ exec .susp s = .next { s with istr := s.istr &&& 0b1110111 }
    ∧ exec .wkup s = .next { s with istr := s.istr &&& 0b1101111 }
    ∧ exec .err s = .next { s with istr := s.istr &&& 0b1011111 }
    ∧ exec .sof s = .next { s with istr := s.istr &&& 0b1111101, notes := s.notes ++ [0x0200000000000000] }
    ∧ exec .esof s = .next { s with istr := s.istr &&& 0b1111110 }
    ∧ exec .pmaovr s = .next { s with istr := s.istr &&& 0b0111111, faults := s.faults ||| 0b1000 }

/-- R212, R252: DISPATCH_EXIT makes the dispatcher idle and restores nothing. -/
def Obligations.DispatchExitEffect : Prop :=
  ∀ s : State, exec .dispatchExit s = .next { s with phase := .idle }

/-- R209: DISPATCH_EP runs the branches of one sample of the endpoint EP_ID names, receive first. -/
def Obligations.DispatchEpRunsBranches : Prop :=
  ∀ s : State, exec .dispatchEp s = execAll (decodeSample s.epId (s.eprOf s.epId)) s

/-- R209: one iteration completes, clears both completion flags of its endpoint, and touches no other endpoint register. -/
def Obligations.DispatchEpCompletes : Prop :=
  ∀ s : State,
    let n := s.epId
    let val := s.eprOf n
    (val.getLsbD 15 = true → s.RxEndReady n ∧ (n = 0 → val.getLsbD 11 = true → s.SetupReady)) →
    (val.getLsbD 7 = true → s.TxContinueReady n) →
    (val.getLsbD 15 = true → val.getLsbD 7 = true → s.bdt n .rxAddr ≠ 0) →
    ∃ t, exec .dispatchEp s = .next t
      ∧ (t.eprOf n).getLsbD 15 = false ∧ (t.eprOf n).getLsbD 7 = false
      ∧ ∀ k, k ≠ n → t.eprOf k = s.eprOf k ∧ t.etsOf k = s.etsOf k

/-- R209: each iteration takes the endpoint it served off the pending ones and adds none, so the loop ends. -/
def Obligations.DispatchLoopProgress : Prop :=
  ∀ s t : State, s.ctr = true → exec .dispatchEp s = .next t → t.pendingEps = s.pendingEps.tail

/-- R210: RX_COMPLETE ends the packet receive, clears CTR_RX, and, when the transfer is then idle, notifies the application
or the Control Endpoint State Machine. -/
def Obligations.RxCompleteEffect : Prop :=
  ∀ (n : Ep) (val : Half) (s : State), s.RxEndReady n →
    (n = 0 → val.getLsbD 11 = true → s.SetupReady) →
    ∃ u, exec (.endPacketReceive n) s = .next u ∧
      let e := u.etsOf n
      let v := u.setEpr n
        ((u.eprOf n &&& 0x7870) ||| (val &&& 0x070F) ||| (u.eprOf n &&& val &&& 0x0080))
      (e.rxCursor ≠ 0 → exec (.rxComplete n val) s = .next v)
      ∧ (e.rxCursor = 0 → n ≠ 0 → exec (.rxComplete n val) s =
          .next { v with notes := v.notes ++ [notificationRecord 0x05 (BitVec.ofNat 8 n.val) e.rxBuf e.rxLen] })
      ∧ (e.rxCursor = 0 → n = 0 → val.getLsbD 11 = false → exec (.rxComplete n val) s = exec .ctlEventOut v)
      ∧ (e.rxCursor = 0 → n = 0 → val.getLsbD 11 = true → exec (.rxComplete n val) s = exec .ctlEventSetup v)
      ∧ ∃ t, exec (.rxComplete n val) s = .next t

/-- R211, R150: TX_COMPLETE on a direction whose cursor is NONE clears CTR_TX and notifies; on an active one it queues the
next packet and clears CTR_TX, and notifies nothing; on an endpoint whose packet size is above 1023 its SEND_NEXT_PACKET is
refused (R12). -/
def Obligations.TxCompleteEffect : Prop :=
  ∀ (n : Ep) (val : Half) (s : State),
    let e := s.etsOf n
    let cleared := fun q : State =>
      q.setEpr n ((q.eprOf n &&& 0x7870) ||| (val &&& 0x070F) ||| (q.eprOf n &&& val &&& 0x8000))
    (e.txCursor = 0 → e.packetSize.toNat ≤ 1023 → n ≠ 0 → exec (.txComplete n val) s =
        .next { cleared s with notes := s.notes ++ [notificationRecord 0x06 (BitVec.ofNat 8 n.val) e.txBuf e.txLen] })
    ∧ (e.txCursor = 0 → e.packetSize.toNat ≤ 1023 → n = 0 → exec (.txComplete n val) s =
        .next { cleared s with notes := s.notes ++ [notificationRecord 0x11 0 e.txBuf e.txLen] })
    ∧ (e.txCursor ≠ 0 → s.TxReady n →
        ∃ u, exec (.sendNextPacket n) s = .next u ∧ s.QueuedPacket n u ∧ exec (.txComplete n val) s = .next (cleared u))
    ∧ (e.txCursor ≠ 0 → e.packetSize = 0 → exec (.txComplete n val) s = .next (cleared s))
    ∧ (1023 < e.packetSize.toNat → exec (.txComplete n val) s = .refused .packetSizeTooLarge)

/-! ### The serial-interface engine (`47_sie_environment.md`) -/

/-- R221: SIE_TX puts the armed packet on the wire, in ascending order, and leaves NAK, the flipped toggle and CTR_TX.
That it does so before the first BUS_RESET too, on the table as packet memory holds it, is the model's choice (log 32). -/
def Obligations.SieTransmits : Prop :=
  ∀ (n : Ep) (s : State) (rest : List Turn),
    let cur := s.eprOf n
    let a := (s.bdt n .txAddr).toNat
    let count := (s.bdt n .txCount &&& 0x03FF).toNat
    s.script = .sie (.tx n) :: rest → s.daddr.getLsbD 7 = true → cur.extractLsb' 4 2 = 0b11 →
    cur.extractLsb' 9 2 ≠ 0b10 → s.DescriptorOk n → a + count ≤ 1024 →
      step s = .next { s.setEpr n ((cur &&& 0xFF0F) ||| (~~~cur &&& 0x0040) ||| 0x00A0) with
        script := rest
        wire := s.wire ++ [{ ep := n, bytes := (List.range count).map (fun i => s.pmByte (a + i)) }] }

/-- R222: SIE_RX puts the packet into the armed buffer, its length into COUNT, and leaves NAK, the flipped toggle, SETUP and
CTR_RX. The buffer does not cover the count word itself. That it does so before the first BUS_RESET too, on the table as
packet memory holds it, is the model's choice (log 32). -/
def Obligations.SieReceives : Prop :=
  ∀ (n : Ep) (data : List Byte) (setup : Bool) (s : State) (rest : List Turn),
    let cur := s.eprOf n
    let a := (s.bdt n .rxAddr).toNat
    let rc := s.bdt n .rxCount
    s.script = .sie (.rx n data setup) :: rest → s.daddr.getLsbD 7 = true → cur.extractLsb' 12 2 = 0b11 →
    cur.extractLsb' 9 2 ≠ 0b10 → s.DescriptorOk n → a + data.length ≤ 1024 → data.length ≤ capacity rc →
    data.length ≤ 1023 → (setup = true → cur.extractLsb' 9 2 = 0b01 ∧ data.length = 8) →
    (∀ x, s.InBdtField n .rxCount x → x < a ∨ a + data.length ≤ x) →
      ∃ t, step s = .next t
        ∧ t = { s with
            script := rest
            pm := t.pm
            epr := (s.setEpr n
              ((cur &&& 0x07FF) ||| (~~~cur &&& 0x4000) ||| 0xA000 ||| (if setup then 0x0800 else 0))).epr }
        ∧ t.bdt n .rxCount = (rc &&& 0xFC00) ||| BitVec.ofNat 16 data.length
        ∧ (∀ i, ∀ h : i < data.length, t.pmByte (a + i) = data[i])
        ∧ ∀ x, ¬ s.InBdtField n .rxCount x → x < a ∨ a + data.length ≤ x → t.pmByte x = s.pmByte x

/-- R223, R224: SIE_FLAG sets its flag and SIE_RESET sets RESET and clears every endpoint register; neither changes
anything else. -/
def Obligations.SieFlagsAndReset : Prop :=
  ∀ (s : State) (rest : List Turn),
    (∀ name bit, (name, bit) ∈ ([(.esof, 0), (.sof, 1), (.susp, 3), (.wkup, 4), (.err, 5), (.pmaovr, 6)] :
        List (SieFlag × Nat)) → s.script = .sie (.flag name) :: rest →
      step s = .next { s with script := rest, istr := s.istr ||| (1#7 <<< bit) })
    ∧ (s.script = .sie .reset :: rest →
        step s = .next { s with script := rest, istr := s.istr ||| 0b0000100, epr := Vector.replicate 8 0 })

/-- R225: what no step of the SIE changes: the block's own state, system memory, the notification trace, the control
registers, and packet memory outside the armed buffer and the count word of a receive; and when one transmits or receives
at all (R221, R222): the device enabled, the direction VALID, the packet within its bounds. That the endpoint's type is not
the isochronous code is the model's reading of U19 of `93_implementation_defined.md` (log 14). -/
def Obligations.SieFrame : Prop :=
  ∀ (m : SieMove) (s t : State) (rest : List Turn), s.script = .sie m :: rest → step s = .next t →
    t = { s with script := rest, pm := t.pm, epr := t.epr, istr := t.istr, wire := t.wire }
    ∧ (∀ x, t.pmByte x = s.pmByte x ∨
        ∃ n data setup, m = .rx n data setup ∧ (s.eprOf n).extractLsb' 12 2 = 0b11 ∧
          (s.InBdtField n .rxCount x ∨
            ((s.bdt n .rxAddr).toNat ≤ x ∧ x < (s.bdt n .rxAddr).toNat + capacity (s.bdt n .rxCount))))
    ∧ (m ≠ .reset → ∀ n : Ep, t.eprOf n &&& 0x070F = s.eprOf n &&& 0x070F
        ∧ ((t.eprOf n).extractLsb' 4 2 = 0b11 → (s.eprOf n).extractLsb' 4 2 = 0b11)
        ∧ ((t.eprOf n).extractLsb' 12 2 = 0b11 → (s.eprOf n).extractLsb' 12 2 = 0b11)
        ∧ s.eprOf n &&& 0x8080 = s.eprOf n &&& t.eprOf n &&& 0x8080)
    ∧ (∀ n : Ep, m = .tx n →
        s.daddr.getLsbD 7 = true ∧ (s.eprOf n).extractLsb' 4 2 = 0b11 ∧ (s.eprOf n).extractLsb' 9 2 ≠ 0b10
        ∧ (s.bdt n .txAddr).toNat + (s.bdt n .txCount &&& 0x03FF).toNat ≤ 1024)
    ∧ ∀ (n : Ep) (data : List Byte) (setup : Bool), m = .rx n data setup →
        s.daddr.getLsbD 7 = true ∧ (s.eprOf n).extractLsb' 12 2 = 0b11 ∧ (s.eprOf n).extractLsb' 9 2 ≠ 0b10
        ∧ data.length ≤ capacity (s.bdt n .rxCount) ∧ data.length ≤ 1023
        ∧ (s.bdt n .rxAddr).toNat + data.length ≤ 1024
        ∧ (setup = true → (s.eprOf n).extractLsb' 9 2 = 0b01 ∧ data.length = 8)

/-! ### The whole machine -/

/-- The invariant holds after power-on. That the cursors are inside their buffers and the parameters legal there rests on
values the model chose: the transfer records are zero (log 2) and the parameters have the values of log 6. -/
def Obligations.InvariantAtReset : Prop := State.reset.Inv

/-- R21, R37, R61, R62, R151, R167: every step of every agent keeps the invariant. -/
def Obligations.StepKeepsInvariant : Prop := ∀ s t : State, s.Inv → step s = .next t → t.Inv

/-- R39: no step clears a FAULT bit. -/
def Obligations.FaultBitsAreSticky : Prop :=
  ∀ (s t : State) (i : Nat), step s = .next t → s.faults.getLsbD i = true → t.faults.getLsbD i = true

/-- R44, R228: no step takes a record off the notification trace or an entry off the wire trace, or changes one. -/
def Obligations.TracesOnlyGrow : Prop :=
  ∀ s t : State, step s = .next t → s.notes <+: t.notes ∧ s.wire <+: t.wire

/-- R21: the cursor never retreats except in a step that handles a bus reset. -/
def Obligations.CursorNeverRetreats : Prop :=
  ∀ s t : State, s.Inv → step s = .next t →
    s.pmaCursor.toNat ≤ t.pmaCursor.toNat
    ∨ (s.phase = .idle ∧ s.irq = true ∧ s.istrRead.getLsbD 10 = true ∧ t.pmaCursor = 128)

/-- No operation of the block but BUS_RESET, and the dispatcher steps that run it, writes CNTR, DADDR, BTABLE or CRA: the
effects the rules of `40_allocator.md` to `44_control_endpoint.md` and `46_dispatcher.md` list do not name them. The application
writes all four through the register map (`RegisterWrites`). -/
def Obligations.ControlRegistersKept : Prop :=
  ∀ (i : Instr) (s t : State), i ≠ .busReset → i ≠ .reset →
    (i = .dispatchEntry → s.istrRead.getLsbD 10 = false) → exec i s = .next t →
      t.cntr = s.cntr ∧ t.daddr = s.daddr ∧ t.btable = s.btable ∧ t.cra = s.cra

/-- R20, R41, R62: what no operation of the block changes; who writes RESULT, the dispatcher phase and system memory. -/
def Obligations.OperationFrame : Prop :=
  ∀ (i : Instr) (s t : State), exec i s = .next t →
    t.params = s.params ∧ t.cmd0 = s.cmd0 ∧ t.cmd1 = s.cmd1 ∧ t.frame = s.frame ∧ t.wire = s.wire
    ∧ t.script = s.script ∧ t.appSaw = s.appSaw ∧ t.freeIndex = s.freeIndex
    ∧ ((∀ length, i ≠ .alloc length) → t.result = s.result)
    ∧ (i ≠ .dispatchEntry → i ≠ .dispatchExit → t.phase = s.phase)
    ∧ ((∀ n, i ≠ .endPacketReceive n) → (∀ n val, i ≠ .rxComplete n val) → i ≠ .dispatchEp → t.sm = s.sm)

/-- R22, R213: an operation on one endpoint leaves the transfer state and the register of every other endpoint alone. -/
def Obligations.OtherEndpointsUntouched : Prop :=
  ∀ (i : Instr) (n k : Ep) (s t : State), k ≠ n →
    (i = .sendNextPacket n ∨ i = .beginPacketReceive n ∨ i = .endPacketReceive n
      ∨ (∃ val, i = .rxComplete n val) ∨ (∃ val, i = .txComplete n val) ∨ (i = .dispatchEp ∧ n = s.epId)
      ∨ (∃ ep buffer length, ep.toNat = n.val ∧ (i = .send ep buffer length ∨ i = .receive ep buffer length))
      ∨ (∃ buffer length, i = .receiveInternal n buffer length)
      ∨ (n = 0 ∧ (i = .ctlEventSetup ∨ i = .ctlEventOut ∨ i = .ctlEventIn))) →
    exec i s = .next t →
      t.etsOf k = s.etsOf k ∧ t.eprOf k = s.eprOf k
end

