-- ==== Sys2Proof/Laws/State.lean ====
section
/-! SUPPORT. One law per field per update of State, true by rfl, and the accessors after each update. -/

namespace Sys2Proof.Machine

section setPmByte

variable (s : State) (a : Nat) (v : Byte)

@[simp] theorem State.setPmByte_params : (s.setPmByte a v).params = s.params := rfl
@[simp] theorem State.setPmByte_pmaCursor : (s.setPmByte a v).pmaCursor = s.pmaCursor := rfl
@[simp] theorem State.setPmByte_ets : (s.setPmByte a v).ets = s.ets := rfl
@[simp] theorem State.setPmByte_pm : (s.setPmByte a v).pm = Memory.write s.pm a v := rfl
@[simp] theorem State.setPmByte_epr : (s.setPmByte a v).epr = s.epr := rfl
@[simp] theorem State.setPmByte_istr : (s.setPmByte a v).istr = s.istr := rfl
@[simp] theorem State.setPmByte_cntr : (s.setPmByte a v).cntr = s.cntr := rfl
@[simp] theorem State.setPmByte_daddr : (s.setPmByte a v).daddr = s.daddr := rfl
@[simp] theorem State.setPmByte_btable : (s.setPmByte a v).btable = s.btable := rfl
@[simp] theorem State.setPmByte_cra : (s.setPmByte a v).cra = s.cra := rfl
@[simp] theorem State.setPmByte_faults : (s.setPmByte a v).faults = s.faults := rfl
@[simp] theorem State.setPmByte_phase : (s.setPmByte a v).phase = s.phase := rfl
@[simp] theorem State.setPmByte_result : (s.setPmByte a v).result = s.result := rfl
@[simp] theorem State.setPmByte_cmd0 : (s.setPmByte a v).cmd0 = s.cmd0 := rfl
@[simp] theorem State.setPmByte_cmd1 : (s.setPmByte a v).cmd1 = s.cmd1 := rfl
@[simp] theorem State.setPmByte_frame : (s.setPmByte a v).frame = s.frame := rfl
@[simp] theorem State.setPmByte_ctlState : (s.setPmByte a v).ctlState = s.ctlState := rfl
@[simp] theorem State.setPmByte_notes : (s.setPmByte a v).notes = s.notes := rfl
@[simp] theorem State.setPmByte_created : (s.setPmByte a v).created = s.created := rfl
@[simp] theorem State.setPmByte_sm : (s.setPmByte a v).sm = s.sm := rfl
@[simp] theorem State.setPmByte_wire : (s.setPmByte a v).wire = s.wire := rfl
@[simp] theorem State.setPmByte_script : (s.setPmByte a v).script = s.script := rfl
@[simp] theorem State.setPmByte_appSaw : (s.setPmByte a v).appSaw = s.appSaw := rfl
@[simp] theorem State.setPmByte_freeIndex : (s.setPmByte a v).freeIndex = s.freeIndex := rfl
@[simp] theorem State.setPmByte_etsOf (k : Ep) : (s.setPmByte a v).etsOf k = s.etsOf k := rfl
@[simp] theorem State.setPmByte_eprOf (k : Ep) : (s.setPmByte a v).eprOf k = s.eprOf k := rfl
@[simp] theorem State.setPmByte_smByte (x : Word) : (s.setPmByte a v).smByte x = s.smByte x := rfl

end setPmByte

section setSmByte

variable (s : State) (a : Word) (v : Byte)

@[simp] theorem State.setSmByte_params : (s.setSmByte a v).params = s.params := rfl
@[simp] theorem State.setSmByte_pmaCursor : (s.setSmByte a v).pmaCursor = s.pmaCursor := rfl
@[simp] theorem State.setSmByte_ets : (s.setSmByte a v).ets = s.ets := rfl
@[simp] theorem State.setSmByte_pm : (s.setSmByte a v).pm = s.pm := rfl
@[simp] theorem State.setSmByte_epr : (s.setSmByte a v).epr = s.epr := rfl
@[simp] theorem State.setSmByte_istr : (s.setSmByte a v).istr = s.istr := rfl
@[simp] theorem State.setSmByte_cntr : (s.setSmByte a v).cntr = s.cntr := rfl
@[simp] theorem State.setSmByte_daddr : (s.setSmByte a v).daddr = s.daddr := rfl
@[simp] theorem State.setSmByte_btable : (s.setSmByte a v).btable = s.btable := rfl
@[simp] theorem State.setSmByte_cra : (s.setSmByte a v).cra = s.cra := rfl
@[simp] theorem State.setSmByte_faults : (s.setSmByte a v).faults = s.faults := rfl
@[simp] theorem State.setSmByte_phase : (s.setSmByte a v).phase = s.phase := rfl
@[simp] theorem State.setSmByte_result : (s.setSmByte a v).result = s.result := rfl
@[simp] theorem State.setSmByte_cmd0 : (s.setSmByte a v).cmd0 = s.cmd0 := rfl
@[simp] theorem State.setSmByte_cmd1 : (s.setSmByte a v).cmd1 = s.cmd1 := rfl
@[simp] theorem State.setSmByte_frame : (s.setSmByte a v).frame = s.frame := rfl
@[simp] theorem State.setSmByte_ctlState : (s.setSmByte a v).ctlState = s.ctlState := rfl
@[simp] theorem State.setSmByte_notes : (s.setSmByte a v).notes = s.notes := rfl
@[simp] theorem State.setSmByte_created : (s.setSmByte a v).created = s.created := rfl
@[simp] theorem State.setSmByte_sm : (s.setSmByte a v).sm = Memory.write s.sm a.toNat v := rfl
@[simp] theorem State.setSmByte_wire : (s.setSmByte a v).wire = s.wire := rfl
@[simp] theorem State.setSmByte_script : (s.setSmByte a v).script = s.script := rfl
@[simp] theorem State.setSmByte_appSaw : (s.setSmByte a v).appSaw = s.appSaw := rfl
@[simp] theorem State.setSmByte_freeIndex : (s.setSmByte a v).freeIndex = s.freeIndex := rfl
@[simp] theorem State.setSmByte_etsOf (k : Ep) : (s.setSmByte a v).etsOf k = s.etsOf k := rfl
@[simp] theorem State.setSmByte_eprOf (k : Ep) : (s.setSmByte a v).eprOf k = s.eprOf k := rfl
@[simp] theorem State.setSmByte_pmByte (x : Nat) : (s.setSmByte a v).pmByte x = s.pmByte x := rfl
@[simp] theorem State.setSmByte_pmHalf (x : Nat) : (s.setSmByte a v).pmHalf x = s.pmHalf x := rfl

end setSmByte

section setEts

variable (s : State) (n : Ep) (e : Ets)

@[simp] theorem State.setEts_params : (s.setEts n e).params = s.params := rfl
@[simp] theorem State.setEts_pmaCursor : (s.setEts n e).pmaCursor = s.pmaCursor := rfl
@[simp] theorem State.setEts_ets : (s.setEts n e).ets = s.ets.set n.val e n.isLt := rfl
@[simp] theorem State.setEts_pm : (s.setEts n e).pm = s.pm := rfl
@[simp] theorem State.setEts_epr : (s.setEts n e).epr = s.epr := rfl
@[simp] theorem State.setEts_istr : (s.setEts n e).istr = s.istr := rfl
@[simp] theorem State.setEts_cntr : (s.setEts n e).cntr = s.cntr := rfl
@[simp] theorem State.setEts_daddr : (s.setEts n e).daddr = s.daddr := rfl
@[simp] theorem State.setEts_btable : (s.setEts n e).btable = s.btable := rfl
@[simp] theorem State.setEts_cra : (s.setEts n e).cra = s.cra := rfl
@[simp] theorem State.setEts_faults : (s.setEts n e).faults = s.faults := rfl
@[simp] theorem State.setEts_phase : (s.setEts n e).phase = s.phase := rfl
@[simp] theorem State.setEts_result : (s.setEts n e).result = s.result := rfl
@[simp] theorem State.setEts_cmd0 : (s.setEts n e).cmd0 = s.cmd0 := rfl
@[simp] theorem State.setEts_cmd1 : (s.setEts n e).cmd1 = s.cmd1 := rfl
@[simp] theorem State.setEts_frame : (s.setEts n e).frame = s.frame := rfl
@[simp] theorem State.setEts_ctlState : (s.setEts n e).ctlState = s.ctlState := rfl
@[simp] theorem State.setEts_notes : (s.setEts n e).notes = s.notes := rfl
@[simp] theorem State.setEts_created : (s.setEts n e).created = s.created := rfl
@[simp] theorem State.setEts_sm : (s.setEts n e).sm = s.sm := rfl
@[simp] theorem State.setEts_wire : (s.setEts n e).wire = s.wire := rfl
@[simp] theorem State.setEts_script : (s.setEts n e).script = s.script := rfl
@[simp] theorem State.setEts_appSaw : (s.setEts n e).appSaw = s.appSaw := rfl
@[simp] theorem State.setEts_freeIndex : (s.setEts n e).freeIndex = s.freeIndex := rfl
@[simp] theorem State.setEts_eprOf (k : Ep) : (s.setEts n e).eprOf k = s.eprOf k := rfl
@[simp] theorem State.setEts_pmByte (x : Nat) : (s.setEts n e).pmByte x = s.pmByte x := rfl
@[simp] theorem State.setEts_pmHalf (x : Nat) : (s.setEts n e).pmHalf x = s.pmHalf x := rfl
@[simp] theorem State.setEts_smByte (x : Word) : (s.setEts n e).smByte x = s.smByte x := rfl

end setEts

section setEpr

variable (s : State) (n : Ep) (w : Half)

@[simp] theorem State.setEpr_params : (s.setEpr n w).params = s.params := rfl
@[simp] theorem State.setEpr_pmaCursor : (s.setEpr n w).pmaCursor = s.pmaCursor := rfl
@[simp] theorem State.setEpr_ets : (s.setEpr n w).ets = s.ets := rfl
@[simp] theorem State.setEpr_pm : (s.setEpr n w).pm = s.pm := rfl
@[simp] theorem State.setEpr_epr : (s.setEpr n w).epr = s.epr.set n.val w n.isLt := rfl
@[simp] theorem State.setEpr_istr : (s.setEpr n w).istr = s.istr := rfl
@[simp] theorem State.setEpr_cntr : (s.setEpr n w).cntr = s.cntr := rfl
@[simp] theorem State.setEpr_daddr : (s.setEpr n w).daddr = s.daddr := rfl
@[simp] theorem State.setEpr_btable : (s.setEpr n w).btable = s.btable := rfl
@[simp] theorem State.setEpr_cra : (s.setEpr n w).cra = s.cra := rfl
@[simp] theorem State.setEpr_faults : (s.setEpr n w).faults = s.faults := rfl
@[simp] theorem State.setEpr_phase : (s.setEpr n w).phase = s.phase := rfl
@[simp] theorem State.setEpr_result : (s.setEpr n w).result = s.result := rfl
@[simp] theorem State.setEpr_cmd0 : (s.setEpr n w).cmd0 = s.cmd0 := rfl
@[simp] theorem State.setEpr_cmd1 : (s.setEpr n w).cmd1 = s.cmd1 := rfl
@[simp] theorem State.setEpr_frame : (s.setEpr n w).frame = s.frame := rfl
@[simp] theorem State.setEpr_ctlState : (s.setEpr n w).ctlState = s.ctlState := rfl
@[simp] theorem State.setEpr_notes : (s.setEpr n w).notes = s.notes := rfl
@[simp] theorem State.setEpr_created : (s.setEpr n w).created = s.created := rfl
@[simp] theorem State.setEpr_sm : (s.setEpr n w).sm = s.sm := rfl
@[simp] theorem State.setEpr_wire : (s.setEpr n w).wire = s.wire := rfl
@[simp] theorem State.setEpr_script : (s.setEpr n w).script = s.script := rfl
@[simp] theorem State.setEpr_appSaw : (s.setEpr n w).appSaw = s.appSaw := rfl
@[simp] theorem State.setEpr_freeIndex : (s.setEpr n w).freeIndex = s.freeIndex := rfl
@[simp] theorem State.setEpr_etsOf (k : Ep) : (s.setEpr n w).etsOf k = s.etsOf k := rfl
@[simp] theorem State.setEpr_pmByte (x : Nat) : (s.setEpr n w).pmByte x = s.pmByte x := rfl
@[simp] theorem State.setEpr_pmHalf (x : Nat) : (s.setEpr n w).pmHalf x = s.pmHalf x := rfl
@[simp] theorem State.setEpr_smByte (x : Word) : (s.setEpr n w).smByte x = s.smByte x := rfl

end setEpr

section eprWrite

variable (n : Ep) (w : Half) (s : State)

@[simp] theorem eprWrite_params : (eprWrite n w s).params = s.params := rfl
@[simp] theorem eprWrite_pmaCursor : (eprWrite n w s).pmaCursor = s.pmaCursor := rfl
@[simp] theorem eprWrite_ets : (eprWrite n w s).ets = s.ets := rfl
@[simp] theorem eprWrite_pm : (eprWrite n w s).pm = s.pm := rfl
@[simp] theorem eprWrite_epr : (eprWrite n w s).epr = s.epr.set n.val (eprWriteWord (s.eprOf n) w) n.isLt := rfl
@[simp] theorem eprWrite_istr : (eprWrite n w s).istr = s.istr := rfl
@[simp] theorem eprWrite_cntr : (eprWrite n w s).cntr = s.cntr := rfl
@[simp] theorem eprWrite_daddr : (eprWrite n w s).daddr = s.daddr := rfl
@[simp] theorem eprWrite_btable : (eprWrite n w s).btable = s.btable := rfl
@[simp] theorem eprWrite_cra : (eprWrite n w s).cra = s.cra := rfl
@[simp] theorem eprWrite_faults : (eprWrite n w s).faults = s.faults := rfl
@[simp] theorem eprWrite_phase : (eprWrite n w s).phase = s.phase := rfl
@[simp] theorem eprWrite_result : (eprWrite n w s).result = s.result := rfl
@[simp] theorem eprWrite_cmd0 : (eprWrite n w s).cmd0 = s.cmd0 := rfl
@[simp] theorem eprWrite_cmd1 : (eprWrite n w s).cmd1 = s.cmd1 := rfl
@[simp] theorem eprWrite_frame : (eprWrite n w s).frame = s.frame := rfl
@[simp] theorem eprWrite_ctlState : (eprWrite n w s).ctlState = s.ctlState := rfl
@[simp] theorem eprWrite_notes : (eprWrite n w s).notes = s.notes := rfl
@[simp] theorem eprWrite_created : (eprWrite n w s).created = s.created := rfl
@[simp] theorem eprWrite_sm : (eprWrite n w s).sm = s.sm := rfl
@[simp] theorem eprWrite_wire : (eprWrite n w s).wire = s.wire := rfl
@[simp] theorem eprWrite_script : (eprWrite n w s).script = s.script := rfl
@[simp] theorem eprWrite_appSaw : (eprWrite n w s).appSaw = s.appSaw := rfl
@[simp] theorem eprWrite_freeIndex : (eprWrite n w s).freeIndex = s.freeIndex := rfl
@[simp] theorem eprWrite_etsOf (k : Ep) : (eprWrite n w s).etsOf k = s.etsOf k := rfl
@[simp] theorem eprWrite_pmByte (x : Nat) : (eprWrite n w s).pmByte x = s.pmByte x := rfl
@[simp] theorem eprWrite_pmHalf (x : Nat) : (eprWrite n w s).pmHalf x = s.pmHalf x := rfl
@[simp] theorem eprWrite_smByte (x : Word) : (eprWrite n w s).smByte x = s.smByte x := rfl

end eprWrite

section istrWrite

variable (w : Half) (s : State)

@[simp] theorem istrWrite_params : (istrWrite w s).params = s.params := rfl
@[simp] theorem istrWrite_pmaCursor : (istrWrite w s).pmaCursor = s.pmaCursor := rfl
@[simp] theorem istrWrite_ets : (istrWrite w s).ets = s.ets := rfl
@[simp] theorem istrWrite_pm : (istrWrite w s).pm = s.pm := rfl
@[simp] theorem istrWrite_epr : (istrWrite w s).epr = s.epr := rfl
@[simp] theorem istrWrite_istr : (istrWrite w s).istr = istrWriteFlags s.istr w := rfl
@[simp] theorem istrWrite_cntr : (istrWrite w s).cntr = s.cntr := rfl
@[simp] theorem istrWrite_daddr : (istrWrite w s).daddr = s.daddr := rfl
@[simp] theorem istrWrite_btable : (istrWrite w s).btable = s.btable := rfl
@[simp] theorem istrWrite_cra : (istrWrite w s).cra = s.cra := rfl
@[simp] theorem istrWrite_faults : (istrWrite w s).faults = s.faults := rfl
@[simp] theorem istrWrite_phase : (istrWrite w s).phase = s.phase := rfl
@[simp] theorem istrWrite_result : (istrWrite w s).result = s.result := rfl
@[simp] theorem istrWrite_cmd0 : (istrWrite w s).cmd0 = s.cmd0 := rfl
@[simp] theorem istrWrite_cmd1 : (istrWrite w s).cmd1 = s.cmd1 := rfl
@[simp] theorem istrWrite_frame : (istrWrite w s).frame = s.frame := rfl
@[simp] theorem istrWrite_ctlState : (istrWrite w s).ctlState = s.ctlState := rfl
@[simp] theorem istrWrite_notes : (istrWrite w s).notes = s.notes := rfl
@[simp] theorem istrWrite_created : (istrWrite w s).created = s.created := rfl
@[simp] theorem istrWrite_sm : (istrWrite w s).sm = s.sm := rfl
@[simp] theorem istrWrite_wire : (istrWrite w s).wire = s.wire := rfl
@[simp] theorem istrWrite_script : (istrWrite w s).script = s.script := rfl
@[simp] theorem istrWrite_appSaw : (istrWrite w s).appSaw = s.appSaw := rfl
@[simp] theorem istrWrite_freeIndex : (istrWrite w s).freeIndex = s.freeIndex := rfl
@[simp] theorem istrWrite_etsOf (k : Ep) : (istrWrite w s).etsOf k = s.etsOf k := rfl
@[simp] theorem istrWrite_eprOf (k : Ep) : (istrWrite w s).eprOf k = s.eprOf k := rfl
@[simp] theorem istrWrite_pmByte (x : Nat) : (istrWrite w s).pmByte x = s.pmByte x := rfl
@[simp] theorem istrWrite_pmHalf (x : Nat) : (istrWrite w s).pmHalf x = s.pmHalf x := rfl
@[simp] theorem istrWrite_smByte (x : Word) : (istrWrite w s).smByte x = s.smByte x := rfl

end istrWrite

section btableWrite

variable (w : Half) (s : State)

@[simp] theorem btableWrite_params : (btableWrite w s).params = s.params := rfl
@[simp] theorem btableWrite_pmaCursor : (btableWrite w s).pmaCursor = s.pmaCursor := rfl
@[simp] theorem btableWrite_ets : (btableWrite w s).ets = s.ets := rfl
@[simp] theorem btableWrite_pm : (btableWrite w s).pm = s.pm := rfl
@[simp] theorem btableWrite_epr : (btableWrite w s).epr = s.epr := rfl
@[simp] theorem btableWrite_istr : (btableWrite w s).istr = s.istr := rfl
@[simp] theorem btableWrite_cntr : (btableWrite w s).cntr = s.cntr := rfl
@[simp] theorem btableWrite_daddr : (btableWrite w s).daddr = s.daddr := rfl
@[simp] theorem btableWrite_btable : (btableWrite w s).btable = w &&& 0xFFF8 := rfl
@[simp] theorem btableWrite_cra : (btableWrite w s).cra = s.cra := rfl
@[simp] theorem btableWrite_faults : (btableWrite w s).faults = s.faults := rfl
@[simp] theorem btableWrite_phase : (btableWrite w s).phase = s.phase := rfl
@[simp] theorem btableWrite_result : (btableWrite w s).result = s.result := rfl
@[simp] theorem btableWrite_cmd0 : (btableWrite w s).cmd0 = s.cmd0 := rfl
@[simp] theorem btableWrite_cmd1 : (btableWrite w s).cmd1 = s.cmd1 := rfl
@[simp] theorem btableWrite_frame : (btableWrite w s).frame = s.frame := rfl
@[simp] theorem btableWrite_ctlState : (btableWrite w s).ctlState = s.ctlState := rfl
@[simp] theorem btableWrite_notes : (btableWrite w s).notes = s.notes := rfl
@[simp] theorem btableWrite_created : (btableWrite w s).created = s.created := rfl
@[simp] theorem btableWrite_sm : (btableWrite w s).sm = s.sm := rfl
@[simp] theorem btableWrite_wire : (btableWrite w s).wire = s.wire := rfl
@[simp] theorem btableWrite_script : (btableWrite w s).script = s.script := rfl
@[simp] theorem btableWrite_appSaw : (btableWrite w s).appSaw = s.appSaw := rfl
@[simp] theorem btableWrite_freeIndex : (btableWrite w s).freeIndex = s.freeIndex := rfl
@[simp] theorem btableWrite_etsOf (k : Ep) : (btableWrite w s).etsOf k = s.etsOf k := rfl
@[simp] theorem btableWrite_eprOf (k : Ep) : (btableWrite w s).eprOf k = s.eprOf k := rfl
@[simp] theorem btableWrite_pmByte (x : Nat) : (btableWrite w s).pmByte x = s.pmByte x := rfl
@[simp] theorem btableWrite_pmHalf (x : Nat) : (btableWrite w s).pmHalf x = s.pmHalf x := rfl
@[simp] theorem btableWrite_smByte (x : Word) : (btableWrite w s).smByte x = s.smByte x := rfl

end btableWrite

section raiseFault

variable (c : FaultCause) (s : State)

@[simp] theorem raiseFault_params : (raiseFault c s).params = s.params := rfl
@[simp] theorem raiseFault_pmaCursor : (raiseFault c s).pmaCursor = s.pmaCursor := rfl
@[simp] theorem raiseFault_ets : (raiseFault c s).ets = s.ets := rfl
@[simp] theorem raiseFault_pm : (raiseFault c s).pm = s.pm := rfl
@[simp] theorem raiseFault_epr : (raiseFault c s).epr = s.epr := rfl
@[simp] theorem raiseFault_istr : (raiseFault c s).istr = s.istr := rfl
@[simp] theorem raiseFault_cntr : (raiseFault c s).cntr = s.cntr := rfl
@[simp] theorem raiseFault_daddr : (raiseFault c s).daddr = s.daddr := rfl
@[simp] theorem raiseFault_btable : (raiseFault c s).btable = s.btable := rfl
@[simp] theorem raiseFault_cra : (raiseFault c s).cra = s.cra := rfl
@[simp] theorem raiseFault_faults : (raiseFault c s).faults = s.faults ||| faultBit c := rfl
@[simp] theorem raiseFault_phase : (raiseFault c s).phase = s.phase := rfl
@[simp] theorem raiseFault_result : (raiseFault c s).result = s.result := rfl
@[simp] theorem raiseFault_cmd0 : (raiseFault c s).cmd0 = s.cmd0 := rfl
@[simp] theorem raiseFault_cmd1 : (raiseFault c s).cmd1 = s.cmd1 := rfl
@[simp] theorem raiseFault_frame : (raiseFault c s).frame = s.frame := rfl
@[simp] theorem raiseFault_ctlState : (raiseFault c s).ctlState = s.ctlState := rfl
@[simp] theorem raiseFault_notes : (raiseFault c s).notes = s.notes := rfl
@[simp] theorem raiseFault_created : (raiseFault c s).created = s.created := rfl
@[simp] theorem raiseFault_sm : (raiseFault c s).sm = s.sm := rfl
@[simp] theorem raiseFault_wire : (raiseFault c s).wire = s.wire := rfl
@[simp] theorem raiseFault_script : (raiseFault c s).script = s.script := rfl
@[simp] theorem raiseFault_appSaw : (raiseFault c s).appSaw = s.appSaw := rfl
@[simp] theorem raiseFault_freeIndex : (raiseFault c s).freeIndex = s.freeIndex := rfl
@[simp] theorem raiseFault_etsOf (k : Ep) : (raiseFault c s).etsOf k = s.etsOf k := rfl
@[simp] theorem raiseFault_eprOf (k : Ep) : (raiseFault c s).eprOf k = s.eprOf k := rfl
@[simp] theorem raiseFault_pmByte (x : Nat) : (raiseFault c s).pmByte x = s.pmByte x := rfl
@[simp] theorem raiseFault_pmHalf (x : Nat) : (raiseFault c s).pmHalf x = s.pmHalf x := rfl
@[simp] theorem raiseFault_smByte (x : Word) : (raiseFault c s).smByte x = s.smByte x := rfl

end raiseFault

section enterDispatcher

variable (s : State)

@[simp] theorem enterDispatcher_params : (enterDispatcher s).params = s.params := rfl
@[simp] theorem enterDispatcher_pmaCursor : (enterDispatcher s).pmaCursor = s.pmaCursor := rfl
@[simp] theorem enterDispatcher_ets : (enterDispatcher s).ets = s.ets := rfl
@[simp] theorem enterDispatcher_pm : (enterDispatcher s).pm = s.pm := rfl
@[simp] theorem enterDispatcher_epr : (enterDispatcher s).epr = s.epr := rfl
@[simp] theorem enterDispatcher_istr : (enterDispatcher s).istr = s.istr := rfl
@[simp] theorem enterDispatcher_cntr : (enterDispatcher s).cntr = s.cntr := rfl
@[simp] theorem enterDispatcher_daddr : (enterDispatcher s).daddr = s.daddr := rfl
@[simp] theorem enterDispatcher_btable : (enterDispatcher s).btable = s.btable := rfl
@[simp] theorem enterDispatcher_cra : (enterDispatcher s).cra = s.cra := rfl
@[simp] theorem enterDispatcher_faults : (enterDispatcher s).faults = s.faults := rfl
@[simp] theorem enterDispatcher_phase : (enterDispatcher s).phase = .loop := rfl
@[simp] theorem enterDispatcher_result : (enterDispatcher s).result = s.result := rfl
@[simp] theorem enterDispatcher_cmd0 : (enterDispatcher s).cmd0 = s.cmd0 := rfl
@[simp] theorem enterDispatcher_cmd1 : (enterDispatcher s).cmd1 = s.cmd1 := rfl
@[simp] theorem enterDispatcher_frame : (enterDispatcher s).frame = s.frame := rfl
@[simp] theorem enterDispatcher_ctlState : (enterDispatcher s).ctlState = s.ctlState := rfl
@[simp] theorem enterDispatcher_notes : (enterDispatcher s).notes = s.notes := rfl
@[simp] theorem enterDispatcher_created : (enterDispatcher s).created = s.created := rfl
@[simp] theorem enterDispatcher_sm : (enterDispatcher s).sm = s.sm := rfl
@[simp] theorem enterDispatcher_wire : (enterDispatcher s).wire = s.wire := rfl
@[simp] theorem enterDispatcher_script : (enterDispatcher s).script = s.script := rfl
@[simp] theorem enterDispatcher_appSaw : (enterDispatcher s).appSaw = s.appSaw := rfl
@[simp] theorem enterDispatcher_freeIndex : (enterDispatcher s).freeIndex = s.freeIndex := rfl
@[simp] theorem enterDispatcher_etsOf (k : Ep) : (enterDispatcher s).etsOf k = s.etsOf k := rfl
@[simp] theorem enterDispatcher_eprOf (k : Ep) : (enterDispatcher s).eprOf k = s.eprOf k := rfl
@[simp] theorem enterDispatcher_pmByte (x : Nat) : (enterDispatcher s).pmByte x = s.pmByte x := rfl
@[simp] theorem enterDispatcher_pmHalf (x : Nat) : (enterDispatcher s).pmHalf x = s.pmHalf x := rfl
@[simp] theorem enterDispatcher_smByte (x : Word) : (enterDispatcher s).smByte x = s.smByte x := rfl

end enterDispatcher

section leaveDispatcher

variable (s : State)

@[simp] theorem leaveDispatcher_params : (leaveDispatcher s).params = s.params := rfl
@[simp] theorem leaveDispatcher_pmaCursor : (leaveDispatcher s).pmaCursor = s.pmaCursor := rfl
@[simp] theorem leaveDispatcher_ets : (leaveDispatcher s).ets = s.ets := rfl
@[simp] theorem leaveDispatcher_pm : (leaveDispatcher s).pm = s.pm := rfl
@[simp] theorem leaveDispatcher_epr : (leaveDispatcher s).epr = s.epr := rfl
@[simp] theorem leaveDispatcher_istr : (leaveDispatcher s).istr = s.istr := rfl
@[simp] theorem leaveDispatcher_cntr : (leaveDispatcher s).cntr = s.cntr := rfl
@[simp] theorem leaveDispatcher_daddr : (leaveDispatcher s).daddr = s.daddr := rfl
@[simp] theorem leaveDispatcher_btable : (leaveDispatcher s).btable = s.btable := rfl
@[simp] theorem leaveDispatcher_cra : (leaveDispatcher s).cra = s.cra := rfl
@[simp] theorem leaveDispatcher_faults : (leaveDispatcher s).faults = s.faults := rfl
@[simp] theorem leaveDispatcher_phase : (leaveDispatcher s).phase = .idle := rfl
@[simp] theorem leaveDispatcher_result : (leaveDispatcher s).result = s.result := rfl
@[simp] theorem leaveDispatcher_cmd0 : (leaveDispatcher s).cmd0 = s.cmd0 := rfl
@[simp] theorem leaveDispatcher_cmd1 : (leaveDispatcher s).cmd1 = s.cmd1 := rfl
@[simp] theorem leaveDispatcher_frame : (leaveDispatcher s).frame = s.frame := rfl
@[simp] theorem leaveDispatcher_ctlState : (leaveDispatcher s).ctlState = s.ctlState := rfl
@[simp] theorem leaveDispatcher_notes : (leaveDispatcher s).notes = s.notes := rfl
@[simp] theorem leaveDispatcher_created : (leaveDispatcher s).created = s.created := rfl
@[simp] theorem leaveDispatcher_sm : (leaveDispatcher s).sm = s.sm := rfl
@[simp] theorem leaveDispatcher_wire : (leaveDispatcher s).wire = s.wire := rfl
@[simp] theorem leaveDispatcher_script : (leaveDispatcher s).script = s.script := rfl
@[simp] theorem leaveDispatcher_appSaw : (leaveDispatcher s).appSaw = s.appSaw := rfl
@[simp] theorem leaveDispatcher_freeIndex : (leaveDispatcher s).freeIndex = s.freeIndex := rfl
@[simp] theorem leaveDispatcher_etsOf (k : Ep) : (leaveDispatcher s).etsOf k = s.etsOf k := rfl
@[simp] theorem leaveDispatcher_eprOf (k : Ep) : (leaveDispatcher s).eprOf k = s.eprOf k := rfl
@[simp] theorem leaveDispatcher_pmByte (x : Nat) : (leaveDispatcher s).pmByte x = s.pmByte x := rfl
@[simp] theorem leaveDispatcher_pmHalf (x : Nat) : (leaveDispatcher s).pmHalf x = s.pmHalf x := rfl
@[simp] theorem leaveDispatcher_smByte (x : Word) : (leaveDispatcher s).smByte x = s.smByte x := rfl

end leaveDispatcher

section notifyApp

variable (code ep : BitVec 8) (b : Word) (l : Half) (s : State)

@[simp] theorem notifyApp_params : (notifyApp code ep b l s).params = s.params := rfl
@[simp] theorem notifyApp_pmaCursor : (notifyApp code ep b l s).pmaCursor = s.pmaCursor := rfl
@[simp] theorem notifyApp_ets : (notifyApp code ep b l s).ets = s.ets := rfl
@[simp] theorem notifyApp_pm : (notifyApp code ep b l s).pm = s.pm := rfl
@[simp] theorem notifyApp_epr : (notifyApp code ep b l s).epr = s.epr := rfl
@[simp] theorem notifyApp_istr : (notifyApp code ep b l s).istr = s.istr := rfl
@[simp] theorem notifyApp_cntr : (notifyApp code ep b l s).cntr = s.cntr := rfl
@[simp] theorem notifyApp_daddr : (notifyApp code ep b l s).daddr = s.daddr := rfl
@[simp] theorem notifyApp_btable : (notifyApp code ep b l s).btable = s.btable := rfl
@[simp] theorem notifyApp_cra : (notifyApp code ep b l s).cra = s.cra := rfl
@[simp] theorem notifyApp_faults : (notifyApp code ep b l s).faults = s.faults := rfl
@[simp] theorem notifyApp_phase : (notifyApp code ep b l s).phase = s.phase := rfl
@[simp] theorem notifyApp_result : (notifyApp code ep b l s).result = s.result := rfl
@[simp] theorem notifyApp_cmd0 : (notifyApp code ep b l s).cmd0 = s.cmd0 := rfl
@[simp] theorem notifyApp_cmd1 : (notifyApp code ep b l s).cmd1 = s.cmd1 := rfl
@[simp] theorem notifyApp_frame : (notifyApp code ep b l s).frame = s.frame := rfl
@[simp] theorem notifyApp_ctlState : (notifyApp code ep b l s).ctlState = s.ctlState := rfl
@[simp] theorem notifyApp_notes : (notifyApp code ep b l s).notes = s.notes ++ [notificationRecord code ep b l] := rfl
@[simp] theorem notifyApp_created : (notifyApp code ep b l s).created = s.created := rfl
@[simp] theorem notifyApp_sm : (notifyApp code ep b l s).sm = s.sm := rfl
@[simp] theorem notifyApp_wire : (notifyApp code ep b l s).wire = s.wire := rfl
@[simp] theorem notifyApp_script : (notifyApp code ep b l s).script = s.script := rfl
@[simp] theorem notifyApp_appSaw : (notifyApp code ep b l s).appSaw = s.appSaw := rfl
@[simp] theorem notifyApp_freeIndex : (notifyApp code ep b l s).freeIndex = s.freeIndex := rfl
@[simp] theorem notifyApp_etsOf (k : Ep) : (notifyApp code ep b l s).etsOf k = s.etsOf k := rfl
@[simp] theorem notifyApp_eprOf (k : Ep) : (notifyApp code ep b l s).eprOf k = s.eprOf k := rfl
@[simp] theorem notifyApp_pmByte (x : Nat) : (notifyApp code ep b l s).pmByte x = s.pmByte x := rfl
@[simp] theorem notifyApp_pmHalf (x : Nat) : (notifyApp code ep b l s).pmHalf x = s.pmHalf x := rfl
@[simp] theorem notifyApp_smByte (x : Word) : (notifyApp code ep b l s).smByte x = s.smByte x := rfl

end notifyApp

/-! ### The accessors at the place written and at another -/

@[simp] theorem State.setEts_etsOf_same (s : State) (n : Ep) (e : Ets) : (s.setEts n e).etsOf n = e := by
  simp [State.etsOf]

theorem State.setEts_etsOf_other (s : State) {n k : Ep} (e : Ets) (h : k ≠ n) : (s.setEts n e).etsOf k = s.etsOf k := by
  have : n.val ≠ k.val := fun hv => h (Fin.ext hv.symm)
  simp [State.etsOf, this]

@[simp] theorem State.setEpr_eprOf_same (s : State) (n : Ep) (w : Half) : (s.setEpr n w).eprOf n = w := by
  simp [State.eprOf]

theorem State.setEpr_eprOf_other (s : State) {n k : Ep} (w : Half) (h : k ≠ n) : (s.setEpr n w).eprOf k = s.eprOf k := by
  have : n.val ≠ k.val := fun hv => h (Fin.ext hv.symm)
  simp [State.eprOf, this]

@[simp] theorem eprWrite_eprOf_same (n : Ep) (w : Half) (s : State) :
    (eprWrite n w s).eprOf n = eprWriteWord (s.eprOf n) w := by simp [State.eprOf]

theorem eprWrite_eprOf_other {n k : Ep} (w : Half) (s : State) (h : k ≠ n) : (eprWrite n w s).eprOf k = s.eprOf k :=
  State.setEpr_eprOf_other s _ h

theorem State.setPmByte_pmByte (s : State) (a x : Nat) (v : Byte) :
    (s.setPmByte a v).pmByte x = if x = a then v else s.pmByte x := Memory.read_write _ _ _ _

@[simp] theorem State.setPmByte_pmByte_same (s : State) (a : Nat) (v : Byte) : (s.setPmByte a v).pmByte a = v := by
  simp [State.setPmByte_pmByte]

theorem State.setSmByte_smByte (s : State) (a x : Word) (v : Byte) :
    (s.setSmByte a v).smByte x = if x = a then v else s.smByte x := by
  unfold State.smByte State.setSmByte
  rw [Memory.read_write]
  simp [BitVec.toNat_inj]

/-- Two states with the same fields but the endpoint files are equal when the files agree entry by entry. -/
theorem State.ets_ext {v w : Vector Ets 8} (h : ∀ n : Ep, v[n.val] = w[n.val]) : v = w :=
  Vector.ext fun i hi => h ⟨i, hi⟩

theorem State.epr_ext {v w : Vector Half 8} (h : ∀ n : Ep, v[n.val] = w[n.val]) : v = w :=
  Vector.ext fun i hi => h ⟨i, hi⟩

end Sys2Proof.Machine
end

