-- ==== Sys2Proof/Laws/Words.lean ====
section
/-! SUPPORT. Laws of the bit computations: each bit of a written endpoint register, and the status words built on it. -/

namespace Sys2Proof.Machine

/-- `EPRWrite`, bit by bit (R29). -/
theorem eprWriteWord_getLsbD (cur w : Half) (i : Nat) (h : i < 16) :
    (eprWriteWord cur w).getLsbD i =
      if i = 15 ∨ i = 7 then cur.getLsbD i && w.getLsbD i
      else if i = 14 ∨ i = 13 ∨ i = 12 ∨ i = 6 ∨ i = 5 ∨ i = 4 then xor (cur.getLsbD i) (w.getLsbD i)
      else if i = 11 then cur.getLsbD i
      else w.getLsbD i := by
  unfold eprWriteWord
  interval_cases i <;>
    simp only [BitVec.getLsbD_append, BitVec.getLsbD_extractLsb', BitVec.getLsbD_and, BitVec.getLsbD_xor] <;> simp

/-- `EPRWrite` by masks. -/
theorem eprWriteWord_masks (cur w : Half) :
    eprWriteWord cur w = (cur &&& w &&& 0x8080) ||| ((cur ^^^ w) &&& 0x7070) ||| (cur &&& 0x0800) ||| (w &&& 0x070F) := by
  apply BitVec.eq_of_getLsbD_eq
  intro i hi
  rw [eprWriteWord_getLsbD _ _ _ hi]
  interval_cases i <;> simp

end Sys2Proof.Machine
end

