-- ==== Sys2Proof/Laws/Ops.lean ====
section
/-! SUPPORT. One law per shared operation: what it does when it ends in a state, and when it ends in one. -/

namespace Sys2Proof.Machine

/-! ### Operations that may stop -/

section Eff

variable {α β : Type} (a : α) (r : Stop) (q : Refusal) (f : α → Eff β) (x : Eff α)

@[simp] theorem Eff.ok_bind : (Except.ok a >>= f : Eff β) = f a := rfl

@[simp] theorem Eff.error_bind : (Except.error r >>= f : Eff β) = .error r := rfl

@[simp] theorem Eff.pure_eq : (pure a : Eff α) = .ok a := rfl

@[simp] theorem Eff.refuse_bind : (refuse q >>= f : Eff β) = refuse q := rfl

/-- A bind that ends in a value went through a value. -/
theorem Eff.bind_ok {x : Eff α} {f : α → Eff β} {b : β} (h : x >>= f = .ok b) : ∃ a, x = .ok a ∧ f a = .ok b := by
  cases x with
  | error r => cases h
  | ok a => exact ⟨a, rfl, h⟩

@[simp] theorem refuse_ne_ok (b : β) : (refuse q : Eff β) ≠ .ok b := nofun

end Eff

@[simp] theorem settle_ok (s : State) : settle (.ok s) = .next s := rfl

@[simp] theorem settle_refuse (q : Refusal) : settle (refuse q) = .refused q := rfl

@[simp] theorem settle_fault (r : Fault) : settle (.error (.fault r)) = .fault r := rfl

theorem settle_next {x : Eff State} {t : State} : settle x = .next t ↔ x = .ok t := by
  cases x with
  | ok s => simp
  | error r => cases r <;> simp [settle]

/-! ### Packet-memory accesses -/

theorem pmRead8_ok {a : Nat} {s : State} {b : Byte} : pmRead8 a s = .ok b ↔ a < Config.pmaSize ∧ b = s.pmByte a := by
  unfold pmRead8 refuse
  split <;> simp_all [eq_comm]

theorem pmWrite8_ok {a : Nat} {v : Byte} {s t : State} :
    pmWrite8 a v s = .ok t ↔ a < Config.pmaSize ∧ t = s.setPmByte a v := by
  unfold pmWrite8 refuse
  split <;> simp_all [eq_comm]

theorem pmRead16_ok {a : Nat} {s : State} {w : Half} :
    pmRead16 a s = .ok w ↔ a % 2 = 0 ∧ a + 1 < Config.pmaSize ∧ w = s.pmHalf a := by
  unfold pmRead16 refuse
  split
  · simp_all
  · split <;> simp_all [eq_comm]

theorem pmWrite16_ok {a : Nat} {v : Half} {s t : State} :
    pmWrite16 a v s = .ok t ↔ a % 2 = 0 ∧ a + 1 < Config.pmaSize ∧
      t = (s.setPmByte a (v.extractLsb' 0 8)).setPmByte (a + 1) (v.extractLsb' 8 8) := by
  unfold pmWrite16 refuse
  split
  · simp_all
  · split <;> simp_all [eq_comm]

/-! ### Descriptors -/

section setBdt

variable (s : State) (n : Ep) (f : BdtField) (v : Half)

@[simp] theorem State.setBdt_params : (s.setBdt n f v).params = s.params := rfl
@[simp] theorem State.setBdt_pmaCursor : (s.setBdt n f v).pmaCursor = s.pmaCursor := rfl
@[simp] theorem State.setBdt_ets : (s.setBdt n f v).ets = s.ets := rfl
@[simp] theorem State.setBdt_epr : (s.setBdt n f v).epr = s.epr := rfl
@[simp] theorem State.setBdt_istr : (s.setBdt n f v).istr = s.istr := rfl
@[simp] theorem State.setBdt_cntr : (s.setBdt n f v).cntr = s.cntr := rfl
@[simp] theorem State.setBdt_daddr : (s.setBdt n f v).daddr = s.daddr := rfl
@[simp] theorem State.setBdt_btable : (s.setBdt n f v).btable = s.btable := rfl
@[simp] theorem State.setBdt_cra : (s.setBdt n f v).cra = s.cra := rfl
@[simp] theorem State.setBdt_faults : (s.setBdt n f v).faults = s.faults := rfl
@[simp] theorem State.setBdt_phase : (s.setBdt n f v).phase = s.phase := rfl
@[simp] theorem State.setBdt_result : (s.setBdt n f v).result = s.result := rfl
@[simp] theorem State.setBdt_cmd0 : (s.setBdt n f v).cmd0 = s.cmd0 := rfl
@[simp] theorem State.setBdt_cmd1 : (s.setBdt n f v).cmd1 = s.cmd1 := rfl
@[simp] theorem State.setBdt_frame : (s.setBdt n f v).frame = s.frame := rfl
@[simp] theorem State.setBdt_notes : (s.setBdt n f v).notes = s.notes := rfl
@[simp] theorem State.setBdt_created : (s.setBdt n f v).created = s.created := rfl
@[simp] theorem State.setBdt_sm : (s.setBdt n f v).sm = s.sm := rfl
@[simp] theorem State.setBdt_wire : (s.setBdt n f v).wire = s.wire := rfl
@[simp] theorem State.setBdt_etsOf (k : Ep) : (s.setBdt n f v).etsOf k = s.etsOf k := rfl
@[simp] theorem State.setBdt_eprOf (k : Ep) : (s.setBdt n f v).eprOf k = s.eprOf k := rfl
@[simp] theorem State.setBdt_smByte (x : Word) : (s.setBdt n f v).smByte x = s.smByte x := rfl

/-- A descriptor write changes packet memory only. -/
theorem State.setBdt_eq : s.setBdt n f v = { s with pm := (s.setBdt n f v).pm } := rfl

end setBdt

theorem bdtFieldOffset_lt (f : BdtField) : bdtFieldOffset f % 2 = 0 ∧ bdtFieldOffset f + 1 < 8 := by
  cases f <;> decide

/-- Two descriptor words are the same word or two bytes apart. -/
theorem bdtOffset_ne (b : Half) {n k : Ep} {f g : BdtField} (h : n ≠ k ∨ f ≠ g) :
    bdtOffset b n f + 1 < bdtOffset b k g ∨ bdtOffset b k g + 1 < bdtOffset b n f := by
  have hn : n.val ≠ k.val ∨ f ≠ g := h.imp_left fun h e => h (Fin.ext e)
  cases f <;> cases g <;> simp [bdtOffset, bdtFieldOffset] at hn ⊢ <;> omega

theorem State.pmByte_setBdt (s : State) (n : Ep) (f : BdtField) (v : Half) (x : Nat) :
    (s.setBdt n f v).pmByte x =
      if x = bdtOffset s.btable n f then v.extractLsb' 0 8
      else if x = bdtOffset s.btable n f + 1 then v.extractLsb' 8 8
      else s.pmByte x := by
  unfold State.setBdt
  rw [State.setPmByte_pmByte, State.setPmByte_pmByte]
  split_ifs <;> first | rfl | omega

theorem half_split (v : Half) : v.extractLsb' 8 8 ++ v.extractLsb' 0 8 = v := by
  apply BitVec.eq_of_getLsbD_eq
  intro i hi
  simp only [BitVec.getLsbD_append, BitVec.getLsbD_extractLsb']
  by_cases h : i < 8
  · simp [h]
  · have : 8 + (i - 8) = i := by omega
    have h8 : i - 8 < 8 := by omega
    simp [h, this, h8]

theorem half_byte0 (h l : Byte) : (h ++ l : Half).extractLsb' 0 8 = l := by
  apply BitVec.eq_of_getLsbD_eq
  intro i hi
  simp only [BitVec.getLsbD_extractLsb', BitVec.getLsbD_append]
  simp [hi]

theorem half_byte1 (h l : Byte) : (h ++ l : Half).extractLsb' 8 8 = h := by
  apply BitVec.eq_of_getLsbD_eq
  intro i hi
  simp only [BitVec.getLsbD_extractLsb', BitVec.getLsbD_append]
  simp [hi]

@[simp] theorem State.bdt_setBdt_same (s : State) (n : Ep) (f : BdtField) (v : Half) : (s.setBdt n f v).bdt n f = v := by
  simp only [State.bdt, State.pmHalf, State.setBdt_btable, State.pmByte_setBdt]
  simp [half_split]

theorem State.bdt_setBdt_other (s : State) {n k : Ep} {f g : BdtField} (v : Half) (h : n ≠ k ∨ f ≠ g) :
    (s.setBdt n f v).bdt k g = s.bdt k g := by
  have := bdtOffset_ne s.btable h
  simp only [State.bdt, State.pmHalf, State.setBdt_btable, State.pmByte_setBdt]
  rw [if_neg (by omega), if_neg (by omega), if_neg (by omega), if_neg (by omega)]

/-- A descriptor word is read from two bytes of packet memory. -/
theorem State.bdt_congr {s t : State} {n : Ep} {f : BdtField} (hb : t.btable = s.btable)
    (h : ∀ x, s.InBdtField n f x → t.pmByte x = s.pmByte x) : t.bdt n f = s.bdt n f := by
  simp only [State.bdt, State.pmHalf, hb]
  rw [h _ (.inl rfl), h _ (.inr rfl)]

section bdtAt

variable {s : State} {n : Ep} (f : BdtField)

theorem State.DescriptorOk.offset (h : s.DescriptorOk n) :
    bdtOffset s.btable n f % 2 = 0 ∧ bdtOffset s.btable n f + 1 < Config.pmaSize := by
  obtain ⟨h1, h2⟩ := h
  have := bdtFieldOffset_lt f
  unfold bdtOffset
  omega

/-- A descriptor in packet memory can be read. -/
theorem bdtRead_at (h : s.DescriptorOk n) : bdtRead n f s = .ok (s.bdt n f) :=
  pmRead16_ok.2 ⟨(h.offset f).1, (h.offset f).2, rfl⟩

/-- A descriptor in packet memory can be written. -/
theorem bdtWrite_at (v : Half) (h : s.DescriptorOk n) : bdtWrite n f v s = .ok (s.setBdt n f v) :=
  pmWrite16_ok.2 ⟨(h.offset f).1, (h.offset f).2, rfl⟩

theorem bdtRead_ok {v : Half} (h : bdtRead n f s = .ok v) : v = s.bdt n f := (pmRead16_ok.1 h).2.2

theorem bdtWrite_ok {v : Half} {t : State} (h : bdtWrite n f v s = .ok t) :
    t = s.setBdt n f v ∧ bdtOffset s.btable n f + 1 < Config.pmaSize :=
  ⟨(pmWrite16_ok.1 h).2.2, (pmWrite16_ok.1 h).2.1⟩

end bdtAt

/-- A descriptor write keeps the canonical form of packet memory. -/
theorem State.wf_setBdt {s : State} {n : Ep} {f : BdtField} (v : Half)
    (ha : bdtOffset s.btable n f + 1 < Config.pmaSize) (h : Memory.wf Config.pmaSize s.pm) :
    Memory.wf Config.pmaSize (s.setBdt n f v).pm :=
  Memory.wf_write _ (Memory.wf_write _ h (by omega)) ha

/-- Where a descriptor lies depends on BTABLE alone. -/
theorem State.DescriptorOk.congr {s t : State} {n : Ep} (h : s.DescriptorOk n) (hb : t.btable = s.btable) :
    t.DescriptorOk n := by
  unfold State.DescriptorOk at *
  rwa [hb]

/-! ### Every memory operation keeps the canonical form -/

theorem wf_pmWrite8 {a : Nat} {v : Byte} {s t : State} (h : pmWrite8 a v s = .ok t) (hw : Memory.wf Config.pmaSize s.pm) :
    Memory.wf Config.pmaSize t.pm := by
  obtain ⟨ha, rfl⟩ := pmWrite8_ok.1 h
  exact Memory.wf_write _ hw ha

theorem wf_pmWrite16 {a : Nat} {v : Half} {s t : State} (h : pmWrite16 a v s = .ok t)
    (hw : Memory.wf Config.pmaSize s.pm) : Memory.wf Config.pmaSize t.pm := by
  obtain ⟨-, ha, rfl⟩ := pmWrite16_ok.1 h
  exact Memory.wf_write _ (Memory.wf_write _ hw (by omega)) ha

theorem State.wf_setSmByte {s : State} (a : Word) (v : Byte) (hw : Memory.wf smSize s.sm) :
    Memory.wf smSize (s.setSmByte a v).sm :=
  Memory.wf_write _ hw a.isLt

/-! ### The copy primitives -/

/-- What CopyIn does: the bytes of packet memory it writes, and nothing else (R70). -/
theorem copyIn_ok {src : Word} {dst len : Nat} {s t : State} (h : copyIn src dst len s = .ok t) :
    t = { s with pm := t.pm } ∧
      (∀ x, t.pmByte x = if dst ≤ x ∧ x < dst + len then s.smByte (src + BitVec.ofNat 32 (x - dst)) else s.pmByte x) ∧
      (Memory.wf Config.pmaSize s.pm → Memory.wf Config.pmaSize t.pm) := by
  induction len using Nat.twoStepInduction generalizing src dst s with
  | zero =>
    cases h
    refine ⟨rfl, fun x => ?_, id⟩
    rw [if_neg (by omega)]
  | one =>
    obtain ⟨ha, rfl⟩ := pmWrite8_ok.1 h
    refine ⟨rfl, fun x => ?_, fun hw => Memory.wf_write _ hw ha⟩
    rw [State.setPmByte_pmByte]
    by_cases hx : x = dst
    · subst hx; simp
    · rw [if_neg hx, if_neg (by omega)]
  | more n ih _ =>
    obtain ⟨u, hu, hc⟩ := Eff.bind_ok h
    obtain ⟨-, ha, rfl⟩ := pmWrite16_ok.1 hu
    obtain ⟨h1, h2, h3⟩ := ih hc
    refine ⟨by rw [h1]; rfl, fun x => ?_, fun hw => h3 (Memory.wf_write _ (Memory.wf_write _ hw (by omega)) ha)⟩
    rw [h2 x, half_byte0, half_byte1]
    simp only [State.setPmByte_smByte, State.setPmByte_pmByte]
    by_cases hx : dst + 2 ≤ x ∧ x < dst + 2 + n
    · rw [if_pos hx, if_pos (by omega)]
      have : x - dst = 2 + (x - (dst + 2)) := by omega
      rw [this, BitVec.ofNat_add, ← BitVec.add_assoc]
      rfl
    · rw [if_neg hx]
      by_cases h0 : x = dst
      · subst h0; simp
      · by_cases h1 : x = dst + 1
        · subst h1; simp
        · rw [if_neg h1, if_neg h0, if_neg (by omega)]

/-- A copy that is possible runs. -/
theorem copyIn_runs {src : Word} {dst len : Nat} {s : State} (h : CopyOk dst len) : ∃ t, copyIn src dst len s = .ok t := by
  induction len using Nat.twoStepInduction generalizing src dst s with
  | zero => exact ⟨s, rfl⟩
  | one => exact ⟨_, pmWrite8_ok.2 ⟨by have := h.2; omega, rfl⟩⟩
  | more n ih _ =>
    obtain ⟨h1, h2⟩ := h
    obtain ⟨t, ht⟩ := ih (src := src + 2) (dst := dst + 2)
      (s := (s.setPmByte dst (s.smByte src)).setPmByte (dst + 1) (s.smByte (src + 1))) ⟨by omega, by omega⟩
    refine ⟨t, ?_⟩
    rw [copyIn, pmWrite16_ok.2 ⟨by omega, by omega, rfl⟩, half_byte0, half_byte1]
    exact ht

/-- What CopyOut does: the bytes of system memory it writes, and nothing else (R71). -/
theorem copyOut_ok {src : Nat} {dst : Word} {len : Nat} {s t : State} (hl : len ≤ 65536)
    (h : copyOut src dst len s = .ok t) :
    t = { s with sm := t.sm } ∧
      (∀ y : Word, t.smByte y = if (y - dst).toNat < len then s.pmByte (src + (y - dst).toNat) else s.smByte y) ∧
      (Memory.wf smSize s.sm → Memory.wf smSize t.sm) := by
  have wf_set : ∀ (u : State) (a : Word) (v : Byte), Memory.wf smSize u.sm → Memory.wf smSize (u.setSmByte a v).sm :=
    fun u a v hw => Memory.wf_write v hw a.isLt
  have read_set : ∀ (u : State) (a y : Word) (v : Byte),
      (u.setSmByte a v).smByte y = if y = a then v else u.smByte y := by
    intro u a y v
    simp only [State.smByte, State.setSmByte, Memory.read_write, BitVec.toNat_inj]
  induction len using Nat.twoStepInduction generalizing src dst s with
  | zero =>
    cases h
    exact ⟨rfl, fun y => by simp, id⟩
  | one =>
    obtain ⟨b, hb, hc⟩ := Eff.bind_ok h
    obtain ⟨-, rfl⟩ := pmRead8_ok.1 hb
    cases hc
    refine ⟨rfl, fun y => ?_, wf_set _ _ _⟩
    rw [read_set]
    by_cases hy : y = dst
    · subst hy; simp
    · have : (y - dst).toNat ≠ 0 := by
        intro h0
        apply hy
        have : y - dst = 0 := BitVec.eq_of_toNat_eq (by simpa using h0)
        exact BitVec.sub_eq_iff_eq_add.1 this |>.trans (by simp)
      rw [if_neg hy, if_neg (by omega)]
  | more n ih _ =>
    obtain ⟨w, hw, hc⟩ := Eff.bind_ok h
    obtain ⟨-, -, rfl⟩ := pmRead16_ok.1 hw
    obtain ⟨h1, h2, h3⟩ := ih (by omega) hc
    refine ⟨by rw [h1]; rfl, fun y => ?_, fun hs => h3 (wf_set _ _ _ (wf_set _ _ _ hs))⟩
    rw [h2 y]
    simp only [State.pmHalf, half_byte0, half_byte1, read_set, State.setSmByte_pmByte]
    have e2 : (y - (dst + 2)).toNat = ((y - dst).toNat + (2 ^ 32 - 2)) % 2 ^ 32 := by
      have : y - (dst + 2) = (y - dst) - 2 := by rw [BitVec.sub_sub]
      rw [this, BitVec.toNat_sub]
      simp [Nat.add_comm]
    have hd := (y - dst).isLt
    by_cases h0 : (y - dst).toNat = 0
    · have hy : y = dst := by
        have : y - dst = 0 := BitVec.eq_of_toNat_eq (by simpa using h0)
        exact BitVec.sub_eq_iff_eq_add.1 this |>.trans (by simp)
      subst hy
      rw [if_neg (by omega)]
      simp
    · by_cases h1 : (y - dst).toNat = 1
      · have hy : y = dst + 1 := by
          have : y - dst = 1 := BitVec.eq_of_toNat_eq (by simpa using h1)
          rw [← BitVec.sub_add_cancel y dst, this, BitVec.add_comm]
        rw [if_neg (by omega), if_pos hy, if_pos (by omega), h1]
      · have hy0 : y ≠ dst := by rintro rfl; simp at h0
        have hy1 : y ≠ dst + 1 := by
          rintro rfl
          apply h1
          rw [BitVec.add_comm, BitVec.add_sub_cancel]; rfl
        rw [if_neg hy1, if_neg hy0]
        have : (y - (dst + 2)).toNat = (y - dst).toNat - 2 := by omega
        by_cases hlt : (y - dst).toNat < n + 2
        · rw [if_pos (by omega), if_pos hlt]
          congr 1
          omega
        · rw [if_neg (by omega), if_neg hlt]

/-- A copy that is possible runs. -/
theorem copyOut_runs {src : Nat} {dst : Word} {len : Nat} {s : State} (h : CopyOk src len) :
    ∃ t, copyOut src dst len s = .ok t := by
  induction len using Nat.twoStepInduction generalizing src dst s with
  | zero => exact ⟨s, rfl⟩
  | one =>
    refine ⟨s.setSmByte dst (s.pmByte src), ?_⟩
    rw [copyOut, pmRead8_ok.2 ⟨by have := h.2; omega, rfl⟩]
    rfl
  | more n ih _ =>
    obtain ⟨h1, h2⟩ := h
    rw [copyOut, pmRead16_ok.2 ⟨by omega, by omega, rfl⟩]
    exact ih ⟨by omega, by omega⟩

/-! ### The allocator -/

/-- ALLOC that fits (R120). -/
theorem allocate_fits {length : Half} {s : State} (h : s.Fits length) :
    allocate length s =
      (some s.pmaCursor, { s with pmaCursor := BitVec.ofNat 16 (s.pmaCursor.toNat + 2 * allocWords length) }) := by
  unfold State.Fits at h
  simp [allocate, Nat.not_lt.2 h]

/-- ALLOC that does not fit (R121). -/
theorem allocate_overrun {length : Half} {s : State} (h : ¬ s.Fits length) :
    allocate length s = (none, raiseFault .allocOverrun s) := by
  unfold State.Fits at h
  simp [allocate, Nat.not_le.1 h]

/-- What ALLOC can do. -/
theorem allocate_cases (length : Half) (s : State) :
    (s.Fits length ∧ allocate length s =
      (some s.pmaCursor, { s with pmaCursor := BitVec.ofNat 16 (s.pmaCursor.toNat + 2 * allocWords length) })) ∨
    (¬ s.Fits length ∧ allocate length s = (none, raiseFault .allocOverrun s)) := by
  by_cases h : s.Fits length
  · exact .inl ⟨h, allocate_fits h⟩
  · exact .inr ⟨h, allocate_overrun h⟩

/-- ALLOC keeps the range of the cursor (R21). -/
theorem allocate_cursor {length : Half} {s : State} (h : AllocCursorOk s.pmaCursor) (hf : s.Fits length) :
    AllocCursorOk (BitVec.ofNat 16 (s.pmaCursor.toNat + 2 * allocWords length)) ∧
      (BitVec.ofNat 16 (s.pmaCursor.toNat + 2 * allocWords length) : Half).toNat =
        s.pmaCursor.toNat + 2 * allocWords length := by
  unfold State.Fits at hf
  unfold AllocCursorOk at *
  simp only [Config.pmaSize] at *
  rw [BitVec.toNat_ofNat]
  omega

end Sys2Proof.Machine
end

