-- ==== Sys2Proof/Laws/Packets.lean ====
section
/-! SUPPORT. Laws of the status writes and of the packet operations: what each can do when it ends in a state. -/

namespace Sys2Proof.Machine

/-! ### The four status writes (R135) -/

theorem setTxValid_eq (n : Ep) (s : State) : setTxValid n s = s.setEpr n (s.eprOf n ||| 0x0030) := by
  unfold setTxValid setStatusOf eprWrite
  congr 1
  apply BitVec.eq_of_getLsbD_eq
  intro i hi
  rw [eprWriteWord_getLsbD _ _ _ hi]
  interval_cases i <;> simp [setStatusWord, fixedMask, statTxMask]

theorem setTxDisabled_eq (n : Ep) (s : State) : setTxDisabled n s = s.setEpr n (s.eprOf n &&& 0xFFCF) := by
  unfold setTxDisabled setStatusOf eprWrite
  congr 1
  apply BitVec.eq_of_getLsbD_eq
  intro i hi
  rw [eprWriteWord_getLsbD _ _ _ hi]
  interval_cases i <;> simp [setStatusWord, fixedMask, statTxMask]

theorem setRxValid_eq (n : Ep) (s : State) : setRxValid n s = s.setEpr n (s.eprOf n ||| 0x3000) := by
  unfold setRxValid setStatusOf eprWrite
  congr 1
  apply BitVec.eq_of_getLsbD_eq
  intro i hi
  rw [eprWriteWord_getLsbD _ _ _ hi]
  interval_cases i <;> simp [setStatusWord, fixedMask, statRxMask]

theorem setRxDisabled_eq (n : Ep) (s : State) : setRxDisabled n s = s.setEpr n (s.eprOf n &&& 0xCFFF) := by
  unfold setRxDisabled setStatusOf eprWrite
  congr 1
  apply BitVec.eq_of_getLsbD_eq
  intro i hi
  rw [eprWriteWord_getLsbD _ _ _ hi]
  interval_cases i <;> simp [setStatusWord, fixedMask, statRxMask]

/-! ### Clearing a completion flag (R136) -/

theorem eprWriteWord_clearCtrRx (cur val : Half) :
    eprWriteWord cur (clearCtrRxWord val) = (cur &&& 0x7870) ||| (val &&& 0x070F) ||| (cur &&& val &&& 0x0080) := by
  apply BitVec.eq_of_getLsbD_eq
  intro i hi
  rw [eprWriteWord_getLsbD _ _ _ hi]
  interval_cases i <;> simp [clearCtrRxWord]

theorem eprWriteWord_clearCtrTx (cur val : Half) :
    eprWriteWord cur (clearCtrTxWord val) = (cur &&& 0x7870) ||| (val &&& 0x070F) ||| (cur &&& val &&& 0x8000) := by
  apply BitVec.eq_of_getLsbD_eq
  intro i hi
  rw [eprWriteWord_getLsbD _ _ _ hi]
  interval_cases i <;> simp [clearCtrTxWord]

/-! ### Lengths (R11) -/

theorem minHalf_toNat (a b : Half) : (minHalf a b).toNat = min a.toNat b.toNat := by
  unfold minHalf
  split <;> omega

theorem minHalf_le_left (a b : Half) : (minHalf a b).toNat ≤ a.toNat := by
  rw [minHalf_toNat]; omega

/-- Inside its buffer a cursor's `completed` is the exact difference (R11). -/
theorem completed_toNat {buf cursor : Word} {len : Half} (h : CursorOk buf cursor len) (hc : cursor ≠ Config.cursorNone) :
    ((cursor - buf).setWidth 16).toNat = cursor.toNat - buf.toNat ∧ cursor.toNat - buf.toNat ≤ len.toNat := by
  obtain ⟨h1, h2, -⟩ := h hc
  have := len.isLt
  rw [BitVec.toNat_setWidth, BitVec.toNat_sub_of_le (by simpa [BitVec.le_def] using h1)]
  omega

theorem Ets.txPacketLength_toNat {e : Ets} (h : CursorOk e.txBuf e.txCursor e.txLen) (hc : e.txCursor ≠ Config.cursorNone) :
    e.txPacketLength.toNat = min e.packetSize.toNat (e.txLen.toNat - (e.txCursor.toNat - e.txBuf.toNat)) := by
  obtain ⟨h1, h2⟩ := completed_toNat h hc
  rw [Ets.txPacketLength, Ets.txCompleted, minHalf_toNat, BitVec.toNat_sub_of_le (by rw [BitVec.le_def, h1]; exact h2), h1]

theorem Ets.rxCopyLength_toNat {e : Ets} (r : Half) (h : CursorOk e.rxBuf e.rxCursor e.rxLen)
    (hc : e.rxCursor ≠ Config.cursorNone) :
    (e.rxCopyLength r).toNat = min r.toNat (e.rxLen.toNat - (e.rxCursor.toNat - e.rxBuf.toNat)) := by
  obtain ⟨h1, h2⟩ := completed_toNat h hc
  rw [Ets.rxCopyLength, Ets.rxCompleted, minHalf_toNat, BitVec.toNat_sub_of_le (by rw [BitVec.le_def, h1]; exact h2), h1]

/-- A cursor moved on by no more than the room left stays inside its buffer (R151, R167). -/
theorem CursorOk.advance {buf cursor : Word} {len k : Half} (h : CursorOk buf cursor len) (hc : cursor ≠ Config.cursorNone)
    (hk : k.toNat ≤ len.toNat - (cursor.toNat - buf.toNat)) : CursorOk buf (cursor + k.setWidth 32) len := by
  obtain ⟨h1, h2, h3⟩ := h hc
  intro _
  have hk16 := k.isLt
  simp only [Config.maxBufferEnd] at *
  rw [BitVec.toNat_add, BitVec.toNat_setWidth_of_le (by omega)]
  omega

theorem CursorOk.none (buf : Word) (len : Half) : CursorOk buf Config.cursorNone len := fun h => absurd rfl h

/-- A buffer that does not wrap, its cursor at its start (R12). -/
theorem CursorOk.start {buf : Word} {len : Half} (h : bufferWraps buf len = false) : CursorOk buf buf len := by
  intro _
  have : ¬ Config.maxBufferEnd < buf.toNat + len.toNat := by simpa [bufferWraps] using h
  omega

/-! ### SEND_NEXT_PACKET (R147) -/

/-- The lines after the lazy allocation. -/
theorem queuePacket_ok {n : Ep} {s t : State} (h : queuePacket n s = .ok t) :
    let e := s.etsOf n
    let len := e.txPacketLength
    let a := (s.bdt n .txAddr).toNat
    (t = { s with
        pm := t.pm
        ets := (s.setEts n
          { e with txCursor := if len = e.packetSize then e.txCursor + len.setWidth 32 else Config.cursorNone }).ets
        epr := (s.setEpr n (s.eprOf n ||| 0x0030)).epr }
      ∧ t.bdt n .txCount = len
      ∧ ∀ x, ¬ s.InBdtField n .txCount x →
          t.pmByte x = if a ≤ x ∧ x < a + len.toNat then s.smByte (e.txCursor + BitVec.ofNat 32 (x - a)) else s.pmByte x)
    ∧ (Memory.wf Config.pmaSize s.pm → Memory.wf Config.pmaSize t.pm) := by
  intro e len a
  obtain ⟨dst, hd, h⟩ := Eff.bind_ok h
  obtain rfl := bdtRead_ok _ hd
  obtain ⟨u, hu, h⟩ := Eff.bind_ok h
  obtain ⟨v, hv, h⟩ := Eff.bind_ok h
  cases h
  obtain ⟨c1, c2, c3⟩ := copyIn_ok hu
  obtain ⟨rfl, hlt⟩ := bdtWrite_ok _ hv
  have hb : u.btable = s.btable := by rw [c1]
  rw [setTxValid_eq]
  refine ⟨⟨?_, ?_, ?_⟩, fun hw => State.wf_setBdt _ hlt (c3 hw)⟩
  · rw [c1]
    simp [State.setEpr, State.setEts, State.setBdt, State.setPmByte, State.eprOf, len, e]
  · exact State.bdt_setBdt_same u n .txCount len
  · intro x hx
    simp only [State.InBdtField, ← hb] at hx
    simp only [State.setEpr_pmByte, State.setEts_pmByte, State.pmByte_setBdt]
    rw [if_neg (fun h => hx (.inl h)), if_neg (fun h => hx (.inr h)), c2 x]

theorem State.withTxBuffer_none {s : State} {n : Ep} (h : s.bdt n .txAddr ≠ 0) : s.withTxBuffer n = s :=
  if_neg h

theorem State.withTxBuffer_some {s : State} {n : Ep} (h : s.bdt n .txAddr = 0) (hf : s.Fits (s.etsOf n).packetSize) :
    s.withTxBuffer n =
      ({ s with pmaCursor := BitVec.ofNat 16 (s.pmaCursor.toNat + 2 * allocWords (s.etsOf n).packetSize) }).setBdt n .txAddr
        s.pmaCursor := by
  simp [State.withTxBuffer, h, allocate_fits hf]

theorem State.withRxBuffer_none {s : State} {n : Ep} (h : s.bdt n .rxAddr ≠ 0) : s.withRxBuffer n = s :=
  if_neg h

theorem State.withRxBuffer_some {s : State} {n : Ep} (h : s.bdt n .rxAddr = 0) (hf : s.Fits (s.etsOf n).packetSize) :
    s.withRxBuffer n =
      ({ s with pmaCursor := BitVec.ofNat 16 (s.pmaCursor.toNat + 2 * allocWords (s.etsOf n).packetSize) }).setBdt n .rxAddr
        s.pmaCursor := by
  simp [State.withRxBuffer, h, allocate_fits hf]

/-- SEND_NEXT_PACKET goes on only for a packet size in range (R12). -/
theorem sendNext_size {n : Ep} {s t : State} (h : sendNext n s = .ok t) :
    (s.etsOf n).packetSize.toNat ≤ Config.maxPacketSize := by
  by_contra hs
  exact refuse_ne_ok _ _ ((if_pos (Nat.lt_of_not_le hs)).symm.trans h)

/-- What SEND_NEXT_PACKET can do: nothing, an overrun, or the next packet queued. -/
theorem sendNext_ok {n : Ep} {s t : State} (h : sendNext n s = .ok t) :
    ((s.etsOf n).TxNothing ∧ t = s) ∨
    (¬ (s.etsOf n).TxNothing ∧ s.bdt n .txAddr = 0 ∧ ¬ s.Fits (s.etsOf n).packetSize ∧ t = raiseFault .allocOverrun s) ∨
    (¬ (s.etsOf n).TxNothing ∧ (s.bdt n .txAddr = 0 → s.Fits (s.etsOf n).packetSize) ∧ s.QueuedPacket n t ∧
      (Memory.wf Config.pmaSize s.pm → Memory.wf Config.pmaSize t.pm)) := by
  unfold sendNext at h
  dsimp only at h
  split at h
  · exact absurd h (refuse_ne_ok _ _)
  · split at h
    · next h0 => cases h; exact .inl ⟨h0, rfl⟩
    · next h0 =>
      right
      obtain ⟨a, ha, h⟩ := Eff.bind_ok h
      obtain rfl := bdtRead_ok _ ha
      split at h
      · next hz =>
        rcases allocate_cases (s.etsOf n).packetSize s with ⟨hf, he⟩ | ⟨hf, he⟩
        · right
          rw [he] at h
          obtain ⟨u, hu, h⟩ := Eff.bind_ok h
          obtain ⟨rfl, hlt⟩ := bdtWrite_ok _ hu
          rw [← State.withTxBuffer_some hz hf] at h
          have hs := State.withTxBuffer_some hz hf
          obtain ⟨h1, h2⟩ := queuePacket_ok h
          have e1 : (s.withTxBuffer n).etsOf n = s.etsOf n := by rw [hs]; rfl
          have e2 : (s.withTxBuffer n).eprOf n = s.eprOf n := by rw [hs]; rfl
          have e3 : (s.withTxBuffer n).ets = s.ets := by rw [hs]; rfl
          have e4 : (s.withTxBuffer n).epr = s.epr := by rw [hs]; rfl
          have e5 : (s.withTxBuffer n).btable = s.btable := by rw [hs]; rfl
          have e6 : (s.withTxBuffer n).sm = s.sm := by rw [hs]; rfl
          refine ⟨h0, fun _ => hf, ?_, fun hw => h2 ?_⟩
          · simpa only [State.QueuedPacket, State.setEts, State.setEpr, State.InBdtField, State.smByte, e1, e2, e3, e4, e5,
              e6] using h1
          · rw [hs]; exact State.wf_setBdt _ hlt hw
        · left
          rw [he] at h
          cases h
          exact ⟨h0, hz, hf, rfl⟩
      · next hz =>
        right
        obtain ⟨h1, h2⟩ := queuePacket_ok h
        refine ⟨h0, fun h => absurd h hz, ?_, h2⟩
        unfold State.QueuedPacket
        rw [State.withTxBuffer_none hz]
        exact h1

/-! ### BEGIN_PACKET_RECEIVE and END_PACKET_RECEIVE (R162, R163) -/

/-- BEGIN_PACKET_RECEIVE goes on only for a packet size in range (R12). -/
theorem beginReceive_size {n : Ep} {s t : State} (h : beginReceive n s = .ok t) :
    (s.etsOf n).packetSize.toNat ≤ Config.maxPacketSize := by
  by_contra hs
  exact refuse_ne_ok _ _ ((if_pos (Nat.lt_of_not_le hs)).symm.trans h)

/-- What BEGIN_PACKET_RECEIVE can do: nothing, an overrun, or the direction armed. -/
theorem beginReceive_ok {n : Ep} {s t : State} (h : beginReceive n s = .ok t) :
    ((s.etsOf n).RxNothing ∧ t = s) ∨
    (¬ (s.etsOf n).RxNothing ∧ s.bdt n .rxAddr = 0 ∧ ¬ s.Fits (s.etsOf n).packetSize ∧ t = raiseFault .allocOverrun s) ∨
    (¬ (s.etsOf n).RxNothing ∧ (s.bdt n .rxAddr = 0 → s.Fits (s.etsOf n).packetSize) ∧ t = s.armedReceive n ∧
      (Memory.wf Config.pmaSize s.pm → Memory.wf Config.pmaSize t.pm)) := by
  have arm : ∀ {u v : State}, armReceive n u = .ok v →
      v = (u.setBdt n .rxCount (blockEnc (u.etsOf n).packetSize)).setEpr n (u.eprOf n ||| 0x3000) ∧
        (Memory.wf Config.pmaSize u.pm → Memory.wf Config.pmaSize v.pm) := by
    intro u v hv
    obtain ⟨w, hw, hv⟩ := Eff.bind_ok hv
    obtain ⟨rfl, hlt⟩ := bdtWrite_ok _ hw
    cases hv
    rw [setRxValid_eq]
    exact ⟨rfl, fun h => State.wf_setBdt _ hlt h⟩
  unfold beginReceive at h
  dsimp only at h
  split at h
  · exact absurd h (refuse_ne_ok _ _)
  · split at h
    · next h0 => cases h; exact .inl ⟨h0, rfl⟩
    · next h0 =>
      right
      obtain ⟨a, ha, h⟩ := Eff.bind_ok h
      obtain rfl := bdtRead_ok _ ha
      split at h
      · next hz =>
        rcases allocate_cases (s.etsOf n).packetSize s with ⟨hf, he⟩ | ⟨hf, he⟩
        · right
          rw [he] at h
          obtain ⟨u, hu, h⟩ := Eff.bind_ok h
          obtain ⟨rfl, hlt⟩ := bdtWrite_ok _ hu
          obtain ⟨rfl, h2⟩ := arm h
          refine ⟨h0, fun _ => hf, ?_, fun hw => h2 (State.wf_setBdt _ hlt hw)⟩
          rw [State.armedReceive, State.withRxBuffer_some hz hf]
          rfl
        · left
          rw [he] at h
          cases h
          exact ⟨h0, hz, hf, rfl⟩
      · next hz =>
        right
        obtain ⟨rfl, h2⟩ := arm h
        refine ⟨h0, fun h => absurd h hz, ?_, h2⟩
        rw [State.armedReceive, State.withRxBuffer_none hz]

/-- What END_PACKET_RECEIVE can do: nothing, a delivery that ends the transfer, or one that goes on to re-arm. -/
theorem endReceive_ok {n : Ep} {s t : State} (h : endReceive n s = .ok t) :
    ((s.etsOf n).rxCursor = Config.cursorNone ∧ t = s) ∨
    ((s.etsOf n).rxCursor ≠ Config.cursorNone ∧ ∃ u, s.Delivered n u ∧
      (Memory.wf smSize s.sm → Memory.wf smSize u.sm) ∧
      ((receivedCount (s.bdt n .rxCount) ≠ (s.etsOf n).packetSize ∧
          t = u.setEts n { s.etsOf n with rxCursor := Config.cursorNone }) ∨
        (receivedCount (s.bdt n .rxCount) = (s.etsOf n).packetSize ∧
          beginReceive n (u.setEts n
            { s.etsOf n with
              rxCursor := (s.etsOf n).rxCursor +
                ((s.etsOf n).rxCopyLength (receivedCount (s.bdt n .rxCount))).setWidth 32 }) = .ok t))) := by
  unfold endReceive at h
  dsimp only at h
  split at h
  · next h0 => cases h; exact .inl ⟨h0, rfl⟩
  · next h0 =>
    right
    obtain ⟨c, hc, h⟩ := Eff.bind_ok h
    obtain rfl := bdtRead_ok _ hc
    obtain ⟨a, ha, h⟩ := Eff.bind_ok h
    obtain rfl := bdtRead_ok _ ha
    obtain ⟨u, hu, h⟩ := Eff.bind_ok h
    obtain ⟨c1, c2, c3⟩ := copyOut_ok (by omega) hu
    refine ⟨h0, u, ⟨c1, c2⟩, c3, ?_⟩
    split at h
    · next hr => cases h; exact .inl ⟨hr, rfl⟩
    · next hr => exact .inr ⟨by simpa using hr, h⟩

end Sys2Proof.Machine
end

