-- ==== Sys2Proof/Laws/Frames.lean ====
section
/-! SUPPORT. What a packet operation on one endpoint may change at all, and that each of them stays inside it. -/

namespace Sys2Proof.Machine

/-- Everything a packet operation on endpoint `n` leaves alone, and the direction what it changes moves in: the cursor up,
FAULT bits on, the notification trace longer. -/
structure PacketStep (n : Ep) (s t : State) : Prop where
  eq : t = { s with
    pmaCursor := t.pmaCursor, ets := t.ets, pm := t.pm, epr := t.epr, faults := t.faults, sm := t.sm, notes := t.notes }
  cursor : s.pmaCursor.toNat ≤ t.pmaCursor.toNat
  faults : ∀ i, s.faults.getLsbD i = true → t.faults.getLsbD i = true
  notes : s.notes <+: t.notes
  others : ∀ k, k ≠ n → t.etsOf k = s.etsOf k ∧ t.eprOf k = s.eprOf k

section PacketStep

variable {n : Ep} {s t u : State}

theorem PacketStep.refl (n : Ep) (s : State) : PacketStep n s s :=
  ⟨rfl, Nat.le_refl _, fun _ h => h, List.prefix_refl _, fun _ _ => ⟨rfl, rfl⟩⟩

theorem PacketStep.trans (h : PacketStep n s t) (g : PacketStep n t u) : PacketStep n s u where
  eq := by rw [g.eq, h.eq]
  cursor := Nat.le_trans h.cursor g.cursor
  faults := fun i hi => g.faults i (h.faults i hi)
  notes := h.notes.trans g.notes
  others := fun k hk => ⟨(g.others k hk).1.trans (h.others k hk).1, (g.others k hk).2.trans (h.others k hk).2⟩

theorem PacketStep.setEts (n : Ep) (s : State) (e : Ets) : PacketStep n s (s.setEts n e) :=
  ⟨rfl, Nat.le_refl _, fun _ h => h, List.prefix_refl _, fun _ hk => ⟨State.setEts_etsOf_other _ _ hk, rfl⟩⟩

theorem PacketStep.setEpr (n : Ep) (s : State) (w : Half) : PacketStep n s (s.setEpr n w) :=
  ⟨rfl, Nat.le_refl _, fun _ h => h, List.prefix_refl _, fun _ hk => ⟨rfl, State.setEpr_eprOf_other _ _ hk⟩⟩

theorem PacketStep.setBdt (n k : Ep) (s : State) (f : BdtField) (v : Half) : PacketStep n s (s.setBdt k f v) :=
  ⟨rfl, Nat.le_refl _, fun _ h => h, List.prefix_refl _, fun _ _ => ⟨rfl, rfl⟩⟩

theorem PacketStep.raiseFault (n : Ep) (s : State) (c : FaultCause) : PacketStep n s (raiseFault c s) :=
  ⟨rfl, Nat.le_refl _, fun i h => by rw [raiseFault_faults, BitVec.getLsbD_or, h, Bool.true_or], List.prefix_refl _,
    fun _ _ => ⟨rfl, rfl⟩⟩

theorem PacketStep.notify (n : Ep) (s : State) (code ep : BitVec 8) (b : Word) (l : Half) :
    PacketStep n s (notifyApp code ep b l s) :=
  ⟨rfl, Nat.le_refl _, fun _ h => h, List.prefix_append _ _, fun _ _ => ⟨rfl, rfl⟩⟩

theorem PacketStep.allocate (n : Ep) (s : State) (l : Half) : PacketStep n s (allocate l s).2 := by
  rcases allocate_cases l s with ⟨hf, he⟩ | ⟨-, he⟩ <;> rw [he]
  · refine ⟨rfl, ?_, fun _ h => h, List.prefix_refl _, fun _ _ => ⟨rfl, rfl⟩⟩
    unfold State.Fits at hf
    simp only [Config.pmaSize] at hf
    show s.pmaCursor.toNat ≤ (BitVec.ofNat 16 _).toNat
    rw [BitVec.toNat_ofNat]
    omega
  · exact PacketStep.raiseFault n s _

theorem PacketStep.withTxBuffer (n : Ep) (s : State) : PacketStep n s (s.withTxBuffer n) := by
  unfold State.withTxBuffer
  split
  · exact (PacketStep.allocate n s _).trans (PacketStep.setBdt _ _ _ _ _)
  · exact PacketStep.refl n s

theorem PacketStep.withRxBuffer (n : Ep) (s : State) : PacketStep n s (s.withRxBuffer n) := by
  unfold State.withRxBuffer
  split
  · exact (PacketStep.allocate n s _).trans (PacketStep.setBdt _ _ _ _ _)
  · exact PacketStep.refl n s

theorem State.withTxBuffer_ets (s : State) (n : Ep) : (s.withTxBuffer n).ets = s.ets ∧ (s.withTxBuffer n).epr = s.epr ∧
    (s.withTxBuffer n).sm = s.sm ∧ (s.withTxBuffer n).notes = s.notes := by
  unfold State.withTxBuffer
  split
  · rcases allocate_cases (s.etsOf n).packetSize s with ⟨-, he⟩ | ⟨-, he⟩ <;> rw [he] <;> exact ⟨rfl, rfl, rfl, rfl⟩
  · exact ⟨rfl, rfl, rfl, rfl⟩

theorem State.withRxBuffer_ets (s : State) (n : Ep) : (s.withRxBuffer n).ets = s.ets ∧ (s.withRxBuffer n).epr = s.epr ∧
    (s.withRxBuffer n).sm = s.sm ∧ (s.withRxBuffer n).notes = s.notes := by
  unfold State.withRxBuffer
  split
  · rcases allocate_cases (s.etsOf n).packetSize s with ⟨-, he⟩ | ⟨-, he⟩ <;> rw [he] <;> exact ⟨rfl, rfl, rfl, rfl⟩
  · exact ⟨rfl, rfl, rfl, rfl⟩

/-! ### The packet operations -/

theorem QueuedPacket.packetStep (h : s.QueuedPacket n t) : PacketStep n s t := by
  have w := PacketStep.withTxBuffer n s
  obtain ⟨h1, -, -⟩ := h
  obtain ⟨e1, e2, -, -⟩ := s.withTxBuffer_ets n
  refine ⟨?_, ?_, ?_, ?_, fun k hk => ⟨?_, ?_⟩⟩
  · rw [h1, w.eq]
  · rw [h1]; exact w.cursor
  · rw [h1]; exact w.faults
  · rw [h1]; exact w.notes
  · rw [h1]; exact State.setEts_etsOf_other s _ hk
  · rw [h1]; exact State.setEpr_eprOf_other s _ hk

theorem sendNext_step (h : sendNext n s = .ok t) : PacketStep n s t := by
  rcases sendNext_ok h with ⟨-, rfl⟩ | ⟨-, -, -, rfl⟩ | ⟨-, -, hq, -⟩
  · exact PacketStep.refl n t
  · exact PacketStep.raiseFault n s _
  · exact QueuedPacket.packetStep hq

theorem State.armedReceive_step (s : State) (n : Ep) : PacketStep n s (s.armedReceive n) :=
  ((PacketStep.withRxBuffer n s).trans (PacketStep.setBdt n n _ _ _)).trans (PacketStep.setEpr n _ _)

theorem beginReceive_step (h : beginReceive n s = .ok t) : PacketStep n s t := by
  rcases beginReceive_ok h with ⟨-, rfl⟩ | ⟨-, -, -, rfl⟩ | ⟨-, -, rfl, -⟩
  · exact PacketStep.refl n t
  · exact PacketStep.raiseFault n s _
  · exact s.armedReceive_step n

theorem Delivered.packetStep (h : s.Delivered n t) : PacketStep n s t := by
  rw [h.1]
  exact ⟨rfl, Nat.le_refl _, fun _ h => h, List.prefix_refl _, fun _ _ => ⟨rfl, rfl⟩⟩

theorem endReceive_step (h : endReceive n s = .ok t) : PacketStep n s t := by
  rcases endReceive_ok h with ⟨-, rfl⟩ | ⟨-, u, hu, -, ⟨-, rfl⟩ | ⟨-, hb⟩⟩
  · exact PacketStep.refl n t
  · exact (Delivered.packetStep hu).trans (PacketStep.setEts n u _)
  · exact ((Delivered.packetStep hu).trans (PacketStep.setEts n u _)).trans (beginReceive_step hb)

theorem cancelTx_step (n : Ep) (s : State) : PacketStep n s (cancelTx n s) :=
  (PacketStep.setEts n s _).trans (PacketStep.setEpr n _ _)

theorem cancelRx_step (n : Ep) (s : State) : PacketStep n s (cancelRx n s) :=
  (PacketStep.setEts n s _).trans (PacketStep.setEpr n _ _)

theorem sendOf_step {b : Word} {l : Half} (h : sendOf n b l s = .ok t) : PacketStep n s t := by
  unfold sendOf at h
  split at h
  · cases h; exact cancelTx_step n s
  · split at h
    · cases h
    · exact (PacketStep.setEts n s _).trans (sendNext_step h)

theorem receiveOf_step {b : Word} {l : Half} (h : receiveOf n b l s = .ok t) : PacketStep n s t := by
  unfold receiveOf at h
  split at h
  · cases h; exact cancelRx_step n s
  · split at h
    · cases h
    · exact (PacketStep.setEts n s _).trans (beginReceive_step h)

theorem ctlSetup_step (h : ctlSetup s = .ok t) : PacketStep 0 s t := (PacketStep.notify 0 s _ _ _ _).trans (receiveOf_step h)

theorem rxComplete_step {val : Half} (h : rxCompleteOf n val s = .ok t) : PacketStep n s t := by
  obtain ⟨u, hu, h⟩ := Eff.bind_ok h
  have hs : PacketStep n s (clearCtrRxOf n val u) := (endReceive_step hu).trans (PacketStep.setEpr n u _)
  dsimp only at h
  split at h
  · split at h
    · next hn =>
      subst hn
      split at h
      · exact hs.trans (ctlSetup_step h)
      · cases h; exact hs.trans (PacketStep.notify 0 _ _ _ _ _)
    · cases h; exact hs.trans (PacketStep.notify n _ _ _ _ _)
  · cases h; exact hs

theorem txComplete_step {val : Half} (h : txCompleteOf n val s = .ok t) : PacketStep n s t := by
  obtain ⟨u, hu, h⟩ := Eff.bind_ok h
  have hs : PacketStep n s (clearCtrTxOf n val u) := (sendNext_step hu).trans (PacketStep.setEpr n u _)
  dsimp only at h
  split at h
  · split at h
    · next hn => subst hn; cases h; exact hs.trans (PacketStep.notify 0 _ _ _ _ _)
    · cases h; exact hs.trans (PacketStep.notify n _ _ _ _ _)
  · cases h; exact hs

theorem dispatchEp_step (h : dispatchEpOf s = .ok t) : PacketStep s.epId s t := by
  unfold dispatchEpOf at h
  dsimp only at h
  split at h
  · obtain ⟨u, hu, h⟩ := Eff.bind_ok h
    split at h
    · exact (rxComplete_step hu).trans (txComplete_step h)
    · cases h; exact rxComplete_step hu
  · obtain ⟨u, hu, h⟩ := Eff.bind_ok h
    cases hu
    split at h
    · exact txComplete_step h
    · cases h; exact PacketStep.refl _ _

/-! ### Who writes system memory -/

theorem sendNext_sm (h : sendNext n s = .ok t) : t.sm = s.sm := by
  rcases sendNext_ok h with ⟨-, rfl⟩ | ⟨-, -, -, rfl⟩ | ⟨-, -, hq, -⟩
  · rfl
  · rfl
  · rw [hq.1]; exact (s.withTxBuffer_ets n).2.2.1

theorem beginReceive_sm (h : beginReceive n s = .ok t) : t.sm = s.sm := by
  rcases beginReceive_ok h with ⟨-, rfl⟩ | ⟨-, -, -, rfl⟩ | ⟨-, -, rfl, -⟩
  · rfl
  · rfl
  · exact (s.withRxBuffer_ets n).2.2.1

end PacketStep

end Sys2Proof.Machine
end

