-- ==== Sys2Proof/Laws/Invariant.lean ====
section
/-! SUPPORT. The invariant through the packet operations: each of them keeps it. -/

namespace Sys2Proof.Machine

section Invariant

variable {n : Ep} {s t : State}

/-- A packet operation keeps the invariant when it keeps both memories in form, the allocator's cursor in its range, and
the two cursors of its own endpoint inside their buffers. -/
theorem State.Inv.packet (h : s.Inv) (p : PacketStep n s t) (hpm : Memory.wf Config.pmaSize t.pm)
    (hsm : Memory.wf smSize t.sm) (hc : s.created = true → AllocCursorOk t.pmaCursor)
    (htx : CursorOk (t.etsOf n).txBuf (t.etsOf n).txCursor (t.etsOf n).txLen)
    (hrx : CursorOk (t.etsOf n).rxBuf (t.etsOf n).rxCursor (t.etsOf n).rxLen) : t.Inv where
  params := by rw [p.eq]; exact h.params
  pm := hpm
  sm := hsm
  btable := by rw [p.eq]; exact h.btable
  cursor := fun hk => hc (by rw [p.eq] at hk; exact hk)
  tx := fun k => by
    by_cases hk : k = n
    · rw [hk]; exact htx
    · rw [(p.others k hk).1]; exact h.tx k
  rx := fun k => by
    by_cases hk : k = n
    · rw [hk]; exact hrx
    · rw [(p.others k hk).1]; exact h.rx k
  frame := by rw [p.eq]; exact h.frame

theorem State.Inv.setEpr (h : s.Inv) (n : Ep) (w : Half) : (s.setEpr n w).Inv :=
  h.packet (PacketStep.setEpr n s w) h.pm h.sm h.cursor (h.tx n) (h.rx n)

theorem State.Inv.notify (h : s.Inv) (code ep : BitVec 8) (b : Word) (l : Half) : (notifyApp code ep b l s).Inv :=
  h.packet (PacketStep.notify 0 s code ep b l) h.pm h.sm h.cursor (h.tx 0) (h.rx 0)

theorem State.Inv.raiseFault (h : s.Inv) (c : FaultCause) : (raiseFault c s).Inv :=
  h.packet (PacketStep.raiseFault 0 s c) h.pm h.sm h.cursor (h.tx 0) (h.rx 0)

theorem State.Inv.setEts (h : s.Inv) (n : Ep) {e : Ets} (htx : CursorOk e.txBuf e.txCursor e.txLen)
    (hrx : CursorOk e.rxBuf e.rxCursor e.rxLen) : (s.setEts n e).Inv :=
  h.packet (PacketStep.setEts n s e) h.pm h.sm h.cursor (by rwa [State.setEts_etsOf_same])
    (by rwa [State.setEts_etsOf_same])

theorem State.Inv.allocate (h : s.Inv) (l : Half) : (allocate l s).2.Inv := by
  rcases allocate_cases l s with ⟨hf, he⟩ | ⟨-, he⟩
  · exact h.packet (PacketStep.allocate 0 s l) (by rw [he]; exact h.pm) (by rw [he]; exact h.sm)
      (fun hk => by rw [he]; exact (allocate_cursor (h.cursor hk) hf).1) (by rw [he]; exact h.tx 0) (by rw [he]; exact h.rx 0)
  · rw [he]; exact h.raiseFault _

theorem State.withTxBuffer_cursor (h : s.Inv) (hf : s.bdt n .txAddr = 0 → s.Fits (s.etsOf n).packetSize)
    (hk : s.created = true) : AllocCursorOk (s.withTxBuffer n).pmaCursor := by
  by_cases hz : s.bdt n .txAddr = 0
  · rw [State.withTxBuffer_some hz (hf hz)]; exact (allocate_cursor (h.cursor hk) (hf hz)).1
  · rw [State.withTxBuffer_none hz]; exact h.cursor hk

theorem State.withRxBuffer_cursor (h : s.Inv) (hf : s.bdt n .rxAddr = 0 → s.Fits (s.etsOf n).packetSize)
    (hk : s.created = true) : AllocCursorOk (s.withRxBuffer n).pmaCursor := by
  by_cases hz : s.bdt n .rxAddr = 0
  · rw [State.withRxBuffer_some hz (hf hz)]; exact (allocate_cursor (h.cursor hk) (hf hz)).1
  · rw [State.withRxBuffer_none hz]; exact h.cursor hk

theorem sendNext_inv (h : s.Inv) (e : sendNext n s = .ok t) : t.Inv := by
  have p := sendNext_step e
  rcases sendNext_ok e with ⟨-, rfl⟩ | ⟨-, -, -, rfl⟩ | ⟨hn, hf, hq, hw⟩
  · exact h
  · exact h.raiseFault _
  · have hc : (s.etsOf n).txCursor ≠ Config.cursorNone := fun hc => hn (.inl hc)
    have he : t.etsOf n = { s.etsOf n with
        txCursor := if (s.etsOf n).txPacketLength = (s.etsOf n).packetSize then
          (s.etsOf n).txCursor + (s.etsOf n).txPacketLength.setWidth 32 else Config.cursorNone } := by
      have h1 := hq.1
      rw [h1]
      exact State.setEts_etsOf_same s n _
    refine h.packet p (hw h.pm) ?_ (fun hk => ?_) ?_ (by rw [he]; exact h.rx n)
    · have h1 := hq.1
      rw [h1]
      show Memory.wf smSize (s.withTxBuffer n).sm
      rw [(s.withTxBuffer_ets n).2.2.1]
      exact h.sm
    · have h1 := hq.1
      rw [h1]
      exact State.withTxBuffer_cursor h hf hk
    · rw [he]
      dsimp only
      split
      · exact (h.tx n).advance hc (by rw [Ets.txPacketLength_toNat (h.tx n) hc]; omega)
      · exact CursorOk.none _ _

theorem beginReceive_inv (h : s.Inv) (e : beginReceive n s = .ok t) : t.Inv := by
  have p := beginReceive_step e
  have hs := beginReceive_sm e
  rcases beginReceive_ok e with ⟨-, rfl⟩ | ⟨-, -, -, rfl⟩ | ⟨-, hf, rfl, hw⟩
  · exact h
  · exact h.raiseFault _
  · have he : (s.armedReceive n).etsOf n = s.etsOf n := by
      show (s.withRxBuffer n).etsOf n = s.etsOf n
      unfold State.etsOf
      rw [(s.withRxBuffer_ets n).1]
    exact h.packet p (hw h.pm) (by rw [hs]; exact h.sm) (State.withRxBuffer_cursor h hf) (by rw [he]; exact h.tx n)
      (by rw [he]; exact h.rx n)

theorem Delivered.inv {u : State} (h : s.Inv) (hu : s.Delivered n u) (hw : Memory.wf smSize u.sm) : u.Inv := by
  have h1 := hu.1
  refine h.packet (Delivered.packetStep hu) ?_ hw ?_ ?_ ?_ <;> rw [h1]
  · exact h.pm
  · exact h.cursor
  · exact h.tx n
  · exact h.rx n

theorem endReceive_inv (h : s.Inv) (e : endReceive n s = .ok t) : t.Inv := by
  rcases endReceive_ok e with ⟨-, rfl⟩ | ⟨hc, u, hu, hw, ⟨-, rfl⟩ | ⟨-, hb⟩⟩
  · exact h
  · exact (Delivered.inv h hu (hw h.sm)).setEts n (h.tx n) (CursorOk.none _ _)
  · refine beginReceive_inv ((Delivered.inv h hu (hw h.sm)).setEts n (by exact h.tx n) ?_) hb
    exact (h.rx n).advance hc (by rw [Ets.rxCopyLength_toNat _ (h.rx n) hc]; omega)

theorem sendOf_inv {b : Word} {l : Half} (h : s.Inv) (e : sendOf n b l s = .ok t) : t.Inv := by
  unfold sendOf at e
  split at e
  · cases e
    exact (h.setEts n (CursorOk.none _ _) (by exact h.rx n)).setEpr n _
  · split at e
    · cases e
    · next hb => exact sendNext_inv (h.setEts n (CursorOk.start (eq_false_of_ne_true hb)) (by exact h.rx n)) e

theorem receiveOf_inv {b : Word} {l : Half} (h : s.Inv) (e : receiveOf n b l s = .ok t) : t.Inv := by
  unfold receiveOf at e
  split at e
  · cases e
    exact (h.setEts n (by exact h.tx n) (CursorOk.none _ _)).setEpr n _
  · split at e
    · cases e
    · next hb => exact beginReceive_inv (h.setEts n (by exact h.tx n) (CursorOk.start (eq_false_of_ne_true hb))) e

theorem ctlSetup_inv (h : s.Inv) (e : ctlSetup s = .ok t) : t.Inv := receiveOf_inv (h.notify _ _ _ _) e

theorem rxComplete_inv {val : Half} (h : s.Inv) (e : rxCompleteOf n val s = .ok t) : t.Inv := by
  obtain ⟨u, hu, e⟩ := Eff.bind_ok e
  have hi : (clearCtrRxOf n val u).Inv := (endReceive_inv h hu).setEpr n _
  dsimp only at e
  split at e
  · split at e
    · split at e
      · exact ctlSetup_inv hi e
      · cases e; exact hi.notify _ _ _ _
    · cases e; exact hi.notify _ _ _ _
  · cases e; exact hi

theorem txComplete_inv {val : Half} (h : s.Inv) (e : txCompleteOf n val s = .ok t) : t.Inv := by
  obtain ⟨u, hu, e⟩ := Eff.bind_ok e
  have hi : (clearCtrTxOf n val u).Inv := (sendNext_inv h hu).setEpr n _
  dsimp only at e
  split at e
  · split at e <;> (cases e; exact hi.notify _ _ _ _)
  · cases e; exact hi

theorem dispatchEp_inv (h : s.Inv) (e : dispatchEpOf s = .ok t) : t.Inv := by
  unfold dispatchEpOf at e
  dsimp only at e
  split at e
  · obtain ⟨u, hu, e⟩ := Eff.bind_ok e
    split at e
    · exact txComplete_inv (rxComplete_inv h hu) e
    · cases e; exact rxComplete_inv h hu
  · obtain ⟨u, hu, e⟩ := Eff.bind_ok e
    cases hu
    split at e
    · exact txComplete_inv h e
    · cases e; exact h

/-- A change of the stored flags keeps the invariant, and so do the other registers the invariant does not name. -/
theorem State.Inv.istrWrite (h : s.Inv) (w : Half) : (istrWrite w s).Inv :=
  ⟨h.params, h.pm, h.sm, h.btable, h.cursor, h.tx, h.rx, h.frame⟩

end Invariant

end Sys2Proof.Machine
end

