-- ==== Sys2Proof/Laws/PerInstr.lean ====
section
/-! SUPPORT. Statements made for every instruction, one lemma per constructor. EncodeOpcode: an operation has a frame exactly
when it has an opcode (R100, R102), and that frame carries the opcode in CMD0[31:24] (R91, R92). -/

namespace Sys2Proof.Laws.EncodeOpcode

def Statement (i : Instr) : Prop :=
  (encode i).isSome = i.opcode.isSome ∧ ∀ f opc, encode i = some f → i.opcode = some opc → opcodeOf (frameCmd0 f) = opc

/-- The opcode of a frame put together from its fields. -/
theorem opcodeOf_frameFrom (opcode ep : BitVec 8) (a16 : Half) (b32 : Word) :
    opcodeOf (frameCmd0 (frameFrom opcode ep a16 b32)) = opcode := by
  apply BitVec.eq_of_getLsbD_eq
  intro i hi
  unfold opcodeOf frameCmd0 frameFrom frameOf
  rw [BitVec.getLsbD_extractLsb', BitVec.getLsbD_extractLsb', BitVec.getLsbD_append, BitVec.getLsbD_append]
  have h1 : 24 + i < 32 := by omega
  have h2 : ¬ 24 + i < 16 := by omega
  have h3 : 24 + i - 16 - 8 = i := by omega
  simp only [hi, h1, h2, decide_true, Bool.true_and, Nat.zero_add, if_true, if_false]
  rw [BitVec.getLsbD_append]
  simp only [show ¬ 24 + i - 16 < 8 by omega, h3]
  simp

theorem of_frame {i : Instr} {opcode ep : BitVec 8} {a16 : Half} {b32 : Word}
    (h : encode i = some (frameFrom opcode ep a16 b32)) (ho : i.opcode = some opcode) : Statement i := by
  refine ⟨by rw [h, ho]; rfl, fun f opc hf hc => ?_⟩
  rw [h] at hf
  rw [ho] at hc
  cases hf
  cases hc
  exact opcodeOf_frameFrom _ _ _ _

theorem of_none {i : Instr} (h : encode i = none) (ho : i.opcode = none) : Statement i :=
  ⟨by rw [h, ho]; rfl, fun _ _ hf => by rw [h] at hf; cases hf⟩

theorem alloc (length : Half) : Statement (.alloc length) := of_frame rfl rfl
theorem configure (ep : BitVec 8) (address : BitVec 8) (packetSize : Half) (type : BitVec 8) : Statement (.configure ep address packetSize type) :=
  of_frame rfl rfl
theorem setStatus (ep : BitVec 8) (desired mask : Half) : Statement (.setStatus ep desired mask) := of_frame rfl rfl
theorem send (ep : BitVec 8) (buffer : Word) (length : Half) : Statement (.send ep buffer length) := of_frame rfl rfl
theorem receive (ep : BitVec 8) (buffer : Word) (length : Half) : Statement (.receive ep buffer length) :=
  of_frame rfl rfl
theorem reserved (opcode : BitVec 8) : Statement (.reserved opcode) := of_frame rfl rfl
theorem cancelSend (ep : BitVec 8) : Statement (.cancelSend ep) := of_frame rfl rfl
theorem cancelReceive (ep : BitVec 8) : Statement (.cancelReceive ep) := of_frame rfl rfl
theorem setTxStatus (ep : BitVec 8) (code : BitVec 2) : Statement (.setTxStatus ep code) := of_frame rfl rfl
theorem setRxStatus (ep : BitVec 8) (code : BitVec 2) : Statement (.setRxStatus ep code) := of_frame rfl rfl
theorem dispatchEntry : Statement .dispatchEntry := of_none rfl rfl
theorem dispatchEp : Statement .dispatchEp := of_none rfl rfl
theorem dispatchExit : Statement .dispatchExit := of_none rfl rfl
theorem reset : Statement .reset := of_none rfl rfl
theorem susp : Statement .susp := of_none rfl rfl
theorem wkup : Statement .wkup := of_none rfl rfl
theorem err : Statement .err := of_none rfl rfl
theorem sof : Statement .sof := of_none rfl rfl
theorem esof : Statement .esof := of_none rfl rfl
theorem pmaovr : Statement .pmaovr := of_none rfl rfl
theorem rxComplete (n : Ep) (val : Half) : Statement (.rxComplete n val) := of_none rfl rfl
theorem txComplete (n : Ep) (val : Half) : Statement (.txComplete n val) := of_none rfl rfl
theorem ctlEventSetup : Statement .ctlEventSetup := of_none rfl rfl
theorem ctlEventOut : Statement .ctlEventOut := of_none rfl rfl
theorem ctlEventIn : Statement .ctlEventIn := of_none rfl rfl
theorem sendNextPacket (n : Ep) : Statement (.sendNextPacket n) := of_none rfl rfl
theorem beginPacketReceive (n : Ep) : Statement (.beginPacketReceive n) := of_none rfl rfl
theorem endPacketReceive (n : Ep) : Statement (.endPacketReceive n) := of_none rfl rfl
theorem busReset : Statement .busReset := of_none rfl rfl
theorem allocInternal (length : Half) : Statement (.allocInternal length) := of_none rfl rfl
theorem configureInternal (n : Ep) (address : BitVec 8) (packetSize : Half) (type : TransferType) : Statement (.configureInternal n address packetSize type) :=
  of_none rfl rfl
theorem receiveInternal (n : Ep) (buffer : Word) (length : Half) : Statement (.receiveInternal n buffer length) :=
  of_none rfl rfl
theorem setStatusInternal (n : Ep) (desired mask : Half) : Statement (.setStatusInternal n desired mask) :=
  of_none rfl rfl
theorem clearCtrRx (n : Ep) (val : Half) : Statement (.clearCtrRx n val) := of_none rfl rfl
theorem clearCtrTx (n : Ep) (val : Half) : Statement (.clearCtrTx n val) := of_none rfl rfl
theorem notify (code : BitVec 8) (ep : BitVec 8) (buffer : Word) (length : Half) : Statement (.notify code ep buffer length) :=
  of_none rfl rfl

end Sys2Proof.Laws.EncodeOpcode
end

