-- ==== Sys2Proof/Laws/Sie.lean ====
section
/-! SUPPORT. Laws of the SIE's steps: the bytes a receive writes, the words it leaves in an endpoint register, and what a
step of the SIE can do. -/

namespace Sys2Proof.Machine

/-- What writing bytes to packet memory does: those bytes, and nothing else. -/
theorem pmWriteBytes_ok {a : Nat} {l : List Byte} {s t : State} (h : pmWriteBytes a l s = .ok t) :
    t = { s with pm := t.pm } ∧
      (∀ x, t.pmByte x = if a ≤ x ∧ x < a + l.length then l.getD (x - a) 0 else s.pmByte x) ∧
      (Memory.wf Config.pmaSize s.pm → Memory.wf Config.pmaSize t.pm) := by
  induction l generalizing a s with
  | nil => cases h; exact ⟨rfl, fun x => by simp, id⟩
  | cons b bs ih =>
    obtain ⟨u, hu, h⟩ := Eff.bind_ok h
    obtain ⟨ha, rfl⟩ := pmWrite8_ok.1 hu
    obtain ⟨h1, h2, h3⟩ := ih h
    refine ⟨by rw [h1]; rfl, fun x => ?_, fun hw => h3 (Memory.wf_write _ hw ha)⟩
    rw [h2, State.setPmByte_pmByte, List.length_cons]
    by_cases hx : x = a
    · subst hx; simp
    · by_cases hr : a + 1 ≤ x ∧ x < a + 1 + bs.length
      · rw [if_pos hr, if_pos (by omega), show x - a = x - (a + 1) + 1 by omega, List.getD_cons_succ]
      · rw [if_neg hr, if_neg hx, if_neg (by omega)]

theorem pmWriteBytes_runs {a : Nat} {l : List Byte} {s : State} (h : a + l.length ≤ Config.pmaSize) :
    ∃ t, pmWriteBytes a l s = .ok t := by
  induction l generalizing a s with
  | nil => exact ⟨s, rfl⟩
  | cons b bs ih =>
    rw [List.length_cons] at h
    obtain ⟨t, ht⟩ := ih (a := a + 1) (s := s.setPmByte a b) (by omega)
    refine ⟨t, ?_⟩
    rw [pmWriteBytes, pmWrite8_ok.2 ⟨by omega, rfl⟩]
    exact ht

/-- The endpoint register SIE_TX leaves, by masks (R221). -/
theorem sieTxWord_eq (cur : Half) : sieTxWord cur = (cur &&& 0xFF0F) ||| (~~~cur &&& 0x0040) ||| 0x00A0 := by
  apply BitVec.eq_of_getLsbD_eq
  intro i hi
  unfold sieTxWord
  interval_cases i <;> simp

/-- The endpoint register SIE_RX leaves, by masks (R222). -/
theorem sieRxWord_eq (cur : Half) (setup : Bool) :
    sieRxWord cur setup = (cur &&& 0x07FF) ||| (~~~cur &&& 0x4000) ||| 0xA000 ||| (if setup then 0x0800 else 0) := by
  apply BitVec.eq_of_getLsbD_eq
  intro i hi
  unfold sieRxWord
  cases setup <;> interval_cases i <;> simp

/-- What SIE_TX can do (R221). -/
theorem sieTx_ok {n : Ep} {s t : State} (h : sieTx n s = .ok t) :
    epTypeField (s.eprOf n) ≠ isochronousCode ∧ s.deviceEnabled = true ∧ statTx (s.eprOf n) = statValid ∧
    (s.bdt n .txAddr).toNat + txByteCount (s.bdt n .txCount) ≤ Config.pmaSize ∧
    t = { s with wire := s.wire ++
      [WireEntry.mk n (s.pmBytes (s.bdt n .txAddr).toNat (txByteCount (s.bdt n .txCount)))] }.setEpr n
        (sieTxWord (s.eprOf n)) := by
  unfold sieTx at h
  split at h
  · cases h
  · split at h
    · next hi hv =>
      obtain ⟨a, ha, h⟩ := Eff.bind_ok h
      obtain ⟨c, hc, h⟩ := Eff.bind_ok h
      have ea := bdtRead_ok _ ha
      have ec := bdtRead_ok _ hc
      subst ea ec
      split at h
      · next hl => cases h; exact ⟨hi, hv.1, hv.2, hl, rfl⟩
      · cases h
    · cases h

/-- What SIE_RX can do (R222), `u` being the state after its data bytes. -/
theorem sieRx_ok {n : Ep} {data : List Byte} {setup : Bool} {s t : State} (h : sieRx n data setup s = .ok t) :
    epTypeField (s.eprOf n) ≠ isochronousCode ∧ sieRxAllowed n data setup s = true ∧
    data.length ≤ capacity (s.bdt n .rxCount) ∧ (s.bdt n .rxAddr).toNat + data.length ≤ Config.pmaSize ∧
    ∃ u, pmWriteBytes (s.bdt n .rxAddr).toNat data s = .ok u ∧ bdtOffset s.btable n .rxCount + 1 < Config.pmaSize ∧
      t = (u.setBdt n .rxCount (withCount (u.bdt n .rxCount) data.length)).setEpr n (sieRxWord (s.eprOf n) setup) := by
  unfold sieRx at h
  split at h
  · cases h
  · split at h
    · next hi hv =>
      obtain ⟨a, ha, h⟩ := Eff.bind_ok h
      obtain ⟨c, hc, h⟩ := Eff.bind_ok h
      have ea := bdtRead_ok _ ha
      have ec := bdtRead_ok _ hc
      subst ea ec
      split at h
      · next hl =>
        obtain ⟨u, hu, h⟩ := Eff.bind_ok h
        obtain ⟨w, hw, h⟩ := Eff.bind_ok h
        obtain ⟨v, hv', h⟩ := Eff.bind_ok h
        obtain ⟨rfl, hb⟩ := bdtWrite_ok _ hv'
        have ew := bdtRead_ok _ hw
        subst ew
        have hf := (pmWriteBytes_ok hu).1
        cases h
        refine ⟨hi, hv, hl.1, hl.2, u, hu, ?_, ?_⟩
        · rwa [show u.btable = s.btable by rw [hf]] at hb
        · rw [State.setBdt_eprOf, show u.eprOf n = s.eprOf n by rw [hf]; rfl]
      · cases h
    · cases h

end Sys2Proof.Machine
end

