-- ==== Sys2Proof/Laws/Step.lean ====
section
/-! SUPPORT. What one turn is, by the head of the script, and where a bus address of a register or of packet memory
leads. -/

namespace Sys2Proof.Machine

section Turns

variable {s : State} {rest : List Turn}

theorem step_noTurn (h : s.script = []) : step s = blockTurn s := by
  unfold step takeTurn
  rw [h]

theorem step_block (h : s.script = .block :: rest) : step s = blockTurn { s with script := rest } := by
  unfold step takeTurn
  rw [h]

theorem step_sie {m : SieMove} (h : s.script = .sie m :: rest) : step s = settle (sieStep m { s with script := rest }) := by
  unfold step takeTurn
  rw [h]

theorem step_app {m : AppMove} (h : s.script = .app m :: rest) (hm : appHeld m s = false) :
    step s = settle (appStep m { s with script := rest }) := by
  unfold step takeTurn
  rw [h]
  exact if_neg (by rw [hm]; exact Bool.false_ne_true)

theorem step_held {m : AppMove} (h : s.script = .app m :: rest) (hm : appHeld m s = true) : step s = blockTurn s := by
  unfold step takeTurn
  rw [h]
  exact if_pos hm

/-- What a step that goes on did. -/
theorem step_cases {t : State} (h : step s = .next t) :
    (∃ u, (u = s ∨ ∃ rest, u = { s with script := rest }) ∧ blockTurn u = .next t) ∨
    (∃ m rest, s.script = .sie m :: rest ∧ sieStep m { s with script := rest } = .ok t) ∨
    (∃ m rest, s.script = .app m :: rest ∧ appHeld m s = false ∧ appStep m { s with script := rest } = .ok t) := by
  match hs : s.script with
  | [] => exact .inl ⟨s, .inl rfl, (step_noTurn hs).symm.trans h⟩
  | .block :: rest => exact .inl ⟨_, .inr ⟨rest, rfl⟩, (step_block hs).symm.trans h⟩
  | .sie m :: rest => exact .inr (.inl ⟨m, rest, rfl, settle_next.1 ((step_sie hs).symm.trans h)⟩)
  | .app m :: rest =>
    cases hm : appHeld m s with
    | true => exact .inl ⟨s, .inl rfl, (step_held hs hm).symm.trans h⟩
    | false => exact .inr (.inr ⟨m, rest, rfl, hm, settle_next.1 ((step_app hs hm).symm.trans h)⟩)

/-- What a turn of the block that goes on did: nothing, or one operation, with the frame taken out where it ran a
command. -/
theorem blockTurn_cases {t : State} (h : blockTurn s = .next t) :
    (t = s ∧ s.phase = .idle ∧ s.irq = false ∧ s.frame = none) ∨
    (s.phase = .idle ∧ s.irq = true ∧ exec .dispatchEntry s = .next t) ∨
    (s.phase = .loop ∧ s.ctr = true ∧ s.created = true ∧ exec .dispatchEp s = .next t) ∨
    (s.phase = .loop ∧ s.ctr = false ∧ exec .dispatchExit s = .next t) ∨
    (∃ f, s.phase = .idle ∧ s.irq = false ∧ s.frame = some f ∧ s.created = true ∧
      exec (decodeFrame f) { s with frame := none } = .next t) := by
  unfold blockTurn fetch at h
  cases hp : s.phase with
  | loop =>
    rw [hp] at h
    cases hc : s.ctr <;> cases hk : s.created <;> simp [hc, hk] at h ⊢ <;> exact h
  | idle =>
    rw [hp] at h
    cases hi : s.irq with
    | true => simp [hi] at h ⊢; exact h
    | false =>
      cases hf : s.frame with
      | none => simp [hi, hf] at h ⊢; exact h.symm
      | some f => cases hk : s.created <;> simp [hi, hf, hk] at h ⊢; exact h

end Turns

theorem State.regAtBus_add (s : State) (off : Word) : s.regAtBus (s.params.regBase + off) = regAt off.toNat := by
  unfold State.regAtBus busOffset
  rw [BitVec.add_comm, BitVec.add_sub_cancel]

theorem busOffset_add (base : Word) {a : Nat} (h : a < 4294967296) : busOffset base (base + BitVec.ofNat 32 a) = a := by
  unfold busOffset
  rw [BitVec.add_comm, BitVec.add_sub_cancel, BitVec.toNat_ofNat]
  omega

/-- At the start of its slot the map has the slot's register. -/
theorem regAt_slot (slot : Nat) : regAt (4 * slot) = regOfSlot slot := by
  unfold regAt
  rw [Nat.mul_div_cancel_left _ (by decide), if_pos (.inl (Nat.mul_mod_right 4 slot))]

/-- Off the start of a slot the map has no register. -/
theorem regAt_inside {offset : Nat} (h : offset % 4 ≠ 0) : regAt offset = .reserved ∨ regAt offset = .insideSlot offset := by
  unfold regAt
  by_cases hr : regOfSlot (offset / 4) = .reserved
  · exact .inl (by rw [if_pos (.inr hr), hr])
  · exact .inr (if_neg (by rintro (h0 | h0) <;> contradiction))

/-- The reserved ranges, at every offset in them (R47). -/
theorem regAt_reserved {offset : Nat}
    (h : (0x20 ≤ offset ∧ offset ≤ 0x3F) ∨ offset / 4 = 0x48 / 4 ∨ offset / 4 = 0x54 / 4 ∨ offset / 4 = 0x5C / 4
      ∨ 0x74 ≤ offset) : regAt offset = .reserved := by
  have hr : regOfSlot (offset / 4) = .reserved := by
    unfold regOfSlot
    rw [dif_neg (by omega)]
    repeat rw [if_neg (by omega)]
  unfold regAt
  rw [if_pos (.inr hr), hr]

/-- No register reads 1 above bit 15 of its slot. -/
theorem RegName.readMask_high (r : RegName) {i : Nat} (h : 16 ≤ i) : r.readMask.getLsbD i = false := by
  have hr : r.readMask.toNat < 2 ^ 16 := by cases r <;> simp [RegName.readMask]
  exact Nat.testBit_lt_two_pow (Nat.lt_of_lt_of_le hr (Nat.pow_le_pow_right (by decide) h))

/-- A 16-bit read of the upper half of a slot reads bits above every register's width: they are 0 (R47). -/
theorem openReadBits_upperHalf {offset : Nat} (h : offset % 4 = 2) : openReadBits .w16 offset = 0 := by
  unfold openReadBits
  dsimp only
  rw [h]
  apply BitVec.eq_of_getLsbD_eq
  intro i hi
  rw [BitVec.getLsbD_and, BitVec.getLsbD_setWidth, BitVec.getLsbD_ushiftRight, BitVec.getLsbD_append]
  by_cases h16 : i < 16
  · rw [if_pos (by omega), RegName.readMask_high _ (by omega), Bool.and_false, Bool.false_and]
    exact BitVec.getLsbD_zero.symm
  · have : (0xFFFF : Word).getLsbD i = false := by interval_cases i <;> rfl
    rw [this, Bool.and_false]
    exact BitVec.getLsbD_zero.symm

/-- Where a packet-memory access of the application goes on (R69). -/
theorem appPmOffset_ok {address : Word} {s : State} {a : Nat} :
    appPmOffset address s = .ok a ↔ a < Config.pmaSize ∧ a = busOffset s.params.pmaBase address := by
  unfold appPmOffset
  dsimp only
  split
  · next h => exact ⟨fun e => by cases e; exact ⟨h, rfl⟩, fun e => by rw [e.2]⟩
  · next h => exact ⟨nofun, fun e => absurd (e.2 ▸ e.1) h⟩

end Sys2Proof.Machine
end

