-- ==== Sys2Proof/Tests/Slice0.lean ====
section
/-! SUPPORT. Tests: the WellFormed smoke, words decoded, one step each from the vectors of `95_test_vectors.md` (their ids in
the comments), and for every statement with hypotheses a witness that meets them. -/

namespace Sys2Proof.Tests

open Sys2Proof Sys2Proof.Machine

/-! ### Helpers -/

/-- Whether an outcome is a next state with a property. -/
def goesTo (o : Host.Outcome State Fault Refusal) (p : State → Bool) : Bool :=
  match o with
  | .next s => p s
  | .fault _ => false
  | .refused _ => false

/-- Whether an outcome is a given refusal. -/
def refuses (o : Host.Outcome State Fault Refusal) (r : Refusal) : Bool :=
  match o with
  | .next _ => false
  | .fault _ => false
  | .refused q => q == r

/-- The post-reset state of R192 (vector I1). -/
def post : State :=
  { State.reset with
    pmaCursor := 128
    pm := [(4, 0x40), (7, 0x84)]
    epr := State.reset.epr.set 0 0x3200
    ets := State.reset.ets.set 0
      { packetSize := 64, txBuf := 0, txCursor := 0, txLen := 0, rxBuf := 0x20000000, rxCursor := 0x20000000, rxLen := 8 }
    cntr := 0xE600
    daddr := 0x80
    cra := 1
    created := true
    notes := [0x0100000000000000] }

/-- `post` with an environment turn to take. -/
def postThen (t : Turn) : State := { post with script := [t] }

/-- `post` with an endpoint register set. -/
def withEpr (n : Ep) (w : Half) : State := post.setEpr n w

/-- A transfer record, transmit fields set. -/
def txEts (size : Half) (buf cursor : Word) (len : Half) : Ets :=
  { Ets.zero with packetSize := size, txBuf := buf, txCursor := cursor, txLen := len }

/-- A transfer record, receive fields set. -/
def rxEts (size : Half) (buf cursor : Word) (len : Half) : Ets :=
  { Ets.zero with packetSize := size, rxBuf := buf, rxCursor := cursor, rxLen := len }

/-- Endpoint 1 with P 8, an allocated buffer at 128 and three bytes to send at 0x100 (T9). -/
def sending : State :=
  ({ (post.setEts 1 (txEts 8 0x100 0x100 3)).setEpr 1 0x0001 with
      pmaCursor := 136, sm := [(0x100, 0x11), (0x101, 0x22), (0x102, 0x33)] }).setBdt 1 .txAddr 128

/-- `sending` with no buffer allocated yet. -/
def unsent : State := sending.setBdt 1 .txAddr 0

/-- Endpoint 2 with P 8, four received bytes at 128 and a caller's buffer of 20 bytes (X3). -/
def received : State :=
  (({ (post.setEts 2 (rxEts 8 0x20000200 0x20000210 20)).setEpr 2 0xE602 with
      pmaCursor := 136 }.setBdt 2 .rxAddr 128).setBdt 2 .rxCount 0x1004).setPmByte 128 0xB0

/-- `received` with a full packet received (X2). -/
def receivedFull : State := received.setBdt 2 .rxCount 0x1008

/-- Endpoint 0 after a SETUP packet (K1). -/
def setupArrived : State :=
  ((post.setEpr 0 0xEA00).setBdt 0 .rxCount 0x8408).setPmByte 64 0x80

/-! ### WellFormed refuses each ill-formed term -/

theorem test_illFormed_reserved : (Instr.reserved 0x05).wellFormed = false ∧ (Instr.reserved 0x01).wellFormed = false := by decide
theorem test_illFormed_rxComplete : (Instr.rxComplete 1 0x7FFF).wellFormed = false := by decide
theorem test_illFormed_txComplete : (Instr.txComplete 1 0xFF7F).wellFormed = false := by decide
theorem test_illFormed_clearCtrRx : (Instr.clearCtrRx 1 0x7FFF).wellFormed = false := by decide
theorem test_illFormed_clearCtrTx : (Instr.clearCtrTx 1 0xFF7F).wellFormed = false := by decide
theorem test_illFormed_notifyCode : (Instr.notify 0x07 0 0 0).wellFormed = false := by decide
theorem test_illFormed_notifyEp : (Instr.notify 0x05 8 0 0).wellFormed = false := by decide

/-! ### Words decoded, bit by bit from R91 to R93 (E1 to E12) -/

theorem test_decode_alloc : decodeFrame (0x00000000#32 ++ 0b00000001_00000000_0000001101111010#32) = .alloc 890 := by decide
theorem test_decode_configure :
    decodeFrame (0b0000000000000000_00000010_00000010#32 ++ 0b00000010_00000010_0000000000001000#32) =
      .configure 2 2 8 2 := by decide
theorem test_decode_setStatus :
    decodeFrame (0x00000030#32 ++ 0b00000011_00000001_0000000000110000#32) = .setStatus 1 0x0030 0x0030 := by decide
theorem test_decode_send :
    decodeFrame (0x20000100#32 ++ 0b00000100_00000001_0000000010000010#32) = .send 1 0x20000100 130 := by decide
theorem test_decode_receive :
    decodeFrame (0x20000200#32 ++ 0b00000101_00000010_0000000000010100#32) = .receive 2 0x20000200 20 := by decide
theorem test_decode_sendEp255 : decodeFrame 0x0000000004FF0000 = .send 255 0 0 := by decide
theorem test_decode_reserved :
    decodeFrame 0x0000000006000000 = .reserved 6 ∧ decodeFrame 0x0000000000000000 = .reserved 0
      ∧ decodeFrame 0x00000000FF000000 = .reserved 255 := by decide
theorem test_decode_pseudo :
    encode (.cancelSend 3) = some 0x0000000004030000 ∧ encode (.cancelReceive 2) = some 0x0000000005020000
      ∧ encode (.setRxStatus 2 0b01) = some 0x0000300003021000 := by decide
theorem test_encode_configure : encode (.configure 3 0x13 16 1) = some 0x0000011302030010 := by decide
theorem test_decode_status : decodeStatus 0x0A00 = [.susp, .sof] ∧ decodeStatus 0x8000 = [] := by decide
theorem test_decode_status_order :
    decodeStatus 0xFF0F = [.reset, .susp, .wkup, .err, .sof, .esof, .pmaovr] := by decide
theorem test_decode_sample :
    decodeSample 2 0xE082 = [.rxComplete 2 0xE082, .txComplete 2 0xE082] ∧ decodeSample 1 0x0061 = [] := by decide

/-! ### Registers (W1 to W8, R35) -/

theorem test_eprWrite :
    eprWriteWord 0x0030 0x0010 = 0x0020 ∧ eprWriteWord 0xB6A1 0x0681 = 0x36A1 ∧ eprWriteWord 0xB6A1 0x8601 = 0xB621
      ∧ eprWriteWord 0xFFFF 0 = 0x7870 ∧ eprWriteWord 0 0xFFFF = 0x777F := by decide
theorem test_istr_read : ({ post with istr := 0b0000010 }.setEpr 3 0x0080 |>.setEpr 5 0x8000).istrRead = 0x8203 := by decide
theorem test_irq :
    ({ post with istr := 0b0001000 }).irq = false ∧ ({ post with istr := 0b0001010 }).irq = true
      ∧ ({ withEpr 1 0x0080 with cntr := 0x6600 }).irq = false ∧ (withEpr 1 0x0080).irq = true := by decide
theorem test_readIstr :
    goesTo (step { withEpr 1 0x0080 with script := [.app (.regRead .w32 0x44)] }) (fun s => s.appSaw == .word 0x8001) = true := by
  decide
theorem test_readReserved :
    goesTo (step (postThen (.app (.regRead .w16 0x3F)))) (fun s => s.appSaw == .word 0 && s.freeIndex == 0) = true
      ∧ goesTo (step (postThen (.app (.regRead .w16 0x42)))) (fun s => s.freeIndex == 0) = true
      ∧ goesTo (step (postThen (.app (.regWrite .w16 0x22 0xFFFF)))) (fun s => s == post) = true
      ∧ goesTo (step (postThen (.app (.regWrite .w16 0x42 0xFFFF)))) (fun s => s == post) = true := by decide
theorem test_readInsideSlot :
    openReadBits .w16 0x42 = 0 ∧ openReadBits .w16 0x4D = 0 ∧ openReadBits .w16 0x41 = 0xFF
      ∧ openReadBits .w32 0x42 = 0xFFFF0000 ∧ openReadBits .w32 0x1E = 0 := by decide
theorem test_writeBtable :
    goesTo (step (postThen (.app (.regWrite .w16 0x50 0xFFFF)))) (fun s => s.btable == 0xFFF8) = true := by decide

/-! ### The allocator (A2, A5 to A8) -/

theorem test_alloc_odd : goesTo (exec (.alloc 3) post) (fun s => s.result == 128 && s.pmaCursor == 132) = true := by decide
theorem test_alloc_overrun :
    goesTo (exec (.alloc 0xFFFF) { post with pmaCursor := 1024 })
      (fun s => s.result == 0 && s.pmaCursor == 1024 && s.faults == 1) = true := by decide
theorem test_allocInternal :
    goesTo (exec (.allocInternal 890) { post with pmaCursor := 134, result := 7 })
      (fun s => s.result == 7 && s.pmaCursor == 1024 && s.faults == 0) = true := by decide

/-! ### CONFIGURE and SET_STATUS (G3 to G6, Q3, Q5, Q6, Q10, Q11, W2, W3) -/

theorem test_configure_keeps :
    goesTo (exec (.configure 4 9 32 0) (withEpr 4 0xF6F5))
      (fun s => s.eprOf 4 == 0xF0F9 && (s.etsOf 4).packetSize == 32 && s.faults == 0) = true := by decide
theorem test_configure_badType :
    goesTo (exec (.configure 1 1 8 3) (withEpr 1 1))
      (fun s => s.faults == 2 && s.eprOf 1 == 1 && (s.etsOf 1).packetSize == 0) = true := by decide
theorem test_configureInternal :
    goesTo (exec (.configureInternal 3 0x13 16 .control) post) (fun s => s.eprOf 3 == 0x0203) = true := by decide
theorem test_setStatus_stall :
    goesTo (exec (.setStatus 1 0x1000 0x3000) (withEpr 1 0xB6A1)) (fun s => s.eprOf 1 == 0x96A1) = true := by decide
theorem test_setStatus_flags :
    goesTo (exec (.setStatus 1 0x8080 0x8080) (withEpr 1 0x8081)) (fun s => s.eprOf 1 == 0x0001) = true
      ∧ goesTo (exec (.setStatus 1 0 0x8080) (withEpr 1 0x8081)) (fun s => s.eprOf 1 == 0x8081) = true := by decide
theorem test_setStatusInternal :
    goesTo (exec (.setStatusInternal 1 0x1010 0x3030) (withEpr 1 0x0031)) (fun s => s.eprOf 1 == 0x1011) = true := by decide
theorem test_setTxStatus : goesTo (exec (.setTxStatus 0 0b01) (withEpr 0 0x7A60)) (fun s => s.eprOf 0 == 0x7A50) = true := by
  decide
theorem test_setRxStatus : goesTo (exec (.setRxStatus 2 0b01) (withEpr 2 0x3602)) (fun s => s.eprOf 2 == 0x1602) = true := by
  decide
theorem test_clearCtrRx :
    goesTo (exec (.clearCtrRx 1 0xB6A1) (withEpr 1 0xB6A1)) (fun s => s.eprOf 1 == 0x36A1) = true := by decide
theorem test_clearCtrTx :
    goesTo (exec (.clearCtrTx 1 0xB6A1) (withEpr 1 0xB6A1)) (fun s => s.eprOf 1 == 0xB621) = true := by decide
theorem test_reserved : goesTo (exec (.reserved 0x10) post) (fun s => s == { post with faults := 4 }) = true := by decide

/-! ### Transmit (T4, T6, T7, T9, F2) -/

theorem test_send :
    goesTo (exec (.send 1 0x100 3) { unsent with pmaCursor := 128 })
      (fun s => s.bdt 1 .txAddr == 128 && s.pmaCursor == 136 && s.pmByte 128 == 0x11 && s.pmByte 129 == 0x22
        && s.pmByte 130 == 0x33 && s.pmByte 131 == 0 && s.bdt 1 .txCount == 3 && (s.etsOf 1).txCursor == 0
        && s.eprOf 1 == 0x0031) = true := by decide
theorem test_send_unconfigured :
    goesTo (exec (.send 5 0x20000100 4) post)
      (fun s => (s.etsOf 5).txCursor == 0x20000100 && s.eprOf 5 == 0 && s.pmaCursor == 128 && s.faults == 0) = true := by
  decide
theorem test_cancelSend :
    goesTo (exec (.cancelSend 1) ((withEpr 1 0x0031).setEts 1 (txEts 64 0x20000100 0x20000140 130)))
      (fun s => s.etsOf 1 == txEts 64 0x20000100 0 130 && s.eprOf 1 == 0x0001) = true := by decide
theorem test_sendNextPacket_zero :
    goesTo (exec (.sendNextPacket 1) (sending.setEts 1 (txEts 8 0x20000400 0x20000410 16)))
      (fun s => s.bdt 1 .txCount == 0 && (s.etsOf 1).txCursor == 0 && s.eprOf 1 == 0x0031) = true := by decide

theorem test_packetSize_refused :
    refuses (exec (.sendNextPacket 1) (post.setEts 1 (txEts 1024 0 0 0))) .packetSizeTooLarge = true
      ∧ refuses (exec (.beginPacketReceive 1) (post.setEts 1 (rxEts 1024 0 0 0))) .packetSizeTooLarge = true := by decide
theorem test_packetMemory_refused :
    refuses (exec (.sendNextPacket 1) (sending.setBdt 1 .txAddr 1022)) .packetMemoryRange = true := by decide

/-! ### Receive (X1, X2, X3, X4, X7, F3) -/

theorem test_receive :
    goesTo (exec (.receive 2 0x20000200 20) ((withEpr 2 0x0602).setEts 2 (rxEts 8 0 0 0)))
      (fun s => s.bdt 2 .rxAddr == 128 && s.pmaCursor == 136 && s.bdt 2 .rxCount == 0x1000 && s.eprOf 2 == 0x3602
        && (s.etsOf 2).rxCursor == 0x20000200 && (s.etsOf 2).rxLen == 20) = true := by decide
theorem test_receive_badArg :
    goesTo (exec (.receive 8 0x20000200 4) post) (fun s => s == { post with faults := 2 }) = true := by decide
theorem test_receiveInternal :
    goesTo (exec (.receiveInternal 0 0x20000000 8) (withEpr 0 0x0200))
      (fun s => s.bdt 0 .rxCount == 0x8400 && s.eprOf 0 == 0x3200) = true := by decide
theorem test_cancelReceive :
    goesTo (exec (.cancelReceive 2) ((withEpr 2 0x3602).setEts 2 (rxEts 8 0x20000200 0x20000208 20)))
      (fun s => (s.etsOf 2).rxCursor == 0 && s.eprOf 2 == 0x0602) = true := by decide
theorem test_beginPacketReceive :
    goesTo (exec (.beginPacketReceive 2) (received.setEpr 2 0x0602))
      (fun s => s.bdt 2 .rxCount == 0x1000 && s.eprOf 2 == 0x3602) = true := by decide
theorem test_endPacketReceive_short :
    goesTo (exec (.endPacketReceive 2) received)
      (fun s => (s.etsOf 2).rxCursor == 0 && s.smByte 0x20000210 == 0xB0 && s.eprOf 2 == 0xE602) = true := by decide
theorem test_endPacketReceive_clamped :
    goesTo (exec (.endPacketReceive 2)
        ((receivedFull.setEts 2 (rxEts 8 0x20000600 0x20000600 1)).setPmByte 129 0x77))
      (fun s => (s.etsOf 2).rxCursor == 0x20000601 && s.smByte 0x20000600 == 0xB0 && s.smByte 0x20000601 == 0
        && s.bdt 2 .rxCount == 0x1000 && s.eprOf 2 == 0xF602) = true := by decide
theorem test_blockEnc :
    blockEnc 0 = 0 ∧ blockEnc 1 = 0x0400 ∧ blockEnc 62 = 0x7C00 ∧ blockEnc 63 = 0x8400 ∧ blockEnc 65 = 0x8800
      ∧ blockEnc 1023 = 0xFC00 ∧ capacity 0x8800 = 96 ∧ capacity 0xFC00 = 1024 ∧ capacity 0x1000 = 8 := by decide

/-! ### The control endpoint and notifications (K1 to K3, N3) -/

theorem test_ctlEventSetup :
    goesTo (exec .ctlEventSetup { post with params := { post.params with setupBufAddr := 0x20000000 } })
      (fun s => s.notes == [0x0100000000000000, 0x1000000820000000] && (s.etsOf 0).rxCursor == 0x20000000
        && s.bdt 0 .rxCount == 0x8400) = true := by decide
theorem test_ctlEventOut :
    goesTo (exec .ctlEventOut post) (fun s => s.notes == [0x0100000000000000, 0x1200000820000000]) = true := by decide
theorem test_ctlEventIn :
    goesTo (exec .ctlEventIn (post.setEts 0 (txEts 64 0x20000300 0 18)))
      (fun s => s.notes == [0x0100000000000000, 0x1100001220000300]) = true := by decide
theorem test_notify :
    goesTo (exec (.notify 0x05 2 0x20000200 20) { post with notes := [] }) (fun s => s.notes == [0x0502001420000200]) = true := by
  decide

/-! ### The bus reset (I1) -/

theorem test_busReset :
    goesTo (exec .busReset { State.reset with istr := 0b0000100 })
      (fun s => s == post) = true := by decide
theorem test_reset :
    goesTo (exec .reset { withEpr 1 0x0031 with istr := 0b0001100, pmaCursor := 300, daddr := 0x85 })
      (fun s => s.istr == 0 && s.pmaCursor == 128 && s.daddr == 0x80 && s.eprOf 1 == 0x0031) = true := by decide

/-! ### The dispatcher (J2, J4, J5, J7, P1, P2) -/

theorem test_dispatchEntry :
    goesTo (exec .dispatchEntry { post with istr := 0b0001010 })
      (fun s => s.istr == 0 && s.phase == .loop && s.notes == [0x0100000000000000, 0x0200000000000000]) = true := by decide
theorem test_susp : goesTo (exec .susp { post with istr := 0x7F }) (fun s => s == { post with istr := 0x77 }) = true := by decide
theorem test_wkup : goesTo (exec .wkup { post with istr := 0x7F }) (fun s => s == { post with istr := 0x6F }) = true := by decide
theorem test_err : goesTo (exec .err { post with istr := 0x7F }) (fun s => s == { post with istr := 0x5F }) = true := by decide
theorem test_sof :
    goesTo (exec .sof { post with istr := 0x7F })
      (fun s => s == { post with istr := 0x7D, notes := [0x0100000000000000, 0x0200000000000000] }) = true := by decide
theorem test_esof : goesTo (exec .esof { post with istr := 0x7F }) (fun s => s == { post with istr := 0x7E }) = true := by decide
theorem test_pmaovr :
    goesTo (exec .pmaovr { post with istr := 0x40 }) (fun s => s == { post with istr := 0, faults := 8 }) = true := by decide
theorem test_dispatchExit :
    goesTo (exec .dispatchExit { post with phase := .loop }) (fun s => s == post) = true := by decide
theorem test_dispatchEp_lowest :
    goesTo (exec .dispatchEp ((sending.setEts 1 (txEts 8 0x20000100 0 3)).setEpr 1 0x00E1 |>.setEpr 2 0xE002))
      (fun s => s.eprOf 1 == 0x0061 && s.eprOf 2 == 0xE002 && s.notes == [0x0100000000000000, 0x0601000320000100]) = true := by
  decide
theorem test_rxComplete :
    goesTo (exec (.rxComplete 2 0xE602) received)
      (fun s => s.eprOf 2 == 0x6602 && s.notes == [0x0100000000000000, 0x0502001420000200]) = true := by decide
theorem test_rxComplete_setup :
    goesTo (exec (.rxComplete 0 0xEA00) setupArrived)
      (fun s => s.eprOf 0 == 0x7A00 && s.smByte 0x20000000 == 0x80 && s.bdt 0 .rxCount == 0x8400
        && s.notes == [0x0100000000000000, 0x1000000820000000]) = true := by decide
theorem test_txComplete :
    goesTo (exec (.txComplete 1 0x00A1) ((sending.setEts 1 (txEts 8 0x100 0x100 3)).setEpr 1 0x00A1))
      (fun s => s.eprOf 1 == 0x0031 && s.notes == [0x0100000000000000] && s.bdt 1 .txCount == 3) = true := by decide

/-! ### The SIE (H1 to H7) -/

theorem test_sieTx :
    goesTo (step { ((sending.setEpr 1 0x0071).setBdt 1 .txCount 2).setPmByte 128 0x80 with script := [.sie (.tx 1)] })
      (fun s => s.eprOf 1 == 0x00A1 && s.wire == [⟨1, [0x80, 0x00]⟩]) = true := by decide
theorem test_sieRx :
    goesTo (step { (received.setBdt 2 .rxCount 0x1000).setEpr 2 0x3602 with
        script := [.sie (.rx 2 [0xA0, 0xA1, 0xA2, 0xA3, 0xA4, 0xA5, 0xA6, 0xA7] false)] })
      (fun s => s.eprOf 2 == 0xE602 && s.bdt 2 .rxCount == 0x1008 && s.pmByte 128 == 0xA0 && s.pmByte 135 == 0xA7) = true := by
  decide
theorem test_sieRx_tooLong :
    refuses (step { (received.setBdt 2 .rxCount 0x1000).setEpr 2 0x3602 with
      script := [.sie (.rx 2 (List.replicate 9 0) false)] }) .sieStepNotEnabled = true := by decide
theorem test_withFetchWord :
    goesTo (step (State.reset.withFetchWord 32 0x01000003)) (fun s => s.pmaCursor == 4 && s.result == 0) = true
      ∧ goesTo (step (State.reset.withFetchWord 16 0x0200)) (fun s => s.notes == [0x0200000000000000]) = true := by decide

/-! ### Witnesses: states and operands that meet the hypotheses of the statements, clause by clause -/

theorem witness_EncodedFramesDecode :
    (Instr.send 255 0xFFFFFFFF 0xFFFF).wellFormed = true ∧ (Instr.send 255 0xFFFFFFFF 0xFFFF).opcode = some 4
      ∧ (Instr.reserved 0).wellFormed = true ∧ (Instr.reserved 0).opcode = some 0
      ∧ (Instr.reserved 6).wellFormed = true ∧ (Instr.reserved 6).opcode = some 6
      ∧ (Instr.reserved 255).wellFormed = true ∧ (Instr.reserved 255).opcode = some 255
      ∧ (Instr.setTxStatus 7 3).wellFormed = true ∧ (Instr.setTxStatus 7 3).opcode = some 3 := by decide

theorem witness_StepRunsSelectedOperation :
    (withEpr 1 0x0080).script = [] ∧ (withEpr 1 0x0080).phase = .idle ∧ (withEpr 1 0x0080).irq = true
      ∧ ({ withEpr 7 0x8000 with phase := .loop }).ctr = true ∧ ({ withEpr 7 0x8000 with phase := .loop }).created = true
      ∧ ({ post with phase := .loop }).ctr = false
      ∧ ({ post with frame := some 0x0000000001000040 }).irq = false ∧ post.created = true ∧ post.phase = .idle
      ∧ ({ State.reset with phase := .loop }.setEpr 7 0x8000).ctr = true ∧ State.reset.created = false
      ∧ ({ State.reset with frame := some 0 }).irq = false ∧ State.reset.phase = .idle
      ∧ post.frame = none ∧ post.irq = false := by
  decide

theorem witness_StepRunsSelectedOperation_turns :
    let held := { postThen (.app (.regWrite .w16 (post.params.regBase + 0x64) 0)) with frame := some 0 }
    post.script = [] ∧ (postThen .block).script = .block :: [] ∧ post = { postThen .block with script := [] }
      ∧ held.script = .app (.regWrite .w16 (held.params.regBase + 0x64) 0) :: [] ∧ held.frame.isSome = true := by
  decide

theorem witness_PlacedWordRuns :
    decodeTableWord 17 0x01000040 = some (.alloc 64) ∧ decodeTableWord 64 0x2000010004010082 = some (.send 1 0x20000100 130)
      ∧ (((0x0080 : Half).getLsbD 15 || (0x0080 : Half).getLsbD 7) = true)
      ∧ (((0x0100 : Half).getLsbD 15 || (0x0100 : Half).getLsbD 7) = false) ∧ (0x0100 : Half) &&& 0x7F00 ≠ 0
      ∧ (0x007F : Half) &&& 0xFF80 = 0 := by decide

theorem witness_FramePresentedHeldRefused (width : RegWidth) :
    let turn : Turn := .app (.regWrite width (post.params.regBase + 0x64) 0x01000040)
    (postThen turn).script = turn :: [] ∧ (postThen turn).created = true ∧ (postThen turn).frame = none
      ∧ ({ postThen turn with frame := some 0 }).irq = false ∧ post.phase = .idle
      ∧ ({ State.reset with script := [turn] }).created = false ∧ State.reset.frame = none := by
  cases width <;> decide

theorem witness_StatusReadAndInterruptLine :
    ((withEpr 7 0x0080).eprOf 7).getLsbD 7 = true
      ∧ (∀ k : Ep, k < 7 → ((withEpr 7 0x0080).eprOf k).getLsbD 15 = false ∧ ((withEpr 7 0x0080).eprOf k).getLsbD 7 = false)
      ∧ ((withEpr 0 0x8000).eprOf 0).getLsbD 15 = true
      ∧ (∀ n : Ep, (post.eprOf n).getLsbD 15 = false ∧ (post.eprOf n).getLsbD 7 = false) := by decide

theorem witness_IstrWriteClears : 8 ≤ 8 ∧ 8 ≤ 14 ∧ 14 ≤ 14 := by decide

theorem witness_RegisterReads :
    (∃ n : Ep, (0x00 : Word) = BitVec.ofNat 32 (4 * n.val)) ∧ (∃ n : Ep, (0x1C : Word) = BitVec.ofNat 32 (4 * n.val))
      ∧ (0x20 ≤ (0x20 : Word).toNat ∧ (0x20 : Word).toNat ≤ 0x3F) ∧ (0x20 ≤ (0x3F : Word).toNat ∧ (0x3F : Word).toNat ≤ 0x3F)
      ∧ 0x74 ≤ (0x74 : Word).toNat ∧ 0x74 ≤ (0xFFFFFFFF : Word).toNat
      ∧ (0x02 : Word).toNat % 4 = 2 ∧ (0x72 : Word).toNat % 4 = 2 := by decide

theorem witness_RegisterReads_script (width : RegWidth) (off : Word) :
    let s := postThen (.app (.regRead width (post.params.regBase + off)))
    s.created = true ∧ s.script = .app (.regRead width (s.params.regBase + off)) :: []
      ∧ (postThen (.app .traceRead)).script = .app .traceRead :: [] := ⟨rfl, rfl, rfl⟩

theorem witness_RegisterWrites (width : RegWidth) (off : Word) :
    let s := postThen (.app (.regWrite width (post.params.regBase + off) 0xFFFFFFFF))
    s.script = .app (.regWrite width (s.params.regBase + off) 0xFFFFFFFF) :: [] := rfl

theorem witness_RegisterWrites_inside :
    (0x01 : Word).toNat % 4 ≠ 0 ∧ (0x73 : Word).toNat % 4 ≠ 0 ∧ (0x22 : Word).toNat % 4 ≠ 0
      ∧ 0x20 ≤ (0x22 : Word).toNat ∧ (0x22 : Word).toNat ≤ 0x3F := by decide

theorem witness_ApplicationMemoryAccess :
    (∀ a ∈ [0, 1022, 1023], a < 1024) ∧ 1022 % 2 = 0 ∧ 1023 % 2 = 1
      ∧ (∀ a ∈ [1024, 4294967295], 1024 ≤ a ∧ a < 2 ^ 32)
      ∧ (∀ w ∈ [PmWidth.w8, PmWidth.w16, PmWidth.w32],
          (postThen (.app (.pmRead w (post.params.pmaBase + 1022)))).script =
            .app (.pmRead w (post.params.pmaBase + 1022)) :: []
          ∧ (postThen (.app (.pmWrite w (post.params.pmaBase + 1022) 0xABCD))).script =
            .app (.pmWrite w (post.params.pmaBase + 1022) 0xABCD) :: [])
      ∧ (postThen (.app (.smRead 0xFFFFFFFF))).script = .app (.smRead 0xFFFFFFFF) :: []
      ∧ (postThen (.app (.smWrite 0xFFFFFFFF 1))).script = .app (.smWrite 0xFFFFFFFF 1) :: [] := by decide

theorem witness_AllocEffect :
    post.pmaCursor.toNat + 2 * (((895 : Half).toNat + 1) / 2) ≤ 1024
      ∧ 1024 < post.pmaCursor.toNat + 2 * (((897 : Half).toNat + 1) / 2) := by decide

theorem witness_AllocationsAreDisjoint : AllocCursorOk 64 ∧ AllocCursorOk post.pmaCursor ∧ AllocCursorOk 1024 := by
  unfold AllocCursorOk
  decide

theorem witness_ConfigureEffect :
    (0 : BitVec 8).toNat = (0 : Ep).val ∧ (7 : BitVec 8).toNat = (7 : Ep).val
      ∧ ∀ c ∈ ([(0, .bulk, 0b00), (1, .control, 0b01), (2, .interrupt, 0b11)] :
          List (BitVec 8 × TransferType × BitVec 2)), typeOf c.1 = some c.2.1 := by decide

theorem witness_BadArgumentRejected :
    7 < (8 : BitVec 8).toNat ∧ 7 < (255 : BitVec 8).toNat ∧ 2 < (3 : BitVec 8).toNat ∧ 2 < (255 : BitVec 8).toNat := by
  decide

theorem witness_ReservedOpcodeRejected :
    (0x00000000000000FF : Wide).extractLsb' 24 8 = 0 ∧ 6 ≤ ((0x0000000006000000 : Wide).extractLsb' 24 8).toNat
      ∧ 6 ≤ ((0x00000000FF000000 : Wide).extractLsb' 24 8).toNat := by decide

theorem witness_SetStatusProperty : (7 : BitVec 8).toNat = (7 : Ep).val ∧ (0x7070 : Half) &&& 0x8F8F = 0 := by decide

theorem witness_SetStatusAnyMask : (7 : BitVec 8).toNat = (7 : Ep).val ∧ 15 < 16 := by decide

theorem witness_PseudoOperationsExpand : (7 : BitVec 8).toNat = (7 : Ep).val := by decide

theorem witness_CancelEffect : (7 : BitVec 8).toNat = (7 : Ep).val := by decide

theorem witness_SendNextPacketQueues : sending.TxReady 1 ∧ unsent.TxReady 1 := by
  simp only [State.TxReady, State.DescriptorOk, Ets.TxNothing, State.Fits, CopyOk]
  decide

theorem witness_SendRecordsAndQueues :
    (1 : BitVec 8).toNat = (1 : Ep).val ∧ (0x100 : Word) ≠ 0
      ∧ (0xFFFF0000 : Word).toNat + (0xFFFF : Half).toNat ≤ 2 ^ 32 - 1
      ∧ 2 ^ 32 - 1 < (0xFFFF0001 : Word).toNat + (0xFFFF : Half).toNat
      ∧ (sending.setEts 1 { sending.etsOf 1 with txBuf := 0x100, txLen := 3, txCursor := 0x100 }).TxReady 1
      ∧ (post.etsOf 5).packetSize = 0 := by
  simp only [State.TxReady, State.DescriptorOk, Ets.TxNothing, State.Fits, CopyOk]
  decide

theorem witness_PacketLengthExact :
    (txEts 8 0x100 0x108 11).txCursor ≠ 0 ∧ CursorOk 0x100 0x108 11 ∧ CursorOk 0x100 0x10B 11 ∧ CursorOk 0xFFFF0000 0xFFFF0000 0xFFFF := by
  unfold CursorOk
  decide

theorem witness_PacketCount :
    (1 : BitVec 8).toNat = (1 : Ep).val ∧ (0xFFFF0000 : Word) ≠ 0
      ∧ (0xFFFF0000 : Word).toNat + (0xFFFF : Half).toNat ≤ 2 ^ 32 - 1 ∧ sending.DescriptorOk 1
      ∧ 1 ≤ (sending.etsOf 1).packetSize.toNat ∧ (sending.etsOf 1).packetSize.toNat ≤ 1023
      ∧ (sending.bdt 1 .txAddr).toNat ≠ 0 ∧ (sending.bdt 1 .txAddr).toNat % 2 = 0
      ∧ (sending.bdt 1 .txAddr).toNat + (sending.etsOf 1).packetSize.toNat ≤ 1024
      ∧ sending.btable.toNat + 8 * (1 : Ep).val + 8 ≤ (sending.bdt 1 .txAddr).toNat := by
  unfold State.DescriptorOk
  decide

theorem witness_BlockEncodingIsLeast :
    (0 : Half).toNat ≤ 1023 ∧ (62 : Half).toNat ≤ 62 ∧ ¬ (63 : Half).toNat ≤ 62 ∧ (1023 : Half).toNat ≤ 1023
      ∧ (1023 : Half).toNat ≤ capacity 0xFC00 := by decide

theorem witness_BeginPacketReceiveArms : received.RxReady 2 ∧ (received.setBdt 2 .rxAddr 0).RxReady 2 := by
  simp only [State.RxReady, State.DescriptorOk, Ets.RxNothing, State.Fits]
  decide

theorem witness_PacketOperationsOtherwise :
    (post.etsOf 1).TxNothing ∧ (post.etsOf 1).RxNothing ∧ (txEts 1023 0x100 0 3).TxNothing ∧ (rxEts 1023 0x100 0 3).RxNothing
      ∧ (post.etsOf 1).packetSize.toNat ≤ 1023 ∧ (txEts 1023 0x100 0 3).packetSize.toNat ≤ 1023
      ∧ (¬ (unsent.etsOf 1).TxNothing ∧ (unsent.etsOf 1).packetSize.toNat ≤ 1023 ∧ unsent.DescriptorOk 1
        ∧ unsent.bdt 1 .txAddr = 0 ∧ ¬ ({ unsent with pmaCursor := 1018 }).Fits (unsent.etsOf 1).packetSize)
      ∧ (¬ (received.etsOf 2).RxNothing ∧ (received.etsOf 2).packetSize.toNat ≤ 1023 ∧ received.DescriptorOk 2
        ∧ (received.setBdt 2 .rxAddr 0).bdt 2 .rxAddr = 0
        ∧ ¬ ({ received with pmaCursor := 1018 }).Fits (received.etsOf 2).packetSize)
      ∧ 1023 < (txEts 1024 0x100 0x100 3).packetSize.toNat ∧ 1023 < (rxEts 1024 0x100 0 3).packetSize.toNat := by
  simp only [State.DescriptorOk, Ets.RxNothing, Ets.TxNothing, State.Fits]
  decide

theorem witness_EndPacketReceiveEffect_ends :
    received.RxEndReady 2 ∧ (received.etsOf 2).rxCursor ≠ 0
      ∧ received.bdt 2 .rxCount &&& 0x03FF ≠ (received.etsOf 2).packetSize
      ∧ post.RxEndReady 2 ∧ (post.etsOf 2).rxCursor = 0 := by
  simp only [State.RxEndReady, State.DescriptorOk, CopyOk]
  decide

theorem witness_EndPacketReceiveEffect_goesOn :
    receivedFull.RxEndReady 2 ∧ (receivedFull.etsOf 2).rxCursor ≠ 0
      ∧ receivedFull.bdt 2 .rxCount &&& 0x03FF = (receivedFull.etsOf 2).packetSize
      ∧ (receivedFull.setEts 2 (rxEts 8 0x20000200 0x20000214 20)).RxReady 2
      ∧ ((rxEts 0 0x20000200 0x20000210 20)).RxNothing := by
  simp only [State.RxEndReady, State.RxReady, State.DescriptorOk, CopyOk, State.Fits, Ets.RxNothing]
  decide

theorem witness_ReceiveStaysInBuffer :
    received.RxEndReady 2
      ∧ CursorOk (received.etsOf 2).rxBuf (received.etsOf 2).rxCursor (received.etsOf 2).rxLen
      ∧ (received.etsOf 2).rxCursor ≠ 0 := by
  simp only [State.RxEndReady, State.DescriptorOk, CopyOk, CursorOk]
  decide

theorem witness_ReceiveRecordsAndArms :
    (2 : BitVec 8).toNat = (2 : Ep).val ∧ (0x20000200 : Word) ≠ 0
      ∧ (0xFFFF0000 : Word).toNat + (0xFFFF : Half).toNat ≤ 2 ^ 32 - 1
      ∧ 2 ^ 32 - 1 < (0xFFFF0001 : Word).toNat + (0xFFFF : Half).toNat
      ∧ (received.setEts 2 { received.etsOf 2 with rxBuf := 0x20000200, rxLen := 20, rxCursor := 0x20000200 }).RxReady 2
      ∧ (post.etsOf 5).packetSize = 0 := by
  simp only [State.RxReady, State.DescriptorOk, Ets.RxNothing, State.Fits]
  decide

theorem witness_ControlEvents :
    post.params.Ok
      ∧ (({ post with notes := post.notes ++ [0x1000000820000000] }).setEts 0
          { post.etsOf 0 with rxBuf := 0x20000000, rxLen := 8, rxCursor := 0x20000000 }).RxReady 0
      ∧ (State.reset.etsOf 0).packetSize = 0 := by
  simp only [Params.Ok, State.RxReady, State.DescriptorOk, Ets.RxNothing, State.Fits]
  decide

theorem witness_BusResetEffect : State.reset.params.Ok ∧ post.params.Ok := by
  unfold Params.Ok
  decide

theorem witness_BusResetPostState : received.params.Ok := by
  unfold Params.Ok
  decide

theorem witness_BusResetIdempotent : received.params.Ok ∧ post.params = received.params := by
  unfold Params.Ok
  decide

theorem witness_DispatchEntryRunsHandlers :
    ({ post with istr := 0b0000100 }).istrRead.getLsbD 10 = true ∧ post.params.Ok ∧ post.istrRead.getLsbD 10 = false := by
  unfold Params.Ok
  decide

theorem witness_FlagHandlers : post.params.Ok := by
  unfold Params.Ok
  decide

/-- Endpoint 2 with both flags set: a packet received, and a packet to send. -/
def both : State :=
  (received.setEts 2 { received.etsOf 2 with txBuf := 0x100, txCursor := 0x100, txLen := 3 }).setEpr 2 0xE0B2

theorem witness_DispatchEpCompletes :
    both.epId = 2 ∧ (both.eprOf 2).getLsbD 15 = true ∧ (both.eprOf 2).getLsbD 7 = true ∧ both.RxEndReady 2
      ∧ both.TxContinueReady 2 ∧ both.bdt 2 .rxAddr ≠ 0
      ∧ setupArrived.epId = 0 ∧ (setupArrived.eprOf 0).getLsbD 11 = true ∧ setupArrived.RxEndReady 0
      ∧ setupArrived.SetupReady := by
  simp only [State.RxEndReady, State.TxContinueReady, State.TxReady, State.DescriptorOk, CopyOk, State.Fits, Ets.TxNothing,
    State.SetupReady, Params.Ok]
  decide

theorem witness_DispatchLoopProgress : (withEpr 7 0x8000).ctr = true ∧ ∃ t, exec .dispatchEp (withEpr 7 0x8000) = .next t :=
  ⟨by decide, _, rfl⟩

theorem witness_RxCompleteEffect :
    received.RxEndReady 2 ∧ setupArrived.RxEndReady 0 ∧ (0xEA00 : Half).getLsbD 11 = true ∧ setupArrived.SetupReady
      ∧ (0xA260 : Half).getLsbD 11 = false ∧ receivedFull.RxEndReady 2 := by
  simp only [State.RxEndReady, State.DescriptorOk, CopyOk, State.SetupReady, Params.Ok]
  decide

theorem witness_TxCompleteEffect :
    (post.etsOf 1).txCursor = 0 ∧ (post.etsOf 0).txCursor = 0 ∧ (post.etsOf 0).packetSize.toNat ≤ 1023
      ∧ (txEts 1023 0x100 0 3).packetSize.toNat ≤ 1023 ∧ 1023 < (txEts 1024 0x100 0 3).packetSize.toNat ∧ (sending.etsOf 1).txCursor ≠ 0 ∧ sending.TxReady 1
      ∧ (txEts 0 0x100 0x100 3).txCursor ≠ 0 ∧ (txEts 0 0x100 0x100 3).packetSize = 0 := by
  simp only [State.TxReady, State.DescriptorOk, Ets.TxNothing, State.Fits, CopyOk]
  decide

/-- Endpoint 7 armed to send the last 1 byte of packet memory, and to receive it. -/
def armed7 : State :=
  ((({ post.setEpr 7 0x3237 with script := [.sie (.tx 7)] }.setBdt 7 .txAddr 1023).setBdt 7 .txCount 1).setBdt 7 .rxAddr 1016).setBdt
    7 .rxCount 0x1000

theorem witness_SieTransmits :
    armed7.script = .sie (.tx 7) :: [] ∧ armed7.daddr.getLsbD 7 = true ∧ (armed7.eprOf 7).extractLsb' 4 2 = 0b11
      ∧ (armed7.eprOf 7).extractLsb' 9 2 ≠ 0b10 ∧ armed7.DescriptorOk 7
      ∧ (armed7.bdt 7 .txAddr).toNat + (armed7.bdt 7 .txCount &&& 0x03FF).toNat ≤ 1024 := by
  unfold State.DescriptorOk
  decide

theorem witness_SieReceives :
    let data : List Byte := [1, 2, 3, 4, 5, 6, 7, 8]
    (armed7.eprOf 7).extractLsb' 12 2 = 0b11 ∧ (armed7.eprOf 7).extractLsb' 9 2 = 0b01
      ∧ (armed7.bdt 7 .rxAddr).toNat + data.length = 1024 ∧ data.length = capacity (armed7.bdt 7 .rxCount)
      ∧ data.length ≤ 1023 ∧ data.length = 8 ∧ armed7.DescriptorOk 7
      ∧ bdtOffset armed7.btable 7 .rxCount + 1 < (armed7.bdt 7 .rxAddr).toNat := by
  unfold State.DescriptorOk
  decide

theorem witness_SieFlagsAndReset :
    (postThen (.sie (.flag .esof))).script = .sie (.flag .esof) :: []
      ∧ (postThen (.sie (.flag .pmaovr))).script = .sie (.flag .pmaovr) :: []
      ∧ (postThen (.sie .reset)).script = .sie .reset :: [] := by decide

theorem witness_SieFrame :
    (∃ t, step armed7 = .next t) ∧ (∃ t, step { armed7 with script := [.sie (.rx 7 [1] false)] } = .next t)
      ∧ (∃ t, step (postThen (.sie (.flag .sof))) = .next t) ∧ ∃ t, step (postThen (.sie .reset)) = .next t :=
  ⟨⟨_, rfl⟩, ⟨_, rfl⟩, ⟨_, rfl⟩, _, rfl⟩

theorem post_inv : post.Inv where
  params := by unfold Params.Ok; decide
  pm := by decide
  sm := by decide
  btable := by decide
  cursor := by unfold AllocCursorOk; decide
  tx := by unfold CursorOk; decide
  rx := by unfold CursorOk; decide
  frame := by decide

theorem witness_StepKeepsInvariant :
    ({ post with istr := 0b0000010 }).Inv ∧ ∃ t, step { post with istr := 0b0000010 } = .next t :=
  ⟨⟨post_inv.params, post_inv.pm, post_inv.sm, post_inv.btable, post_inv.cursor, post_inv.tx, post_inv.rx, post_inv.frame⟩,
    _, rfl⟩

theorem witness_FaultBitsAreSticky :
    (∃ t, step { post with faults := 0b1001 } = .next t) ∧ ({ post with faults := 0b1001 }).faults.getLsbD 3 = true :=
  ⟨⟨_, rfl⟩, by decide⟩

theorem witness_TracesOnlyGrow : ∃ t, step armed7 = .next t := ⟨_, rfl⟩

theorem witness_CursorNeverRetreats : post.Inv ∧ (∃ t, step post = .next t) ∧ post.created = true := ⟨post_inv, ⟨_, rfl⟩, rfl⟩

theorem witness_ControlRegistersKept :
    Instr.dispatchEntry ≠ .busReset ∧ Instr.dispatchEntry ≠ .reset ∧ post.istrRead.getLsbD 10 = false
      ∧ ∃ t, exec .dispatchEntry post = .next t := ⟨by decide, by decide, by decide, _, rfl⟩

theorem witness_OperationFrame : (∃ t, exec (.endPacketReceive 2) received = .next t) ∧ ∃ t, exec (.alloc 3) post = .next t :=
  ⟨⟨_, rfl⟩, _, rfl⟩

theorem witness_OtherEndpointsUntouched :
    (1 : Ep) ≠ 2 ∧ (∃ t, exec (.rxComplete 2 0xE602) received = .next t) ∧ (∃ t, exec .dispatchEp received = .next t)
      ∧ received.epId = 2 ∧ (∃ t, exec (.send 1 0x100 3) sending = .next t) ∧ ∃ t, exec .ctlEventSetup post = .next t :=
  ⟨by decide, ⟨_, rfl⟩, ⟨_, rfl⟩, by decide, ⟨_, rfl⟩, _, rfl⟩

end Sys2Proof.Tests
end

section
/-! PROOFS. The bus reset and the dispatcher entry: what each can do when it ends in a state, and that each keeps the
invariant (`45_bus_reset.md` R190, `46_dispatcher.md` R201). -/

namespace Sys2Proof.Machine

variable {s t : State}

/-! ### Updates of the state and the invariant -/

/-- A change of registers, traces and the model's own fields keeps the invariant. -/
theorem State.Inv.registers (h : s.Inv)
    (e : t = { s with
      epr := t.epr, istr := t.istr, cntr := t.cntr, daddr := t.daddr, cra := t.cra, faults := t.faults, phase := t.phase,
      result := t.result, cmd0 := t.cmd0, cmd1 := t.cmd1, notes := t.notes, wire := t.wire, script := t.script,
      appSaw := t.appSaw, freeIndex := t.freeIndex }) : t.Inv := by
  rw [e]
  exact ⟨h.params, h.pm, h.sm, h.btable, h.cursor, h.tx, h.rx, h.frame⟩

/-- A write of BTABLE keeps the invariant: bits 2:0 are hardwired to 0 (R37). -/
theorem State.Inv.btableWrite (h : s.Inv) (w : Half) : (btableWrite w s).Inv := by
  refine ⟨h.params, h.pm, h.sm, ?_, h.cursor, h.tx, h.rx, h.frame⟩
  rw [btableWrite_btable, BitVec.and_assoc]
  exact BitVec.and_zero

/-- A packet-memory byte written in range keeps the invariant. -/
theorem State.Inv.setPmByte (h : s.Inv) {a : Nat} (v : Byte) (ha : a < Config.pmaSize) : (s.setPmByte a v).Inv :=
  ⟨h.params, Memory.wf_write v h.pm ha, h.sm, h.btable, h.cursor, h.tx, h.rx, h.frame⟩

/-- A descriptor word written in range keeps the invariant. -/
theorem State.Inv.setBdt (h : s.Inv) {n : Ep} {f : BdtField} (v : Half)
    (ha : bdtOffset s.btable n f + 1 < Config.pmaSize) : (s.setBdt n f v).Inv :=
  (h.setPmByte _ (by omega)).setPmByte _ ha

theorem State.Inv.setSmByte (h : s.Inv) (a : Word) (v : Byte) : (s.setSmByte a v).Inv :=
  ⟨h.params, h.pm, State.wf_setSmByte a v h.sm, h.btable, h.cursor, h.tx, h.rx, h.frame⟩

theorem State.Inv.configure (h : s.Inv) (n : Ep) (address : BitVec 8) (size : Half) (type : TransferType) :
    (configureOf n address size type s).Inv :=
  (h.setEts n (by exact h.tx n) (by exact h.rx n)).setEpr n _

/-! ### The flag handlers (R203 to R208) -/

/-- What the flag handlers change and no more: stored flags, FAULT bits raised, records appended. -/
structure FlagStep (s t : State) : Prop where
  eq : t = { s with istr := t.istr, faults := t.faults, notes := t.notes }
  faults : ∀ i, s.faults.getLsbD i = true → t.faults.getLsbD i = true
  notes : s.notes <+: t.notes

theorem FlagStep.refl (s : State) : FlagStep s s := ⟨rfl, fun _ h => h, List.prefix_refl _⟩

theorem FlagStep.istrWrite (h : FlagStep s t) (w : Half) : FlagStep s (istrWrite w t) :=
  ⟨by rw [h.eq]; rfl, h.faults, h.notes⟩

theorem FlagStep.notify (h : FlagStep s t) (code ep : BitVec 8) (b : Word) (l : Half) :
    FlagStep s (notifyApp code ep b l t) :=
  ⟨by rw [h.eq]; rfl, h.faults, h.notes.trans (List.prefix_append _ _)⟩

theorem FlagStep.raiseFault (h : FlagStep s t) (c : FaultCause) : FlagStep s (raiseFault c t) where
  eq := by rw [h.eq]; rfl
  faults := fun i hi => by rw [raiseFault_faults, BitVec.getLsbD_or, h.faults i hi, Bool.true_or]
  notes := h.notes

theorem FlagStep.whenFlag {f : State → State} (h : FlagStep s t) (b : Bool) (hf : FlagStep s (f t)) :
    FlagStep s (whenFlag b f t) := by
  cases b with
  | false => exact h
  | true => exact hf

theorem FlagStep.inv (p : FlagStep s t) (h : s.Inv) : t.Inv := h.registers (by rw [p.eq])

theorem FlagStep.sof (h : FlagStep s t) : FlagStep s (handleSof t) := (h.notify codeStartOfFrame 0 0 0).istrWrite 0xFDFF

theorem FlagStep.pmaovr (h : FlagStep s t) : FlagStep s (handlePmaovr t) := (h.istrWrite 0xBFFF).raiseFault .pmaOvr

/-- The handlers of a sample after the RESET handler, in the fixed order (R201). -/
def runFlagHandlers (x : Half) (s : State) : State :=
  let s1 := whenFlag (x.getLsbD 11) handleSusp s
  let s2 := whenFlag (x.getLsbD 12) handleWkup s1
  let s3 := whenFlag (x.getLsbD 13) handleErr s2
  let s4 := whenFlag (x.getLsbD 9) handleSof s3
  let s5 := whenFlag (x.getLsbD 8) handleEsof s4
  whenFlag (x.getLsbD 14) handlePmaovr s5

theorem runFlagHandlers_step (x : Half) (s : State) : FlagStep s (runFlagHandlers x s) := by
  have h0 := FlagStep.refl s
  have h1 := h0.whenFlag (f := handleSusp) (x.getLsbD 11) (h0.istrWrite _)
  have h2 := h1.whenFlag (f := handleWkup) (x.getLsbD 12) (h1.istrWrite _)
  have h3 := h2.whenFlag (f := handleErr) (x.getLsbD 13) (h2.istrWrite _)
  have h4 := h3.whenFlag (x.getLsbD 9) h3.sof
  have h5 := h4.whenFlag (f := handleEsof) (x.getLsbD 8) (h4.istrWrite _)
  exact h5.whenFlag (x.getLsbD 14) h5.pmaovr

/-- What DISPATCH_ENTRY can do: the RESET handler where its flag is sampled, the other handlers, the phase (R201). -/
theorem dispatchEntryOf_ok (h : dispatchEntryOf s = .ok t) :
    ∃ u, (if s.istrRead.getLsbD 10 then handleReset s = .ok u else u = s) ∧
      t = enterDispatcher (runFlagHandlers s.istrRead u) := by
  unfold dispatchEntryOf at h
  dsimp only at h
  split at h
  · next hx =>
    obtain ⟨u, hu, h⟩ := Eff.bind_ok h
    cases h
    exact ⟨u, by rwa [if_pos hx], rfl⟩
  · next hx =>
    cases h
    exact ⟨s, by rw [if_neg hx], rfl⟩

/-! ### BUS_RESET (R190) -/

/-- `s` with the four words of descriptor `n` and its record 0 (R190, step 4). -/
def State.zeroEndpoint (s : State) (n : Ep) : State :=
  ((((s.setBdt n .txAddr 0).setBdt n .txCount 0).setBdt n .rxAddr 0).setBdt n .rxCount 0).setEts n Ets.zero

theorem State.zeroEndpoint_eq (s : State) (n : Ep) :
    s.zeroEndpoint n = { s with pm := (s.zeroEndpoint n).pm, ets := (s.zeroEndpoint n).ets } := by
  unfold State.zeroEndpoint
  generalize ha : s.setBdt n .txAddr 0 = a
  generalize hb : a.setBdt n .txCount 0 = b
  generalize hc : b.setBdt n .rxAddr 0 = c
  generalize hd : c.setBdt n .rxCount 0 = d
  rw [State.setBdt_eq] at ha hb hc hd
  subst ha hb hc hd
  rfl

@[simp] theorem State.setEts_bdt (s : State) (n k : Ep) (e : Ets) (f : BdtField) :
    (s.setEts n e).bdt k f = s.bdt k f := rfl

theorem State.zeroEndpoint_bdt (s : State) (n k : Ep) (f : BdtField) :
    (s.zeroEndpoint n).bdt k f = if k = n then 0 else s.bdt k f := by
  unfold State.zeroEndpoint
  by_cases hk : k = n
  · subst hk
    cases f <;> simp [State.bdt_setBdt_other]
  · simp [State.bdt_setBdt_other, hk, Ne.symm hk]

theorem State.zeroEndpoint_etsOf (s : State) (n k : Ep) :
    (s.zeroEndpoint n).etsOf k = if k = n then Ets.zero else s.etsOf k := by
  unfold State.zeroEndpoint
  by_cases hk : k = n
  · subst hk
    simp
  · simp [State.setEts_etsOf_other, hk]

theorem clearEndpoint_ok {n : Ep} (h : clearEndpoint s n = .ok t) : t = s.zeroEndpoint n ∧ (s.Inv → t.Inv) := by
  obtain ⟨a, ha, h⟩ := Eff.bind_ok h
  obtain ⟨b, hb, h⟩ := Eff.bind_ok h
  obtain ⟨c, hc, h⟩ := Eff.bind_ok h
  obtain ⟨d, hd, h⟩ := Eff.bind_ok h
  cases h
  obtain ⟨rfl, la⟩ := bdtWrite_ok _ ha
  obtain ⟨rfl, lb⟩ := bdtWrite_ok _ hb
  obtain ⟨rfl, lc⟩ := bdtWrite_ok _ hc
  obtain ⟨rfl, ld⟩ := bdtWrite_ok _ hd
  exact ⟨rfl, fun hi => ((((hi.setBdt 0 la).setBdt 0 lb).setBdt 0 lc).setBdt 0 ld).setEts n (CursorOk.none _ _)
    (CursorOk.none _ _)⟩

/-- What zeroing the endpoints of a list does: their descriptor words and records are 0, every other word and record is
kept, and nothing but packet memory and the records changes. -/
theorem clearEndpoints_ok {ns : List Ep} (h : clearEndpoints ns s = .ok t) :
    t = { s with pm := t.pm, ets := t.ets } ∧
      (∀ k f, t.bdt k f = if k ∈ ns then 0 else s.bdt k f) ∧
      (∀ k, t.etsOf k = if k ∈ ns then Ets.zero else s.etsOf k) ∧ (s.Inv → t.Inv) := by
  induction ns generalizing s with
  | nil => cases h; exact ⟨rfl, fun _ _ => rfl, fun _ => rfl, id⟩
  | cons n ns ih =>
    obtain ⟨u, hu, h⟩ := Eff.bind_ok h
    obtain ⟨rfl, uinv⟩ := clearEndpoint_ok hu
    obtain ⟨teq, tbdt, tets, tinv⟩ := ih h
    refine ⟨by rw [teq, State.zeroEndpoint_eq], fun k f => ?_, fun k => ?_, fun hi => tinv (uinv hi)⟩
    · rw [tbdt, State.zeroEndpoint_bdt]
      by_cases hk : k = n <;> simp [hk]
    · rw [tets, State.zeroEndpoint_etsOf]
      by_cases hk : k = n <;> simp [hk]

/-- The state of BUS_RESET before its RECEIVE: `u` with the allocator created and endpoint 0 configured (R190, steps 5 and
6). -/
def State.resetConfigured (u : State) : State :=
  configureOf 0 0 Config.ep0PacketSize .control { u with pmaCursor := Config.allocBase, created := true }

/-- What BUS_RESET can do, by its two parts that can stop. -/
theorem busResetOf_ok (h : busResetOf s = .ok t) :
    ∃ u v, clearEndpoints Config.endpoints (btableWrite Config.bdtBase { istrWrite 0 s with cra := 1 }) = .ok u ∧
      receiveOf 0 s.params.setupBufAddr Config.setupLen u.resetConfigured = .ok v ∧
      t = { notifyApp codeBusReset 0 0 0 v with cntr := 0xE600, daddr := 0x80 } := by
  obtain ⟨u, hu, h⟩ := Eff.bind_ok h
  obtain ⟨v, hv, h⟩ := Eff.bind_ok h
  cases h
  have hp : u.params = s.params := by rw [(clearEndpoints_ok hu).1]; rfl
  exact ⟨u, v, hu, hp ▸ hv, rfl⟩

theorem allocBase_ok : AllocCursorOk Config.allocBase := by
  unfold AllocCursorOk
  decide

theorem State.Inv.created (h : s.Inv) : State.Inv { s with pmaCursor := Config.allocBase, created := true } where
  params := h.params
  pm := h.pm
  sm := h.sm
  btable := h.btable
  cursor := fun _ => allocBase_ok
  tx := h.tx
  rx := h.rx
  frame := fun _ => rfl

theorem busResetOf_inv (h : s.Inv) (e : busResetOf s = .ok t) : t.Inv := by
  obtain ⟨u, v, hu, hv, rfl⟩ := busResetOf_ok e
  have h0 : State.Inv { istrWrite 0 s with cra := 1 } := h.registers rfl
  have hi : u.Inv := (clearEndpoints_ok hu).2.2.2 (h0.btableWrite _)
  have hr : v.Inv := receiveOf_inv (hi.created.configure _ _ _ _) hv
  exact (hr.notify _ _ _ _).registers rfl

theorem handleReset_inv (h : s.Inv) (e : handleReset s = .ok t) : t.Inv := by
  obtain ⟨u, hu, e⟩ := Eff.bind_ok e
  cases e
  exact (busResetOf_inv h hu).istrWrite _

theorem dispatchEntryOf_inv (h : s.Inv) (e : dispatchEntryOf s = .ok t) : t.Inv := by
  obtain ⟨u, hu, rfl⟩ := dispatchEntryOf_ok e
  have hi : u.Inv := by
    split at hu
    · exact handleReset_inv h hu
    · rw [hu]; exact h
  exact ((runFlagHandlers_step _ u).inv hi).registers rfl

end Sys2Proof.Machine
end

section
/-! PROOFS. What every operation of the block changes and keeps (`10_state.md` R20, R21, R39, R44), said once over the
constructors of `Instr`. -/

namespace Sys2Proof.Machine

variable {i : Instr} {n : Ep} {s t u : State}

/-! ### The bus reset -/

/-- What an operation that may run a bus reset changes and no more. -/
structure BlockStep (s t : State) : Prop where
  eq : t = { s with
    pmaCursor := t.pmaCursor, ets := t.ets, pm := t.pm, epr := t.epr, istr := t.istr, cntr := t.cntr, daddr := t.daddr,
    btable := t.btable, cra := t.cra, faults := t.faults, notes := t.notes, created := t.created }
  faults : ∀ i, s.faults.getLsbD i = true → t.faults.getLsbD i = true
  notes : s.notes <+: t.notes

theorem BlockStep.trans (h : BlockStep s t) (g : BlockStep t u) : BlockStep s u where
  eq := by rw [g.eq, h.eq]
  faults := fun i hi => g.faults i (h.faults i hi)
  notes := h.notes.trans g.notes

theorem FlagStep.block (h : FlagStep s t) : BlockStep s t := ⟨by rw [h.eq], h.faults, h.notes⟩

theorem PacketStep.block (h : PacketStep n s t) (hsm : t.sm = s.sm) : BlockStep s t :=
  ⟨by rw [h.eq, hsm], h.faults, h.notes⟩

theorem receiveOf_sm {b : Word} {l : Half} (h : receiveOf n b l s = .ok t) : t.sm = s.sm := by
  unfold receiveOf at h
  split at h
  · cases h; rfl
  · split at h
    · cases h
    · exact (beginReceive_sm h).trans (State.setEts_sm _ _ _)

theorem sendOf_sm {b : Word} {l : Half} (h : sendOf n b l s = .ok t) : t.sm = s.sm := by
  unfold sendOf at h
  split at h
  · cases h; rfl
  · split at h
    · cases h
    · exact (sendNext_sm h).trans (State.setEts_sm _ _ _)

theorem txComplete_sm {val : Half} (h : txCompleteOf n val s = .ok t) : t.sm = s.sm := by
  obtain ⟨u, hu, h⟩ := Eff.bind_ok h
  rw [← sendNext_sm hu]
  dsimp only at h
  split at h
  · split at h <;> (cases h; rfl)
  · cases h; rfl

theorem busResetOf_block (h : busResetOf s = .ok t) : BlockStep s t := by
  obtain ⟨u, v, hu, hv, rfl⟩ := busResetOf_ok h
  have h1 : BlockStep s u := by
    rw [(clearEndpoints_ok hu).1]
    exact ⟨rfl, fun _ h => h, List.prefix_refl _⟩
  have h2 : BlockStep u u.resetConfigured := ⟨rfl, fun _ h => h, List.prefix_refl _⟩
  have h3 : BlockStep u.resetConfigured v := (receiveOf_step hv).block (receiveOf_sm hv)
  have h4 : BlockStep v { notifyApp codeBusReset 0 0 0 v with cntr := 0xE600, daddr := 0x80 } :=
    ⟨rfl, fun _ h => h, List.prefix_append _ _⟩
  exact ((h1.trans h2).trans h3).trans h4

theorem handleReset_block (h : handleReset s = .ok t) : BlockStep s t := by
  obtain ⟨u, hu, h⟩ := Eff.bind_ok h
  cases h
  exact (busResetOf_block hu).trans ((FlagStep.refl u).istrWrite _).block

/-! ### Every operation -/

/-- The operations that do not run END_PACKET_RECEIVE. -/
def KeepsSystemMemory (i : Instr) : Prop :=
  (∀ n, i ≠ .endPacketReceive n) ∧ (∀ n val, i ≠ .rxComplete n val) ∧ i ≠ .dispatchEp

/-- The operations that run BUS_RESET at a state. -/
def RunsBusReset (i : Instr) (s : State) : Prop :=
  i = .busReset ∨ i = .reset ∨ (i = .dispatchEntry ∧ s.istrRead.getLsbD 10 = true)

/-- What operation `i` changes and keeps when it takes `s` to `t`. -/
structure OperationStep (i : Instr) (s t : State) : Prop where
  /-- CMD0, CMD1, the waiting frame, the wire trace, the parameters and the model's own fields are kept. -/
  eq : t = { s with
    pmaCursor := t.pmaCursor, ets := t.ets, pm := t.pm, epr := t.epr, istr := t.istr, cntr := t.cntr, daddr := t.daddr,
    btable := t.btable, cra := t.cra, faults := t.faults, phase := t.phase, result := t.result, notes := t.notes,
    created := t.created, sm := t.sm }
  result : (∀ length, i ≠ .alloc length) → t.result = s.result
  phase : i ≠ .dispatchEntry → i ≠ .dispatchExit → t.phase = s.phase
  sm : KeepsSystemMemory i → t.sm = s.sm
  /-- Without a bus reset the allocator's cursor does not fall and the control registers are kept. -/
  noReset : ¬ RunsBusReset i s →
    s.pmaCursor.toNat ≤ t.pmaCursor.toNat ∧ t.cntr = s.cntr ∧ t.daddr = s.daddr ∧ t.btable = s.btable ∧ t.cra = s.cra
  faults : ∀ i, s.faults.getLsbD i = true → t.faults.getLsbD i = true
  notes : s.notes <+: t.notes
  inv : s.Inv → t.Inv

theorem PacketStep.operation (p : PacketStep n s t) (hsm : KeepsSystemMemory i → t.sm = s.sm) (hi : s.Inv → t.Inv) :
    OperationStep i s t where
  eq := by rw [p.eq]
  result := fun _ => by rw [p.eq]
  phase := fun _ _ => by rw [p.eq]
  sm := hsm
  noReset := fun _ => ⟨p.cursor, by rw [p.eq], by rw [p.eq], by rw [p.eq], by rw [p.eq]⟩
  faults := p.faults
  notes := p.notes
  inv := hi

theorem FlagStep.operation (p : FlagStep s t) : OperationStep i s t where
  eq := by rw [p.eq]
  result := fun _ => by rw [p.eq]
  phase := fun _ _ => by rw [p.eq]
  sm := fun _ => by rw [p.eq]
  noReset := fun _ => by rw [p.eq]; exact ⟨Nat.le_refl _, rfl, rfl, rfl, rfl⟩
  faults := p.faults
  notes := p.notes
  inv := p.inv

/-- An operation that runs a bus reset at `s`. -/
theorem BlockStep.operation (p : BlockStep s t) (hr : RunsBusReset i s) (hi : s.Inv → t.Inv) : OperationStep i s t where
  eq := by rw [p.eq]
  result := fun _ => by rw [p.eq]
  phase := fun _ _ => by rw [p.eq]
  sm := fun _ => by rw [p.eq]
  noReset := fun h => absurd hr h
  faults := p.faults
  notes := p.notes
  inv := hi

theorem raiseFault_operation (i : Instr) (c : FaultCause) (s : State) : OperationStep i s (raiseFault c s) :=
  (PacketStep.raiseFault 0 s c).operation (fun _ => rfl) fun h => h.raiseFault c

theorem eprWrite_operation (i : Instr) (n : Ep) (w : Half) (s : State) : OperationStep i s (eprWrite n w s) :=
  (PacketStep.setEpr n s _).operation (fun _ => rfl) fun h => h.setEpr n _

theorem notifyApp_operation (i : Instr) (code ep : BitVec 8) (b : Word) (l : Half) (s : State) :
    OperationStep i s (notifyApp code ep b l s) :=
  (PacketStep.notify 0 s code ep b l).operation (fun _ => rfl) fun h => h.notify code ep b l

theorem configureOf_operation (i : Instr) (n : Ep) (address : BitVec 8) (size : Half) (type : TransferType) (s : State) :
    OperationStep i s (configureOf n address size type s) :=
  ((PacketStep.setEts n s _).trans (PacketStep.setEpr n _ _)).operation (fun _ => rfl) fun h => h.configure n address size type

theorem allocate_sm (l : Half) (s : State) : (allocate l s).2.sm = s.sm := by
  rcases allocate_cases l s with ⟨-, he⟩ | ⟨-, he⟩ <;> simp [he]

theorem allocate_operation (i : Instr) (l : Half) (s : State) : OperationStep i s (allocate l s).2 :=
  (PacketStep.allocate 0 s l).operation (fun _ => allocate_sm l s) fun h => h.allocate l

/-- ALLOC as a command is the internal one and a write of RESULT (R120). -/
theorem execAlloc_next {l : Half} (h : execAlloc l s = .next t) : t = { (allocate l s).2 with result := t.result } := by
  unfold execAlloc at h
  split at h <;> next he => cases h; rw [he]

theorem execAlloc_operation {l : Half} (h : execAlloc l s = .next t) : OperationStep (.alloc l) s t := by
  have p := allocate_operation (.alloc l) l s
  rw [execAlloc_next h]
  exact {
    eq := by rw [p.eq]
    result := fun hl => absurd rfl (hl l)
    phase := p.phase
    sm := p.sm
    noReset := p.noReset
    faults := p.faults
    notes := p.notes
    inv := fun hi => (p.inv hi).registers rfl }

theorem execConfigure_operation {ep address type : BitVec 8} {size : Half} (i : Instr)
    (h : execConfigure ep address size type s = .next t) : OperationStep i s t := by
  unfold execConfigure at h
  split at h <;> cases h
  · exact configureOf_operation i _ _ _ _ s
  · exact raiseFault_operation i _ s

theorem setStatusCommand_operation (i : Instr) (ep : BitVec 8) (desired mask : Half) (s : State) :
    OperationStep i s (setStatusCommand ep desired mask s) := by
  unfold setStatusCommand
  split
  · exact eprWrite_operation i _ _ s
  · exact raiseFault_operation i _ s

theorem receiveOf_operation {b : Word} {l : Half} (i : Instr) (h : receiveOf n b l s = .ok t) : OperationStep i s t :=
  (receiveOf_step h).operation (fun _ => receiveOf_sm h) fun hi => receiveOf_inv hi h

theorem sendCommand_operation {ep : BitVec 8} {b : Word} {l : Half} (i : Instr) (h : sendCommand ep b l s = .ok t) :
    OperationStep i s t := by
  unfold sendCommand at h
  split at h
  · exact (sendOf_step h).operation (fun _ => sendOf_sm h) fun hi => sendOf_inv hi h
  · cases h; exact raiseFault_operation i _ s

theorem receiveCommand_operation {ep : BitVec 8} {b : Word} {l : Half} (i : Instr) (h : receiveCommand ep b l s = .ok t) :
    OperationStep i s t := by
  unfold receiveCommand at h
  split at h
  · exact receiveOf_operation i h
  · cases h; exact raiseFault_operation i _ s

theorem dispatchEntryOf_operation (h : dispatchEntryOf s = .ok t) : OperationStep .dispatchEntry s t := by
  obtain ⟨u, hu, ht⟩ := dispatchEntryOf_ok h
  have hf := runFlagHandlers_step s.istrRead u
  have p : OperationStep .dispatchEntry s (runFlagHandlers s.istrRead u) := by
    split at hu
    · next hx =>
      exact ((handleReset_block hu).trans hf.block).operation (.inr (.inr ⟨rfl, hx⟩)) fun hi => hf.inv (handleReset_inv hi hu)
    · subst hu; exact hf.operation
  rw [ht]
  exact {
    eq := by rw [p.eq]; rfl
    result := p.result
    phase := fun hn => absurd rfl hn
    sm := p.sm
    noReset := p.noReset
    faults := p.faults
    notes := p.notes
    inv := fun hi => (p.inv hi).registers rfl }

theorem leaveDispatcher_operation (s : State) : OperationStep .dispatchExit s (leaveDispatcher s) where
  eq := rfl
  result := fun _ => rfl
  phase := fun _ hn => absurd rfl hn
  sm := fun _ => rfl
  noReset := fun _ => ⟨Nat.le_refl _, rfl, rfl, rfl, rfl⟩
  faults := fun _ hi => hi
  notes := List.prefix_refl _
  inv := fun hi => hi.registers rfl

/-- What an operation does when it ends in a state. -/
theorem exec_operation (h : exec i s = .next t) : OperationStep i s t := by
  cases i with
  | alloc length => exact execAlloc_operation h
  | configure ep address packetSize type => exact execConfigure_operation _ h
  | setStatus ep desired mask => cases h; exact setStatusCommand_operation _ ep desired mask s
  | send ep buffer length => exact sendCommand_operation _ (settle_next.1 h)
  | receive ep buffer length => exact receiveCommand_operation _ (settle_next.1 h)
  | reserved opcode => cases h; exact raiseFault_operation _ _ s
  | cancelSend ep => exact sendCommand_operation _ (settle_next.1 h)
  | cancelReceive ep => exact receiveCommand_operation _ (settle_next.1 h)
  | setTxStatus ep code => cases h; exact setStatusCommand_operation _ ep _ _ s
  | setRxStatus ep code => cases h; exact setStatusCommand_operation _ ep _ _ s
  | dispatchEntry => exact dispatchEntryOf_operation (settle_next.1 h)
  | dispatchEp =>
    have e := settle_next.1 h
    exact (dispatchEp_step e).operation (fun hk => absurd rfl hk.2.2) fun hi => dispatchEp_inv hi e
  | dispatchExit => cases h; exact leaveDispatcher_operation s
  | reset =>
    have e := settle_next.1 h
    exact (handleReset_block e).operation (.inr (.inl rfl)) fun hi => handleReset_inv hi e
  | susp => cases h; exact ((FlagStep.refl s).istrWrite _).operation
  | wkup => cases h; exact ((FlagStep.refl s).istrWrite _).operation
  | err => cases h; exact ((FlagStep.refl s).istrWrite _).operation
  | sof => cases h; exact (FlagStep.refl s).sof.operation
  | esof => cases h; exact ((FlagStep.refl s).istrWrite _).operation
  | pmaovr => cases h; exact (FlagStep.refl s).pmaovr.operation
  | rxComplete n val =>
    have e := settle_next.1 h
    exact (rxComplete_step e).operation (fun hk => absurd rfl (hk.2.1 n val)) fun hi => rxComplete_inv hi e
  | txComplete n val =>
    have e := settle_next.1 h
    exact (txComplete_step e).operation (fun _ => txComplete_sm e) fun hi => txComplete_inv hi e
  | ctlEventSetup =>
    have e := settle_next.1 h
    exact (ctlSetup_step e).operation (fun _ => (receiveOf_sm e).trans (notifyApp_sm _ _ _ _ _)) fun hi => ctlSetup_inv hi e
  | ctlEventOut => cases h; exact notifyApp_operation _ _ _ _ _ s
  | ctlEventIn => cases h; exact notifyApp_operation _ _ _ _ _ s
  | sendNextPacket n =>
    have e := settle_next.1 h
    exact (sendNext_step e).operation (fun _ => sendNext_sm e) fun hi => sendNext_inv hi e
  | beginPacketReceive n =>
    have e := settle_next.1 h
    exact (beginReceive_step e).operation (fun _ => beginReceive_sm e) fun hi => beginReceive_inv hi e
  | endPacketReceive n =>
    have e := settle_next.1 h
    exact (endReceive_step e).operation (fun hk => absurd rfl (hk.1 n)) fun hi => endReceive_inv hi e
  | busReset =>
    have e := settle_next.1 h
    exact (busResetOf_block e).operation (.inl rfl) fun hi => busResetOf_inv hi e
  | allocInternal length => cases h; exact allocate_operation _ length s
  | configureInternal n address packetSize type => cases h; exact configureOf_operation _ n address packetSize type s
  | receiveInternal n buffer length => exact receiveOf_operation _ (settle_next.1 h)
  | setStatusInternal n desired mask => cases h; exact eprWrite_operation _ n _ s
  | clearCtrRx n val => cases h; exact eprWrite_operation _ n _ s
  | clearCtrTx n val => cases h; exact eprWrite_operation _ n _ s
  | notify code ep buffer length => cases h; exact notifyApp_operation _ code ep buffer length s

end Sys2Proof.Machine
end

section
/-! PROOFS. What a step of the environment changes and keeps, what a step of any agent can do, and the statements about
every step: the invariant, the FAULT bits, the traces, the allocator's cursor. -/

namespace Sys2Proof.Machine

variable {s t : State}

/-! ### The SIE and the application -/

/-- What a step of the environment changes and keeps: nothing of the allocator, the transfer records, FAULT, RESULT, the
dispatcher phase or the notification trace changes, and the wire trace grows. -/
structure EnvironmentStep (s t : State) : Prop where
  eq : t = { s with
    pm := t.pm, sm := t.sm, epr := t.epr, istr := t.istr, cntr := t.cntr, daddr := t.daddr, btable := t.btable, cra := t.cra,
    cmd0 := t.cmd0, cmd1 := t.cmd1, frame := t.frame, wire := t.wire, script := t.script, appSaw := t.appSaw,
    freeIndex := t.freeIndex }
  wire : s.wire <+: t.wire
  inv : s.Inv → t.Inv

theorem EnvironmentStep.refl (s : State) : EnvironmentStep s s := ⟨rfl, List.prefix_refl _, id⟩

theorem EnvironmentStep.trans {u : State} (h : EnvironmentStep s t) (g : EnvironmentStep t u) : EnvironmentStep s u where
  eq := by rw [g.eq, h.eq]
  wire := h.wire.trans g.wire
  inv := fun hi => g.inv (h.inv hi)

/-- The turn is taken off the script. -/
theorem withScript_environment (s : State) (rest : List Turn) : EnvironmentStep s { s with script := rest } :=
  ⟨rfl, List.prefix_refl _, fun hi => hi.registers rfl⟩

/-- The frame is accepted (R94). -/
theorem withoutFrame_environment (s : State) : EnvironmentStep s { s with frame := none } :=
  ⟨rfl, List.prefix_refl _, fun hi => ⟨hi.params, hi.pm, hi.sm, hi.btable, hi.cursor, hi.tx, hi.rx, nofun⟩⟩

theorem setEpr_environment (n : Ep) (w : Half) (s : State) : EnvironmentStep s (s.setEpr n w) :=
  ⟨rfl, List.prefix_refl _, fun hi => hi.setEpr n w⟩

theorem sieTx_environment {n : Ep} (h : sieTx n s = .ok t) : EnvironmentStep s t := by
  obtain ⟨-, -, -, -, rfl⟩ := sieTx_ok h
  have hw : EnvironmentStep s { s with wire := s.wire ++
      [WireEntry.mk n (s.pmBytes (s.bdt n .txAddr).toNat (txByteCount (s.bdt n .txCount)))] } :=
    ⟨rfl, List.prefix_append _ _, fun hi => hi.registers rfl⟩
  exact hw.trans (setEpr_environment n _ _)

/-- The data bytes of a receive keep the invariant: they are inside packet memory (R222). -/
theorem pmWriteBytes_environment {a : Nat} {l : List Byte} (h : pmWriteBytes a l s = .ok t) : EnvironmentStep s t := by
  obtain ⟨heq, -, hwf⟩ := pmWriteBytes_ok h
  refine ⟨by rw [heq], by rw [heq], fun hi => ?_⟩
  have hpm := hwf hi.pm
  rw [heq]
  exact ⟨hi.params, hpm, hi.sm, hi.btable, hi.cursor, hi.tx, hi.rx, hi.frame⟩

theorem sieRx_environment {n : Ep} {data : List Byte} {setup : Bool} (h : sieRx n data setup s = .ok t) :
    EnvironmentStep s t := by
  obtain ⟨-, -, -, -, u, hu, hb, rfl⟩ := sieRx_ok h
  have hbt : u.btable = s.btable := by rw [(pmWriteBytes_ok hu).1]
  have hd : EnvironmentStep u (u.setBdt n .rxCount (withCount (u.bdt n .rxCount) data.length)) :=
    ⟨rfl, List.prefix_refl _, fun hi => hi.setBdt _ (hbt ▸ hb)⟩
  exact ((pmWriteBytes_environment hu).trans hd).trans (setEpr_environment n _ _)

theorem sieStep_environment {m : SieMove} (h : sieStep m s = .ok t) : EnvironmentStep s t := by
  cases m with
  | tx n => exact sieTx_environment h
  | rx n data setup => exact sieRx_environment h
  | flag name => cases h; exact ⟨rfl, List.prefix_refl _, fun hi => hi.registers rfl⟩
  | reset => cases h; exact ⟨rfl, List.prefix_refl _, fun hi => hi.registers rfl⟩

/-- Presenting a frame: only after the first BUS_RESET (R94). -/
theorem presentFrame_environment {c : Word} (h : presentFrame c s = .ok t) : EnvironmentStep s t := by
  unfold presentFrame at h
  split at h
  · next hk =>
    cases h
    exact ⟨rfl, List.prefix_refl _, fun hi =>
      ⟨hi.params, hi.pm, hi.sm, hi.btable, hi.cursor, hi.tx, hi.rx, fun _ => hk⟩⟩
  · cases h

theorem appRegWrite_environment {r : RegName} {width : RegWidth} {v : Word} (h : appRegWrite r width v s = .ok t) :
    EnvironmentStep s t := by
  cases r with
  | epr n => cases h; exact setEpr_environment n _ s
  | cntr => cases h; exact ⟨rfl, List.prefix_refl _, fun hi => hi.registers rfl⟩
  | istr => cases h; exact ⟨rfl, List.prefix_refl _, fun hi => hi.istrWrite _⟩
  | daddr => cases h; exact ⟨rfl, List.prefix_refl _, fun hi => hi.registers rfl⟩
  | btable => cases h; exact ⟨rfl, List.prefix_refl _, fun hi => hi.btableWrite _⟩
  | cra => cases h; exact ⟨rfl, List.prefix_refl _, fun hi => hi.registers rfl⟩
  | cmd1 => cases h; exact ⟨rfl, List.prefix_refl _, fun hi => hi.registers rfl⟩
  | cmd0 =>
    have hf : EnvironmentStep s { s with freeIndex := wideIndex width s } :=
      ⟨rfl, List.prefix_refl _, fun hi => hi.registers rfl⟩
    exact hf.trans (presentFrame_environment h)
  | result => cases h; exact .refl s
  | fault => cases h; exact .refl s
  | cursor => cases h; exact .refl s
  | reserved => cases h; exact .refl s
  | insideSlot offset => cases h; exact .refl s

theorem withAppSaw_environment (s : State) (x : AppSaw) (k : Nat) :
    EnvironmentStep s { s with appSaw := x, freeIndex := k } :=
  ⟨rfl, List.prefix_refl _, fun hi => hi.registers rfl⟩

theorem appPmRead_environment {width : PmWidth} {address : Word} (h : appPmRead width address s = .ok t) :
    EnvironmentStep s t := by
  obtain ⟨a, -, h⟩ := Eff.bind_ok h
  cases width with
  | w8 => obtain ⟨b, -, h⟩ := Eff.bind_ok h; cases h; exact withAppSaw_environment s _ _
  | w16 => obtain ⟨w, -, h⟩ := Eff.bind_ok h; cases h; exact withAppSaw_environment s _ _
  | w32 => cases h

theorem appPmWrite_environment {width : PmWidth} {address : Word} {v : Half} (h : appPmWrite width address v s = .ok t) :
    EnvironmentStep s t := by
  obtain ⟨a, -, h⟩ := Eff.bind_ok h
  cases width with
  | w8 =>
    obtain ⟨ha, rfl⟩ := pmWrite8_ok.1 h
    exact ⟨rfl, List.prefix_refl _, fun hi => hi.setPmByte _ ha⟩
  | w16 =>
    obtain ⟨-, ha, rfl⟩ := pmWrite16_ok.1 h
    exact ⟨rfl, List.prefix_refl _, fun hi => (hi.setPmByte _ (by omega)).setPmByte _ ha⟩
  | w32 => cases h

theorem appStep_environment {m : AppMove} (h : appStep m s = .ok t) : EnvironmentStep s t := by
  cases m with
  | regRead width address => cases h; exact withAppSaw_environment s _ _
  | regWrite width address value => exact appRegWrite_environment h
  | pmRead width address => exact appPmRead_environment h
  | pmWrite width address value => exact appPmWrite_environment h
  | smRead address => cases h; exact withAppSaw_environment s _ _
  | smWrite address value => cases h; exact ⟨rfl, List.prefix_refl _, fun hi => hi.setSmByte _ _⟩
  | traceRead => cases h; exact withAppSaw_environment s _ _

/-! ### Every step -/

theorem decodeFrame_opcode_isSome (f : Wide) : (decodeFrame f).opcode.isSome = true := by
  unfold decodeFrame
  dsimp only
  split_ifs <;> rfl

/-- No frame decodes to an operation that can run BUS_RESET: those have no opcode (R102). -/
theorem decodeFrame_not_runsBusReset (f : Wide) (s : State) : ¬ RunsBusReset (decodeFrame f) s := by
  have hf := decodeFrame_opcode_isSome f
  rintro (h | h | ⟨h, -⟩) <;> rw [h] at hf <;> cases hf

/-- A step of any agent takes its turn, and then at most runs one operation of the block; one that runs BUS_RESET is
DISPATCH_ENTRY, run while IRQ is asserted. -/
theorem step_operation (h : step s = .next t) :
    ∃ u, EnvironmentStep s u ∧
      (t = u ∨ ∃ i, OperationStep i u t ∧
        (RunsBusReset i u → (∃ rest, u = { s with script := rest }) ∧ s.phase = .idle ∧ s.irq = true ∧
          u.istrRead.getLsbD 10 = true ∧ dispatchEntryOf u = .ok t)) := by
  rcases step_cases h with ⟨u, hu, h⟩ | ⟨m, rest, -, h⟩ | ⟨m, rest, -, -, h⟩
  · obtain ⟨rest, rfl⟩ : ∃ rest, u = { s with script := rest } := hu.elim (fun e => ⟨s.script, e⟩) id
    have hs := withScript_environment s rest
    rcases blockTurn_cases h with ⟨rfl, -⟩ | ⟨hp, hq, h⟩ | ⟨-, -, -, h⟩ | ⟨-, -, h⟩ | ⟨f, -, -, -, -, h⟩
    · exact ⟨_, hs, .inl rfl⟩
    · have hr : RunsBusReset .dispatchEntry { s with script := rest } → s.istrRead.getLsbD 10 = true := by
        simp only [RunsBusReset, reduceCtorEq, false_or, true_and]
        exact id
      exact ⟨_, hs, .inr ⟨_, exec_operation h, fun hx => ⟨⟨rest, rfl⟩, hp, hq, hr hx, settle_next.1 h⟩⟩⟩
    · exact ⟨_, hs, .inr ⟨_, exec_operation h, fun hx => by simp [RunsBusReset] at hx⟩⟩
    · exact ⟨_, hs, .inr ⟨_, exec_operation h, fun hx => by simp [RunsBusReset] at hx⟩⟩
    · exact ⟨_, hs.trans (withoutFrame_environment _), .inr ⟨_, exec_operation h,
        fun hx => absurd hx (decodeFrame_not_runsBusReset f _)⟩⟩
  · exact ⟨t, (withScript_environment s rest).trans (sieStep_environment h), .inl rfl⟩
  · exact ⟨t, (withScript_environment s rest).trans (appStep_environment h), .inl rfl⟩

/-- Settles O53: the environment's moves and each operation of the block keep the invariant, and a step is made of
these. -/
theorem stepKeepsInvariant : Obligations.StepKeepsInvariant := by
  intro s t hi h
  obtain ⟨u, hu, rfl | ⟨i, hop, -⟩⟩ := step_operation h
  · exact hu.inv hi
  · exact hop.inv (hu.inv hi)

/-- Settles O54: the environment keeps FAULT, and an operation of the block only raises its bits. -/
theorem faultBitsAreSticky : Obligations.FaultBitsAreSticky := by
  intro s t i h hi
  obtain ⟨u, hu, ht⟩ := step_operation h
  have hui : u.faults.getLsbD i = true := by rw [hu.eq]; exact hi
  rcases ht with rfl | ⟨j, hop, -⟩
  · exact hui
  · exact hop.faults i hui

/-- Settles O55: the environment only lengthens the wire trace, and an operation of the block only the notification
trace. -/
theorem tracesOnlyGrow : Obligations.TracesOnlyGrow := by
  intro s t h
  obtain ⟨u, hu, ht⟩ := step_operation h
  have hn : u.notes = s.notes := by rw [hu.eq]
  rcases ht with rfl | ⟨j, hop, -⟩
  · exact ⟨hn ▸ List.prefix_refl _, hu.wire⟩
  · have hw : t.wire = u.wire := by rw [hop.eq]
    exact ⟨hn ▸ hop.notes, hw ▸ hu.wire⟩

/-! ### The allocator's cursor over a bus reset -/

/-- A buffer that is not null and does not wrap goes to BEGIN_PACKET_RECEIVE with the transfer recorded (R160). -/
theorem receiveOf_recorded {n : Ep} {b : Word} {l : Half} (hb : b ≠ 0) (hw : bufferWraps b l = false) :
    receiveOf n b l s = beginReceive n (s.setEts n { s.etsOf n with rxBuf := b, rxLen := l, rxCursor := b }) := by
  unfold receiveOf
  rw [if_neg hb, hw, if_neg Bool.false_ne_true]

/-- BUS_RESET arms endpoint 0, whose cleared descriptor takes the first 64 bytes of the allocation region (R192). -/
theorem busResetOf_cursor (hp : s.params.Ok) (h : busResetOf s = .ok t) : t.pmaCursor = 128 := by
  obtain ⟨hb, hend⟩ := hp
  obtain ⟨u, v, hu, hv, rfl⟩ := busResetOf_ok h
  have hw : bufferWraps s.params.setupBufAddr Config.setupLen = false := decide_eq_false (Nat.not_lt.2 hend)
  rw [receiveOf_recorded hb hw] at hv
  generalize hr : u.resetConfigured.setEts 0 _ = r at hv
  have hets : (r.etsOf 0).packetSize = 64 ∧ (r.etsOf 0).rxCursor = s.params.setupBufAddr := by
    rw [← hr, State.setEts_etsOf_same]
    exact ⟨by simp [State.resetConfigured, configureOf, Config.ep0PacketSize], rfl⟩
  have hbdt : r.bdt 0 .rxAddr = 0 := by
    rw [← hr]
    exact ((clearEndpoints_ok hu).2.1 0 .rxAddr).trans (if_pos (by decide))
  have hcur : r.pmaCursor = 64 := by rw [← hr]; rfl
  have hfit : r.Fits (r.etsOf 0).packetSize := by
    unfold State.Fits
    rw [hets.1, hcur]
    decide
  show v.pmaCursor = 128
  rcases beginReceive_ok hv with ⟨hn, -⟩ | ⟨-, -, hf, -⟩ | ⟨-, -, rfl, -⟩
  · rcases hn with hn | hn
    · exact absurd (hets.2.symm.trans hn) hb
    · rw [hets.1] at hn; cases hn
  · exact absurd hfit hf
  · show (r.withRxBuffer 0).pmaCursor = 128
    rw [State.withRxBuffer_some hbdt hfit, State.setBdt_pmaCursor, hets.1, hcur]
    rfl

/-- DISPATCH_ENTRY with RESET sampled leaves the cursor of the bus reset: the other handlers do not allocate. -/
theorem dispatchEntryOf_cursor (hp : s.params.Ok) (hx : s.istrRead.getLsbD 10 = true) (h : dispatchEntryOf s = .ok t) :
    t.pmaCursor = 128 := by
  obtain ⟨u, hu, rfl⟩ := dispatchEntryOf_ok h
  rw [if_pos hx] at hu
  obtain ⟨v, hv, hu⟩ := Eff.bind_ok hu
  cases hu
  have hv128 : v.pmaCursor = 128 := busResetOf_cursor hp hv
  rw [enterDispatcher_pmaCursor, (runFlagHandlers_step _ _).eq]
  exact hv128

/-- Settles O56: only an operation that runs BUS_RESET can move the cursor down, and the step that runs one is the
dispatcher's entry. -/
theorem cursorNeverRetreats : Obligations.CursorNeverRetreats := by
  intro s t hi h
  obtain ⟨u, hu, ht⟩ := step_operation h
  have hc : u.pmaCursor = s.pmaCursor := by rw [hu.eq]
  rcases ht with rfl | ⟨i, hop, hreset⟩
  · exact .inl (hc ▸ Nat.le_refl _)
  · by_cases hr : RunsBusReset i u
    · obtain ⟨⟨rest, rfl⟩, hp, hq, hx, he⟩ := hreset hr
      exact .inr ⟨hp, hq, hx, dispatchEntryOf_cursor (hu.inv hi).params hx he⟩
    · exact .inl (hc ▸ (hop.noReset hr).1)

/-! ### The frame of the operations -/

/-- Settles O58: the fields of the first line are no operation's, and each of the others has its writers. -/
theorem operationFrame : Obligations.OperationFrame := by
  intro i s t h
  have p := exec_operation h
  have hkept : t.params = s.params ∧ t.cmd0 = s.cmd0 ∧ t.cmd1 = s.cmd1 ∧ t.frame = s.frame ∧ t.wire = s.wire ∧
      t.script = s.script ∧ t.appSaw = s.appSaw ∧ t.freeIndex = s.freeIndex := by
    rw [p.eq]
    exact ⟨rfl, rfl, rfl, rfl, rfl, rfl, rfl, rfl⟩
  obtain ⟨hparams, hcmd0, hcmd1, hframe, hwire, hscript, hsaw, hfree⟩ := hkept
  exact ⟨hparams, hcmd0, hcmd1, hframe, hwire, hscript, hsaw, hfree, p.result, p.phase, fun h1 h2 h3 => p.sm ⟨h1, h2, h3⟩⟩

/-- A command names endpoint `n` by its number (R137). -/
theorem endpointOf_eq {ep : BitVec 8} {n : Ep} (h : ep.toNat = n.val) : endpointOf ep = some n := by
  have hlt : ep.toNat < 8 := h ▸ n.isLt
  unfold endpointOf
  rw [dif_pos hlt]
  exact congrArg some (Fin.ext h)

/-- Settles O59: each of these operations is a packet operation on its own endpoint. -/
theorem otherEndpointsUntouched : Obligations.OtherEndpointsUntouched := by
  intro i n k s t hk hi h
  suffices p : PacketStep n s t from p.others k hk
  rcases hi with rfl | rfl | rfl | ⟨val, rfl⟩ | ⟨val, rfl⟩ | ⟨rfl, rfl⟩ | ⟨ep, b, l, hep, rfl | rfl⟩ | ⟨b, l, rfl⟩ |
    ⟨rfl, rfl | rfl | rfl⟩
  · exact sendNext_step (settle_next.1 h)
  · exact beginReceive_step (settle_next.1 h)
  · exact endReceive_step (settle_next.1 h)
  · exact rxComplete_step (settle_next.1 h)
  · exact txComplete_step (settle_next.1 h)
  · exact dispatchEp_step (settle_next.1 h)
  · have e : sendCommand ep b l s = .ok t := settle_next.1 h
    rw [sendCommand, endpointOf_eq hep] at e
    exact sendOf_step e
  · have e : receiveCommand ep b l s = .ok t := settle_next.1 h
    rw [receiveCommand, endpointOf_eq hep] at e
    exact receiveOf_step e
  · exact receiveOf_step (settle_next.1 h)
  · exact ctlSetup_step (settle_next.1 h)
  · cases h; exact PacketStep.notify 0 s _ _ _ _
  · cases h; exact PacketStep.notify 0 s _ _ _ _

end Sys2Proof.Machine
end

section
/-! PROOFS. The registers (`10_state.md` R29 to R47): the fields of a written endpoint register, ISTR as read and the
interrupt line, the register map, and the state after power-on. -/

namespace Sys2Proof.Machine

variable {s : State}

/-! ### EPRWrite by kinds of field (R29) -/

section Fields

variable {cur w : Half} {k l : Nat}

/-- A completion flag is ANDed. -/
theorem eprWriteWord_flag (h : ∀ i < l, k + i = 15 ∨ k + i = 7) :
    (eprWriteWord cur w).extractLsb' k l = cur.extractLsb' k l &&& w.extractLsb' k l := by
  apply BitVec.eq_of_getLsbD_eq
  intro i hi
  have hk := h i hi
  rw [BitVec.getLsbD_extractLsb', eprWriteWord_getLsbD _ _ _ (by omega), if_pos hk]
  simp [hi]

/-- A toggle or status field is XORed. -/
theorem eprWriteWord_toggle
    (h : ∀ i < l, k + i = 14 ∨ k + i = 13 ∨ k + i = 12 ∨ k + i = 6 ∨ k + i = 5 ∨ k + i = 4) :
    (eprWriteWord cur w).extractLsb' k l = cur.extractLsb' k l ^^^ w.extractLsb' k l := by
  apply BitVec.eq_of_getLsbD_eq
  intro i hi
  have hk := h i hi
  rw [BitVec.getLsbD_extractLsb', eprWriteWord_getLsbD _ _ _ (by omega), if_neg (by omega), if_pos hk]
  simp [hi]

/-- SETUP is kept. -/
theorem eprWriteWord_setup : (eprWriteWord cur w).extractLsb' 11 1 = cur.extractLsb' 11 1 := by
  apply BitVec.eq_of_getLsbD_eq
  intro i hi
  obtain rfl : i = 0 := by omega
  rw [BitVec.getLsbD_extractLsb', BitVec.getLsbD_extractLsb', eprWriteWord_getLsbD _ _ _ (by decide)]
  rfl

/-- A plain field is written. -/
theorem eprWriteWord_plain (h : ∀ i < l, k + i ≤ 3 ∨ (8 ≤ k + i ∧ k + i ≤ 10)) :
    (eprWriteWord cur w).extractLsb' k l = w.extractLsb' k l := by
  apply BitVec.eq_of_getLsbD_eq
  intro i hi
  have hk := h i hi
  rw [BitVec.getLsbD_extractLsb', eprWriteWord_getLsbD _ _ _ (by omega), if_neg (by omega), if_neg (by omega),
    if_neg (by omega)]
  simp [hi]

end Fields

/-- Settles O8: each field is of one of the four kinds. -/
theorem eprWriteFields : Obligations.EprWriteFields := by
  intro n w s cur new
  have hnew : new = eprWriteWord cur w := eprWrite_eprOf_same n w s
  refine ⟨by rw [hnew]; rfl, ?_⟩
  rw [hnew]
  exact ⟨eprWriteWord_flag (by omega), eprWriteWord_toggle (by omega), eprWriteWord_toggle (by omega), eprWriteWord_setup,
    eprWriteWord_plain (by omega), eprWriteWord_plain (by omega), eprWriteWord_flag (by omega),
    eprWriteWord_toggle (by omega), eprWriteWord_toggle (by omega), eprWriteWord_plain (by omega)⟩

/-! ### ISTR as read (R31, R32) -/

theorem istrRead_ctr (s : State) : s.istrRead.getLsbD 15 = s.ctr := by
  unfold State.istrRead istrWord
  rw [BitVec.getLsbD_append, BitVec.getLsbD_append, BitVec.getLsbD_append]
  cases s.ctr <;> rfl

theorem istrRead_flags (s : State) : s.istrRead.extractLsb' 8 7 = s.istr := by
  unfold State.istrRead istrWord
  rw [BitVec.extractLsb'_append_eq_of_le (by decide), BitVec.extractLsb'_append_eq_of_le (by decide)]
  exact BitVec.extractLsb'_append_eq_right

theorem istrRead_reserved (s : State) : s.istrRead.extractLsb' 4 4 = 0 := by
  unfold State.istrRead istrWord
  rw [BitVec.extractLsb'_append_eq_of_le (by decide)]
  exact BitVec.extractLsb'_append_eq_right

theorem istrRead_epId (s : State) : s.istrRead.extractLsb' 0 4 = BitVec.ofNat 4 s.epId.val :=
  BitVec.extractLsb'_append_eq_right

/-- Bits 14:8 of ISTR as read are the stored flags. -/
theorem istrRead_getLsbD (s : State) {i : Nat} (h8 : 8 ≤ i) (h14 : i ≤ 14) :
    s.istrRead.getLsbD i = s.istr.getLsbD (i - 8) := by
  rw [← istrRead_flags, BitVec.getLsbD_extractLsb', show 8 + (i - 8) = i by omega, decide_eq_true (by omega), Bool.true_and]

/-- A word is nonzero when some bit of it is 1. -/
theorem half_bne_zero_iff (x : Half) : (x != 0) = true ↔ ∃ i, x.getLsbD i = true := by
  have hz : x = 0 ↔ ∀ i, x.getLsbD i = false := BitVec.zero_iff_eq_false
  rw [bne_iff_ne, ne_eq, hz]
  simp only [not_forall, Bool.not_eq_false]

theorem completionPending_iff (e : Half) : completionPending e = true ↔ e.getLsbD 15 = true ∨ e.getLsbD 7 = true := by
  have hmask : ∀ i, completionMask.getLsbD i = true ↔ i = 15 ∨ i = 7 := by
    intro i
    by_cases hi : i < 16
    · unfold completionMask
      interval_cases i <;> decide
    · rw [BitVec.getLsbD_of_ge _ _ (by omega)]
      simp only [Bool.false_eq_true, false_iff]
      omega
  rw [completionPending, half_bne_zero_iff]
  simp only [BitVec.getLsbD_and, Bool.and_eq_true, hmask, and_or_left, exists_or, exists_eq_right]

theorem mem_pendingEps (s : State) (n : Ep) :
    n ∈ s.pendingEps ↔ (s.eprOf n).getLsbD 15 = true ∨ (s.eprOf n).getLsbD 7 = true := by
  have hn : n ∈ Config.endpoints := by revert n; decide
  rw [State.pendingEps, List.mem_filter, completionPending_iff]
  exact and_iff_right hn

theorem not_mem_pendingEps {n : Ep} (h : (s.eprOf n).getLsbD 15 = false ∧ (s.eprOf n).getLsbD 7 = false) :
    n ∉ s.pendingEps := by
  rw [mem_pendingEps, h.1, h.2]
  simp

theorem ctr_iff (s : State) :
    s.ctr = true ↔ ∃ n : Ep, (s.eprOf n).getLsbD 15 = true ∨ (s.eprOf n).getLsbD 7 = true := by
  simp only [State.ctr, Bool.not_eq_true', List.isEmpty_eq_false_iff_exists_mem, mem_pendingEps]

/-- EP_ID is the lowest endpoint pending: the list of pending endpoints ascends (R32). -/
theorem epId_lowest {n : Ep} (hn : n ∈ s.pendingEps) (hlow : ∀ k < n, k ∉ s.pendingEps) : s.epId = n := by
  have hsorted : s.pendingEps.Pairwise (· < ·) := List.Pairwise.filter _ (by decide)
  unfold State.epId
  cases hl : s.pendingEps with
  | nil => rw [hl] at hn; cases hn
  | cons m ms =>
    rw [hl] at hn hlow hsorted
    show m = n
    rcases List.mem_cons.1 hn with rfl | hn
    · rfl
    · exact absurd List.mem_cons_self (hlow m (List.rel_of_pairwise_cons hsorted hn))

theorem epId_none (h : s.pendingEps = []) : s.epId = 0 := by
  unfold State.epId
  rw [h]
  rfl

/-- The interrupt line, condition by condition (R35). -/
theorem irqLine_iff (x c : Half) :
    irqLine x c = true ↔ ∃ i, 8 ≤ i ∧ i ≤ 15 ∧ x.getLsbD i = true ∧ c.getLsbD i = true := by
  have hmask : ∀ i, (0xFF00 : Half).getLsbD i = true ↔ 8 ≤ i ∧ i ≤ 15 := by
    intro i
    by_cases hi : i < 16
    · interval_cases i <;> decide
    · rw [BitVec.getLsbD_of_ge _ _ (by omega)]
      simp only [Bool.false_eq_true, false_iff]
      omega
  rw [irqLine, half_bne_zero_iff]
  simp only [BitVec.getLsbD_and, Bool.and_eq_true, hmask]
  exact exists_congr fun i => by tauto

/-- Settles O9, through the ascending list of endpoints with a completion pending. -/
theorem statusReadAndInterruptLine : Obligations.StatusReadAndInterruptLine := by
  intro s
  refine ⟨by rw [istrRead_ctr, ctr_iff], fun n hn hlow => ?_, fun hnone => ?_, istrRead_flags s, istrRead_reserved s,
    irqLine_iff _ _⟩
  · have hid : s.epId = n := epId_lowest ((mem_pendingEps s n).2 hn) fun k hk => not_mem_pendingEps (hlow k hk)
    rw [istrRead_epId, hid, BitVec.toNat_ofNat]
    omega
  · have hnil : s.pendingEps = [] := List.eq_nil_iff_forall_not_mem.2 fun k => not_mem_pendingEps (hnone k)
    rw [istrRead_epId, epId_none hnil]
    rfl

/-- Settles O10: ISTR as read shows the stored flags, which the write ANDs with its bits 14:8. -/
theorem istrWriteClears : Obligations.IstrWriteClears := by
  intro w s
  refine ⟨rfl, fun i h8 h14 => ?_⟩
  rw [istrRead_getLsbD _ h8 h14, istrRead_getLsbD _ h8 h14, istrWrite_istr, istrWriteFlags, BitVec.getLsbD_and,
    BitVec.getLsbD_extractLsb', show 8 + (i - 8) = i by omega, decide_eq_true (by omega), Bool.true_and]

end Sys2Proof.Machine
end

section
/-! PROOFS. The register map (`10_state.md` R47) and the state after power-on (R46). -/

namespace Sys2Proof.Machine

variable {s : State} {rest : List Turn} {width : RegWidth} {off v : Word}

/-! ### Reads -/

/-- A read at an offset of the map. -/
theorem step_regRead (h : s.script = .app (.regRead width (s.params.regBase + off)) :: rest) :
    step s = .next (appRegRead width (regAt off.toNat) { s with script := rest }) := by
  rw [step_app h rfl, ← State.regAtBus_add s off]
  rfl

/-- A read of a register that takes no free value. -/
theorem appRegRead_fixed {r : RegName} (hv : regValue width r s = v) (hf : regReadIsFree width r s = false) :
    appRegRead width r s = { s with appSaw := .word v } := by
  unfold appRegRead
  rw [hv, hf]
  rfl

theorem regAt_epr (n : Ep) : regAt (BitVec.ofNat 32 (4 * n.val)).toNat = .epr n := by
  rw [BitVec.toNat_ofNat, Nat.mod_eq_of_lt (by omega), regAt_slot]
  exact dif_pos n.isLt

/-- A 16-bit read that covers only bits above a register's width has no open bit (R47). -/
theorem openReadBits_aboveWidth (h : off.toNat % 4 = 2 ∨ off = 0x4D ∨ off = 0x59 ∨ off = 0x6D) :
    openReadBits .w16 off.toNat = 0 := by
  rcases h with h | rfl | rfl | rfl
  · exact openReadBits_upperHalf h
  · decide
  · decide
  · decide

/-- A read inside a slot with no open bit returns 0. -/
theorem regValue_inside (s : State) (h4 : off.toNat % 4 ≠ 0) (h : openReadBits width off.toNat = 0) :
    regValue width (regAt off.toNat) s = 0 ∧ regReadIsFree width (regAt off.toNat) s = false := by
  rcases regAt_inside h4 with hr | hr <;> rw [hr]
  · exact ⟨rfl, rfl⟩
  · exact ⟨by rw [regValue, h]; exact BitVec.and_zero, by simp [regReadIsFree, h]⟩

/-- The reserved ranges, by the offsets the map lists (R47). -/
theorem regAt_reserved_offset
    (h : (0x20 ≤ off.toNat ∧ off.toNat ≤ 0x3F) ∨ off = 0x48 ∨ off = 0x54 ∨ off = 0x5C ∨ 0x74 ≤ off.toNat) :
    regAt off.toNat = .reserved := by
  rcases h with h | rfl | rfl | rfl | h
  · exact regAt_reserved (.inl h)
  · rfl
  · rfl
  · rfl
  · exact regAt_reserved (.inr (.inr (.inr (.inr h))))

/-- Settles O11: the step is the read of what the map has at the offset, and each listed offset takes no free value. -/
theorem registerReads : Obligations.RegisterReads := by
  refine ⟨fun s rest width off v hoff h => ?_, fun s rest width off h => ?_, fun s rest h => ?_⟩
  · suffices hread : regValue width (regAt off.toNat) s = v ∧ regReadIsFree width (regAt off.toNat) s = false by
      rw [step_regRead h, appRegRead_fixed (s := { s with script := rest }) hread.1 hread.2]
    rcases hoff with ⟨n, rfl, rfl⟩ | ⟨rfl, rfl⟩ | ⟨rfl, rfl⟩ | ⟨rfl, rfl⟩ | ⟨rfl, rfl⟩ | ⟨rfl, rfl⟩ | ⟨rfl, rfl⟩ | ⟨rfl, rfl⟩ |
      ⟨rfl, rfl⟩ | ⟨rfl, rfl⟩ | ⟨rfl, hk, rfl⟩ | ⟨rfl, hr⟩ | ⟨rfl, rfl, hw⟩
    · rw [regAt_epr]; exact ⟨rfl, rfl⟩
    iterate 9 exact ⟨rfl, rfl⟩
    · show regValue width .cursor s = _ ∧ regReadIsFree width .cursor s = false
      simp [regValue, regReadIsFree, hk]
    · rw [regAt_reserved_offset hr]; exact ⟨rfl, rfl⟩
    · refine regValue_inside s ?_ (openReadBits_aboveWidth hw)
      rcases hw with hw | rfl | rfl | rfl
      · omega
      · decide
      · decide
      · decide
  · exact ⟨_, _, step_regRead h⟩
  · rw [step_app h rfl]
    rfl

/-! ### Writes -/

/-- A write at an offset of the map other than CMD0, which waits for no frame. -/
theorem step_regWrite (h : s.script = .app (.regWrite width (s.params.regBase + off) v) :: rest)
    (hc : regAt off.toNat ≠ .cmd0) :
    step s = settle (appRegWrite (regAt off.toNat) width v { s with script := rest }) := by
  have hbus := State.regAtBus_add s off
  have hheld : appHeld (.regWrite width (s.params.regBase + off) v) s = false := by
    simp [appHeld, hbus, hc]
  rw [step_app h hheld, ← hbus]
  rfl

/-- BTABLE takes bits 15:3 of the word written (R37). -/
theorem btableWord_eq (v : Word) : v.extractLsb' 0 16 &&& 0xFFF8 = v.extractLsb' 3 13 ++ (0 : BitVec 3) := by
  apply BitVec.eq_of_getLsbD_eq
  intro i hi
  rw [BitVec.getLsbD_and, BitVec.getLsbD_append, BitVec.getLsbD_extractLsb', BitVec.getLsbD_extractLsb']
  interval_cases i <;> simp

/-- A write off the start of a slot does nothing (log 16). -/
theorem appRegWrite_inside (s : State) (h4 : off.toNat % 4 ≠ 0) :
    regAt off.toNat ≠ .cmd0 ∧ appRegWrite (regAt off.toNat) width v s = .ok s := by
  rcases regAt_inside h4 with hr | hr <;> rw [hr] <;> exact ⟨nofun, rfl⟩

/-- Settles O12: the step is the write of what the map has at the offset, and no listed offset is CMD0's. -/
theorem registerWrites : Obligations.RegisterWrites := by
  refine ⟨fun s rest width off v t hoff h => ?_, fun s rest v h => ?_⟩
  · suffices hwrite : regAt off.toNat ≠ .cmd0 ∧
        appRegWrite (regAt off.toNat) width v { s with script := rest } = .ok { t with script := rest } by
      rw [step_regWrite h hwrite.1, hwrite.2, settle_ok]
    rcases hoff with ⟨n, rfl, rfl⟩ | ⟨rfl, rfl⟩ | ⟨rfl, rfl⟩ | ⟨rfl, rfl⟩ | ⟨rfl, rfl⟩ | ⟨rfl, rfl⟩ | ⟨rfl, rfl, rfl⟩ |
      ⟨rfl | rfl | rfl, rfl⟩ | ⟨rfl, hr⟩ | ⟨h4, rfl⟩
    · rw [regAt_epr]; exact ⟨nofun, rfl⟩
    iterate 3 exact ⟨nofun, rfl⟩
    · rw [← btableWord_eq]; exact ⟨nofun, rfl⟩
    iterate 5 exact ⟨nofun, rfl⟩
    · rw [regAt_reserved_offset hr]; exact ⟨nofun, rfl⟩
    · exact appRegWrite_inside _ h4
  · exact ⟨Config.freeHalf s.freeIndex ++ v.extractLsb' 0 16, BitVec.extractLsb'_append_eq_right,
      step_regWrite (off := 0x60) h nofun⟩

/-! ### Power-on (R46, R270) -/

theorem reset_etsOf (n : Ep) : State.reset.etsOf n = Ets.zero := by
  simp [State.etsOf, State.reset]

theorem reset_eprOf (n : Ep) : State.reset.eprOf n = 0 := by
  simp [State.eprOf, State.reset]

/-- Settles O13: the values stand in the definition of the state; ISTR and IRQ are computed from them. -/
theorem powerOnState : Obligations.PowerOnState :=
  ⟨reset_eprOf, by decide, rfl, rfl, rfl, rfl, rfl, rfl, rfl, rfl, rfl, rfl, rfl, by decide⟩

/-- Settles O52: the memories are empty, every cursor is NONE, and no frame waits. -/
theorem invariantAtReset : Obligations.InvariantAtReset where
  params := by unfold Params.Ok; decide
  pm := Memory.wf_reset.1
  sm := Memory.wf_reset.2
  btable := rfl
  cursor := nofun
  tx := fun n => by rw [reset_etsOf]; exact CursorOk.none _ _
  rx := fun n => by rw [reset_etsOf]; exact CursorOk.none _ _
  frame := nofun

end Sys2Proof.Machine
end

section
/-! PROOFS. The application's accesses to packet memory and system memory (`20_memory.md`). -/

namespace Sys2Proof.Machine

variable {s : State} {rest : List Turn} {width : PmWidth} {address : Word} {a : Nat} {v : Half}

/-! ### Where an access goes (R61, R69) -/

theorem appPmOffset_inside (s : State) (ha : a < 1024) : appPmOffset (s.params.pmaBase + BitVec.ofNat 32 a) s = .ok a :=
  appPmOffset_ok.2 ⟨ha, (busOffset_add _ (by omega)).symm⟩

theorem appPmOffset_outside (s : State) (ha : 1024 ≤ a) (ha' : a < 2 ^ 32) :
    appPmOffset (s.params.pmaBase + BitVec.ofNat 32 a) s = .error (.fault .outsidePacketMemory) := by
  unfold appPmOffset
  rw [busOffset_add _ ha']
  exact if_neg (Nat.not_lt.2 ha)

/-! ### A 16-bit access at an odd offset (R65) -/

theorem pmRead16_odd (s : State) (h : a % 2 = 1) : pmRead16 a s = refuse .oddPacketMemoryAccess := if_pos (by omega)

theorem pmWrite16_odd (v : Half) (s : State) (h : a % 2 = 1) : pmWrite16 a v s = refuse .oddPacketMemoryAccess :=
  if_pos (by omega)

/-! ### An access at an offset of packet memory, by its width (R65, R66)

The offset `a` and its bound are what `appPmOffset` answers. -/

section Inside

variable (ho : appPmOffset address s = .ok a)
include ho

theorem appPmRead_byte : appPmRead .w8 address s = .ok { s with appSaw := .word ((s.pmByte a).setWidth 32) } := by
  rw [appPmRead, ho, Eff.ok_bind, pmRead8_ok.2 ⟨(appPmOffset_ok.1 ho).1, rfl⟩]
  rfl

theorem appPmRead_half (h : a % 2 = 0) :
    appPmRead .w16 address s = .ok { s with appSaw := .word ((s.pmHalf a).setWidth 32) } := by
  have ha : a < 1024 := (appPmOffset_ok.1 ho).1
  rw [appPmRead, ho, Eff.ok_bind, pmRead16_ok.2 ⟨h, show a + 1 < 1024 by omega, rfl⟩]
  rfl

theorem appPmRead_odd (h : a % 2 = 1) : appPmRead .w16 address s = refuse .oddPacketMemoryAccess := by
  rw [appPmRead, ho, Eff.ok_bind, pmRead16_odd s h]
  rfl

theorem appPmRead_word : appPmRead .w32 address s = refuse .packetMemoryWidth32 := by
  rw [appPmRead, ho]
  rfl

theorem appPmWrite_byte : appPmWrite .w8 address v s = .ok (s.setPmByte a (v.extractLsb' 0 8)) := by
  rw [appPmWrite, ho]
  exact pmWrite8_ok.2 ⟨(appPmOffset_ok.1 ho).1, rfl⟩

theorem appPmWrite_half (h : a % 2 = 0) :
    appPmWrite .w16 address v s = .ok ((s.setPmByte a (v.extractLsb' 0 8)).setPmByte (a + 1) (v.extractLsb' 8 8)) := by
  have ha : a < 1024 := (appPmOffset_ok.1 ho).1
  rw [appPmWrite, ho]
  exact pmWrite16_ok.2 ⟨h, show a + 1 < 1024 by omega, rfl⟩

theorem appPmWrite_odd (h : a % 2 = 1) : appPmWrite .w16 address v s = refuse .oddPacketMemoryAccess := by
  rw [appPmWrite, ho]
  exact pmWrite16_odd v s h

theorem appPmWrite_word : appPmWrite .w32 address v s = refuse .packetMemoryWidth32 := by
  rw [appPmWrite, ho]
  rfl

end Inside

/-! ### An access where there is no packet memory (log 28) -/

section Outside

variable (ho : appPmOffset address s = .error (.fault .outsidePacketMemory))
include ho

theorem appPmRead_outside : appPmRead width address s = .error (.fault .outsidePacketMemory) := by
  rw [appPmRead, ho]
  rfl

theorem appPmWrite_outside : appPmWrite width address v s = .error (.fault .outsidePacketMemory) := by
  rw [appPmWrite, ho]
  rfl

end Outside

/-- A 16-bit write, byte by byte: the low byte at the offset written, the high byte above it. -/
theorem setPmHalf_pmByte (s : State) (a x : Nat) (lo hi : Byte) :
    ((s.setPmByte a lo).setPmByte (a + 1) hi).pmByte x = if x = a then lo else if x = a + 1 then hi else s.pmByte x := by
  rw [State.setPmByte_pmByte, State.setPmByte_pmByte]
  split
  · next h => rw [if_neg (by omega)]
  · rfl

/-- The turn of an application's access ends as the access does: no memory access waits for a frame. -/
theorem step_appStep {m : AppMove} {x : Eff State} (h : s.script = .app m :: rest) (hm : appHeld m s = false)
    (hx : appStep m { s with script := rest } = x) : step s = settle x := by
  rw [step_app h hm, hx]

/-- Settles O14: each turn is one access, whose offset inside or outside packet memory decides it with its width. -/
theorem applicationMemoryAccess : Obligations.ApplicationMemoryAccess := by
  refine ⟨fun s rest a v ha => ?_, fun s rest width a v ha ha' => ?_, fun s rest a v => ⟨fun h => ?_, fun h => ?_⟩⟩
  · have ho := appPmOffset_inside { s with script := rest } ha
    refine ⟨fun h => ?_, fun ha2 h => ?_, fun h => ?_, fun ha2 h => ?_, fun ha2 h => ?_, fun ha2 h => ?_,
      fun h => ?_, fun h => ?_⟩
    · exact step_appStep h rfl (appPmRead_byte ho)
    · exact step_appStep h rfl (appPmRead_half ho ha2)
    · exact ⟨_, step_appStep h rfl (appPmWrite_byte ho), rfl, fun x => State.setPmByte_pmByte _ a x _⟩
    · exact ⟨_, step_appStep h rfl (appPmWrite_half ho ha2), rfl, fun x => setPmHalf_pmByte _ a x _ _⟩
    · exact step_appStep h rfl (appPmRead_odd ho ha2)
    · exact step_appStep h rfl (appPmWrite_odd ho ha2)
    · exact step_appStep h rfl (appPmRead_word ho)
    · exact step_appStep h rfl (appPmWrite_word (v := v) ho)
  · have ho := appPmOffset_outside { s with script := rest } ha ha'
    exact ⟨fun h => step_appStep h rfl (appPmRead_outside ho), fun h => step_appStep h rfl (appPmWrite_outside ho)⟩
  · exact step_appStep (x := .ok _) h rfl rfl
  · exact ⟨_, step_appStep (x := .ok _) h rfl rfl, rfl, fun y => State.setSmByte_smByte _ a y v⟩

end Sys2Proof.Machine
end

section
/-! PROOFS. Encoding and decoding (`30_encoding.md`): the fields of a frame, by the operands it is put together from and by
arithmetic, and the operations a sample selects. -/

namespace Sys2Proof

/-! ### Frames put together from their fields (R91, R100) -/

section Frame

variable (opcode ep : BitVec 8) (a16 : Half) (b32 : Word)

theorem frameCmd0_frameOf (cmd1 cmd0 : Word) : frameCmd0 (frameOf cmd1 cmd0) = cmd0 := BitVec.extractLsb'_append_eq_right

theorem frameCmd1_frameOf (cmd1 cmd0 : Word) : frameCmd1 (frameOf cmd1 cmd0) = cmd1 := BitVec.extractLsb'_append_eq_left

theorem frameCmd1_frameFrom : frameCmd1 (frameFrom opcode ep a16 b32) = b32 := frameCmd1_frameOf _ _

theorem epOf_frameFrom : epOf (frameCmd0 (frameFrom opcode ep a16 b32)) = ep := by
  rw [frameFrom, frameCmd0_frameOf, epOf, BitVec.extractLsb'_append_eq_of_le (by decide)]
  exact BitVec.extractLsb'_append_eq_right

theorem a16Of_frameFrom : a16Of (frameCmd0 (frameFrom opcode ep a16 b32)) = a16 := by
  rw [frameFrom, frameCmd0_frameOf]
  exact BitVec.extractLsb'_append_eq_right

/-- The operation of a frame, by the operands the frame is put together from (R92, R93). -/
theorem decodeFrame_frameFrom :
    decodeFrame (frameFrom opcode ep a16 b32) =
      if opcode = 0x01 then .alloc a16
      else if opcode = 0x02 then .configure ep (b32.extractLsb' 0 8) a16 (b32.extractLsb' 8 8)
      else if opcode = 0x03 then .setStatus ep a16 (b32.extractLsb' 0 16)
      else if opcode = 0x04 then .send ep b32 a16
      else if opcode = 0x05 then .receive ep b32 a16
      else .reserved opcode := by
  unfold decodeFrame
  dsimp only
  rw [Laws.EncodeOpcode.opcodeOf_frameFrom, epOf_frameFrom, a16Of_frameFrom, frameCmd1_frameFrom]

/-- A reserved opcode decodes to the reserved operation, whatever the operand fields (R95). -/
theorem decodeFrame_reserved (h : isReservedOpcode opcode = true) :
    decodeFrame (frameFrom opcode ep a16 b32) = .reserved opcode := by
  have hne : opcode ≠ 0x01 ∧ opcode ≠ 0x02 ∧ opcode ≠ 0x03 ∧ opcode ≠ 0x04 ∧ opcode ≠ 0x05 := by
    refine ⟨?_, ?_, ?_, ?_, ?_⟩ <;> rintro rfl <;> exact absurd h (by decide)
  obtain ⟨h1, h2, h3, h4, h5⟩ := hne
  rw [decodeFrame_frameFrom, if_neg h1, if_neg h2, if_neg h3, if_neg h4, if_neg h5]

end Frame

/-- The fields of the operand B32 of CONFIGURE: the type above the address (R93). -/
theorem configureOperand_fields (type address : BitVec 8) :
    ((0 : Half) ++ type ++ address : Word).extractLsb' 0 8 = address ∧
      ((0 : Half) ++ type ++ address : Word).extractLsb' 8 8 = type := by
  refine ⟨BitVec.extractLsb'_append_eq_right, ?_⟩
  rw [BitVec.extractLsb'_append_eq_of_le (by decide)]
  exact BitVec.extractLsb'_append_eq_right

/-- Settles O3: the frame of each operation with an opcode decodes by the fields it is put together from. -/
theorem encodedFramesDecode : Obligations.EncodedFramesDecode := by
  intro i hwf opc hopc
  cases i with
  | alloc length => exact ⟨_, rfl, decodeFrame_frameFrom 0x01 0 length 0⟩
  | configure ep address packetSize type =>
    obtain ⟨haddress, htype⟩ := configureOperand_fields type address
    refine ⟨_, rfl, (decodeFrame_frameFrom 0x02 ep packetSize _).trans ?_⟩
    rw [haddress, htype]
    rfl
  | setStatus ep desired mask =>
    have hmask : ((0 : Half) ++ mask : Word).extractLsb' 0 16 = mask := BitVec.extractLsb'_append_eq_right
    refine ⟨_, rfl, (decodeFrame_frameFrom 0x03 ep desired _).trans ?_⟩
    rw [hmask]
    rfl
  | send ep buffer length => exact ⟨_, rfl, decodeFrame_frameFrom 0x04 ep length buffer⟩
  | receive ep buffer length => exact ⟨_, rfl, decodeFrame_frameFrom 0x05 ep length buffer⟩
  | reserved opcode => exact ⟨_, rfl, decodeFrame_reserved opcode 0 0 0 hwf⟩
  | cancelSend ep => exact ⟨_, rfl, decodeFrame_frameFrom 0x04 ep 0 0⟩
  | cancelReceive ep => exact ⟨_, rfl, decodeFrame_frameFrom 0x05 ep 0 0⟩
  | setTxStatus ep code => exact ⟨_, rfl, decodeFrame_frameFrom 0x03 ep _ 0x00000030⟩
  | setRxStatus ep code => exact ⟨_, rfl, decodeFrame_frameFrom 0x03 ep _ 0x00003000⟩
  | _ => cases hopc

/-! ### The fields of any frame, by arithmetic (R91, R93) -/

/-- A field of a word is its number shifted down, taken modulo the field's size. -/
theorem extractLsb'_eq_ofNat {w : Nat} (x : BitVec w) (k l : Nat) : x.extractLsb' k l = BitVec.ofNat l (x.toNat / 2 ^ k) := by
  rw [← Nat.shiftRight_eq_div_pow]
  rfl

/-- A field of CMD0 is the field of the frame at the same place. -/
theorem frameCmd0_field (f : Wide) {k l : Nat} (h : k + l ≤ 32) :
    (frameCmd0 f).extractLsb' k l = BitVec.ofNat l (f.toNat / 2 ^ k) := by
  rw [frameCmd0, BitVec.extractLsb'_extractLsb'_of_le h, extractLsb'_eq_ofNat]

/-- An opcode taken out of a number equals a given one when the low byte of the number does. -/
theorem ofNat_opcode_eq_iff (m : Nat) {k : Nat} (h : k < 256) : BitVec.ofNat 8 m = BitVec.ofNat 8 k ↔ m % 256 = k := by
  rw [← BitVec.toNat_inj, BitVec.toNat_ofNat, BitVec.toNat_ofNat, Nat.mod_eq_of_lt (a := k) h]

/-- Settles O2: the decoder's fields are the arithmetic ones, and it tests the opcode in the same order. -/
theorem operandsAreFrameFields : Obligations.OperandsAreFrameFields := by
  intro f opc ep a16 b32
  have hopc : opcodeOf (frameCmd0 f) = BitVec.ofNat 8 opc :=
    (frameCmd0_field f (by decide)).trans ((ofNat_opcode_eq_iff _ (Nat.mod_lt _ (by decide))).2 rfl)
  have hep : epOf (frameCmd0 f) = ep := frameCmd0_field f (by decide)
  have ha16 : a16Of (frameCmd0 f) = a16 := (frameCmd0_field f (by decide)).trans (by rw [Nat.pow_zero, Nat.div_one])
  have hb32 : frameCmd1 f = b32 := extractLsb'_eq_ofNat f 32 32
  have haddress : b32.extractLsb' 0 8 = BitVec.ofNat 8 b32.toNat := rfl
  have htype : b32.extractLsb' 8 8 = BitVec.ofNat 8 (b32.toNat / 256) := extractLsb'_eq_ofNat b32 8 8
  have hmask : b32.extractLsb' 0 16 = BitVec.ofNat 16 b32.toNat := rfl
  have htest : ∀ k < 256, BitVec.ofNat 8 opc = BitVec.ofNat 8 k ↔ opc = k := fun k hk => by
    rw [ofNat_opcode_eq_iff _ hk, Nat.mod_mod]
  have h1 : BitVec.ofNat 8 opc = 0x01 ↔ opc = 1 := htest 1 (by decide)
  have h2 : BitVec.ofNat 8 opc = 0x02 ↔ opc = 2 := htest 2 (by decide)
  have h3 : BitVec.ofNat 8 opc = 0x03 ↔ opc = 3 := htest 3 (by decide)
  have h4 : BitVec.ofNat 8 opc = 0x04 ↔ opc = 4 := htest 4 (by decide)
  have h5 : BitVec.ofNat 8 opc = 0x05 ↔ opc = 5 := htest 5 (by decide)
  unfold decodeFrame
  dsimp only
  rw [hopc, hep, ha16, hb32, haddress, htype, hmask]
  simp only [h1, h2, h3, h4, h5]

/-- Settles O1: each frame is a fixed word. -/
theorem writtenFramesDecode : Obligations.WrittenFramesDecode := ⟨rfl, rfl, rfl, rfl, rfl, rfl, rfl, rfl⟩

/-! ### The operations a sample selects (R96, R97) -/

/-- The operations of a table of bits whose bit of a sample is set, in the order of the table. -/
def selected (x : Half) (table : List (Nat × Instr)) : List Instr := (table.filter (fun p => x.getLsbD p.1)).map Prod.snd

theorem selected_nil (x : Half) : selected x [] = [] := rfl

theorem selected_cons (x : Half) (k : Nat) (i : Instr) (table : List (Nat × Instr)) :
    selected x ((k, i) :: table) = (if x.getLsbD k then [i] else []) ++ selected x table := by
  unfold selected
  rw [List.filter_cons]
  split <;> rfl

/-- The bits of a status sample and their handlers, in the order of R96. -/
def statusHandlers : List (Nat × Instr) :=
  [(10, .reset), (11, .susp), (12, .wkup), (13, .err), (9, .sof), (8, .esof), (14, .pmaovr)]

theorem decodeStatus_eq (x : Half) : decodeStatus x = selected x statusHandlers := by
  simp only [decodeStatus, statusHandlers, selected_cons, selected_nil, List.append_assoc, List.append_nil]

theorem decodeSample_eq (n : Ep) (val : Half) :
    decodeSample n val = selected val [(15, .rxComplete n val), (7, .txComplete n val)] := by
  simp only [decodeSample, selected_cons, selected_nil, List.append_nil]

/-- Settles O4: each is the list of the operations selected from its table. -/
theorem eventDecode : Obligations.EventDecode := ⟨decodeStatus_eq, decodeSample_eq⟩

/-- The bits of a status sample with a handler are the bits 14:8 (R31, R96). -/
theorem statusHandlers_bit {i : Nat} : i ∈ statusHandlers.map Prod.fst ↔ 8 ≤ i ∧ i ≤ 14 := by
  simp only [statusHandlers, List.map_cons, List.map_nil, List.mem_cons, List.not_mem_nil, or_false]
  omega

/-- The handlers of a sample depend on its bits 14:8 alone. -/
theorem decodeStatus_congr {x y : Half} (h : ∀ i, 8 ≤ i → i ≤ 14 → x.getLsbD i = y.getLsbD i) :
    decodeStatus x = decodeStatus y := by
  rw [decodeStatus_eq, decodeStatus_eq, selected, selected]
  refine congrArg _ (List.filter_congr fun p hp => ?_)
  obtain ⟨h8, h14⟩ := statusHandlers_bit.1 (List.mem_map_of_mem hp)
  exact h p.1 h8 h14

/-- A sample selects no handler exactly when its bits 14:8 are 0. -/
theorem decodeStatus_eq_nil_iff (x : Half) : decodeStatus x = [] ↔ ∀ i, 8 ≤ i → i ≤ 14 → x.getLsbD i = false := by
  rw [decodeStatus_eq, selected, List.map_eq_nil_iff, List.filter_eq_nil_iff]
  simp only [Bool.not_eq_true]
  refine ⟨fun h i h8 h14 => ?_, fun h p hp => ?_⟩
  · obtain ⟨p, hp, rfl⟩ := List.mem_map.1 (statusHandlers_bit.2 ⟨h8, h14⟩)
    exact h p hp
  · obtain ⟨h8, h14⟩ := statusHandlers_bit.1 (List.mem_map_of_mem hp)
    exact h p.1 h8 h14

end Sys2Proof
end

section
/-! PROOFS. The turn of the block (`30_encoding.md` R94, `46_dispatcher.md` R200, R209, R212): what it runs, case by case; the
write of CMD0; and a word placed for the next step (logs 19, 20). -/

namespace Sys2Proof.Machine

variable {s u : State} {rest : List Turn} {width : RegWidth} {v : Word}

/-! ### What a turn of the block runs -/

theorem blockTurn_of_run {i : Instr} (h : fetch s = .run i u) : blockTurn s = exec i u := by
  rw [blockTurn, h]

theorem blockTurn_of_uncreated (h : fetch s = .uncreated) : blockTurn s = .refused .beforeFirstBusReset := by
  rw [blockTurn, h]

theorem blockTurn_of_nothing (h : fetch s = .nothing) : blockTurn s = .next s := by
  rw [blockTurn, h]

section Loop

variable (hp : s.phase = .loop)
include hp

theorem fetch_exit (hc : s.ctr = false) : fetch s = .run .dispatchExit s := by
  simp [fetch, hp, hc]

theorem fetch_endpoint (hc : s.ctr = true) (hk : s.created = true) : fetch s = .run .dispatchEp s := by
  simp [fetch, hp, hc, hk]

theorem fetch_endpoint_uncreated (hc : s.ctr = true) (hk : s.created = false) : fetch s = .uncreated := by
  simp [fetch, hp, hc, hk]

end Loop

section Idle

variable (hp : s.phase = .idle)
include hp

theorem fetch_entry (hi : s.irq = true) : fetch s = .run .dispatchEntry s := by
  simp [fetch, hp, hi]

theorem fetch_nothing (hi : s.irq = false) (hf : s.frame = none) : fetch s = .nothing := by
  simp [fetch, hp, hi, hf]

variable {f : Wide} (hi : s.irq = false) (hf : s.frame = some f)
include hi hf

theorem fetch_frame (hk : s.created = true) : fetch s = .run (decodeFrame f) { s with frame := none } := by
  simp [fetch, hp, hi, hf, hk]

theorem fetch_frame_uncreated (hk : s.created = false) : fetch s = .uncreated := by
  simp [fetch, hp, hi, hf, hk]

end Idle

/-! ### The write of CMD0 (R91, R94) -/

theorem regAtBus_cmd0 (s : State) : s.regAtBus (s.params.regBase + 0x64) = .cmd0 := State.regAtBus_add s 0x64

/-- The write of CMD0 waits exactly while a frame waits (R94; log 7). -/
theorem appHeld_cmd0 (s : State) : appHeld (.regWrite width (s.params.regBase + 0x64) v) s = s.frame.isSome := by
  rw [appHeld, regAtBus_cmd0]
  rfl

/-- With no frame waiting, the write of CMD0 presents one. -/
theorem step_cmd0Write (h : s.script = .app (.regWrite width (s.params.regBase + 0x64) v) :: rest) (hf : s.frame = none) :
    step s = settle (presentFrame (wideValue width v s) { s with script := rest, freeIndex := wideIndex width s }) := by
  have hheld : appHeld (.regWrite width (s.params.regBase + 0x64) v) s = false := by
    rw [appHeld_cmd0, hf]
    rfl
  have hreg : State.regAtBus { s with script := rest } (s.params.regBase + 0x64) = .cmd0 := regAtBus_cmd0 s
  rw [step_app h hheld, appStep, hreg]
  rfl

/-- With a frame waiting, the write of CMD0 is held and the block steps. -/
theorem step_cmd0Held (h : s.script = .app (.regWrite width (s.params.regBase + 0x64) v) :: rest)
    (hf : s.frame.isSome = true) : step s = blockTurn s :=
  step_held h ((appHeld_cmd0 s).trans hf)

theorem presentFrame_created (c : Word) (hk : s.created = true) :
    presentFrame c s = .ok { s with cmd0 := c, frame := some (frameOf s.cmd1 c) } := if_pos hk

theorem presentFrame_uncreated (c : Word) (hk : s.created = false) : presentFrame c s = refuse .beforeFirstBusReset :=
  if_neg (by rw [hk]; exact Bool.false_ne_true)

/-- A write of a 32-bit register fixes its low half, and the whole of it where the write is 32 bits wide (log 15). -/
theorem wideValue_low (s : State) : (wideValue width v s).extractLsb' 0 16 = v.extractLsb' 0 16 := by
  cases width with
  | w32 => rfl
  | w16 => exact BitVec.extractLsb'_append_eq_right

theorem wideIndex_eq (s : State) : wideIndex width s = s.freeIndex + (if width = .w16 then 1 else 0) := by
  cases width <;> rfl

/-- Settles O7: by whether a frame waits, then by whether the first bus reset has run. -/
theorem framePresentedHeldRefused : Obligations.FramePresentedHeldRefused := by
  intro s width v rest h
  refine ⟨fun hk hf => ⟨wideValue width v s, ?_, wideValue_low s, ?_⟩, fun f hk hf hp hi => ?_, fun hk hf => ?_⟩
  · rintro rfl
    rfl
  · rw [step_cmd0Write h hf, presentFrame_created _ (by exact hk), wideIndex_eq]
    rfl
  · rw [step_cmd0Held h (by rw [hf]; rfl), blockTurn_of_run (fetch_frame hp hi hf hk)]
  · rw [step_cmd0Write h hf, presentFrame_uncreated _ (by exact hk), settle_refuse]

/-- The turns the block takes: with no turn to come, at its own turn, and in place of a held write of CMD0. -/
theorem step_blockTurn
    (h : (s.script = [] ∧ u = s)
      ∨ (∃ rest, s.script = .block :: rest ∧ u = { s with script := rest })
      ∨ (∃ width v rest, s.script = .app (.regWrite width (s.params.regBase + 0x64) v) :: rest ∧ s.frame.isSome = true
          ∧ u = s)) : step s = blockTurn u := by
  rcases h with ⟨hs, rfl⟩ | ⟨rest, hs, rfl⟩ | ⟨width, v, rest, hs, hf, rfl⟩
  · exact step_noTurn hs
  · exact step_block hs
  · exact step_cmd0Held hs hf

/-- Settles O5: each of the three turns is a turn of the block, which runs what `fetch` selects. -/
theorem stepRunsSelectedOperation : Obligations.StepRunsSelectedOperation := by
  intro s u h
  rw [step_blockTurn h]
  exact ⟨fun hp hi => blockTurn_of_run (fetch_entry hp hi),
    fun hp hc hk => blockTurn_of_run (fetch_endpoint hp hc hk),
    fun hp hc hk => blockTurn_of_uncreated (fetch_endpoint_uncreated hp hc hk),
    fun hp hc => blockTurn_of_run (fetch_exit hp hc),
    fun f hf hk hp hi => blockTurn_of_run (fetch_frame hp hi hf hk),
    fun f hf hk hp hi => blockTurn_of_uncreated (fetch_frame_uncreated hp hi hf hk),
    fun hf hp hi => blockTurn_of_nothing (fetch_nothing hp hi hf)⟩

/-! ### A placed word (logs 19, 20) -/

/-- With every source masked IRQ is not asserted (R35). -/
theorem irqLine_masked (x : Half) : irqLine x 0 = false := by
  simp [irqLine]

theorem placeFrame_irq (s : State) (f : Wide) : (placeFrame s f).irq = false := by
  show irqLine s.istrRead (if s.irq then 0 else s.cntr) = false
  cases hi : s.irq with
  | true => exact irqLine_masked _
  | false => exact hi

/-- A placed frame is the next operation. -/
theorem step_placeFrame (s : State) (f : Wide) :
    step (placeFrame s f) = exec (decodeFrame f) { placeFrame s f with frame := none } := by
  rw [step_noTurn rfl, blockTurn_of_run (fetch_frame rfl (placeFrame_irq s f) rfl rfl)]

/-- A placed sample with a completion flag is what DISPATCH_EP samples next. -/
theorem step_placeSample (s : State) {w : Half} (hw : w.getLsbD 15 = true ∨ w.getLsbD 7 = true) :
    step (placeSample s w) = exec .dispatchEp (placeSample s w) ∧ (placeSample s w).epId = 0 ∧
      (placeSample s w).eprOf 0 = w := by
  have he : (placeSample s w).eprOf 0 = w := State.setEpr_eprOf_same _ 0 w
  have hw0 : ((placeSample s w).eprOf 0).getLsbD 15 = true ∨ ((placeSample s w).eprOf 0).getLsbD 7 = true := by rwa [he]
  have hc : (placeSample s w).ctr = true := (ctr_iff _).2 ⟨0, hw0⟩
  refine ⟨?_, epId_lowest ((mem_pendingEps _ 0).2 hw0) fun k hk => absurd hk (Fin.not_lt_zero k), he⟩
  rw [step_noTurn rfl, blockTurn_of_run (fetch_endpoint rfl hc rfl)]

/-- ISTR shows the bits 14:8 of a placed status. -/
theorem placeStatus_istrRead (s : State) (w : Half) {i : Nat} (h8 : 8 ≤ i) (h14 : i ≤ 14) :
    (placeStatus s w).istrRead.getLsbD i = w.getLsbD i := by
  rw [istrRead_getLsbD _ h8 h14]
  show (w.extractLsb' 8 7).getLsbD (i - 8) = w.getLsbD i
  rw [BitVec.getLsbD_extractLsb', show 8 + (i - 8) = i by omega, decide_eq_true (by omega), Bool.true_and]

/-- A placed status with a flag is what DISPATCH_ENTRY samples next: CNTR enables the flag. -/
theorem step_placeStatus (s : State) {w : Half} (hw : decodeStatus w ≠ []) :
    step (placeStatus s w) = exec .dispatchEntry (placeStatus s w) ∧
      decodeStatus (placeStatus s w).istrRead = decodeStatus w := by
  obtain ⟨i, h8, h14, hi⟩ : ∃ i, 8 ≤ i ∧ i ≤ 14 ∧ w.getLsbD i = true := by
    simpa [decodeStatus_eq_nil_iff] using hw
  have hcntr : (placeStatus s w).cntr.getLsbD i = true := by
    show (s.cntr ||| w).getLsbD i = true
    rw [BitVec.getLsbD_or, hi, Bool.or_true]
  have hirq : (placeStatus s w).irq = true :=
    (irqLine_iff _ _).2 ⟨i, h8, by omega, (placeStatus_istrRead s w h8 h14).trans hi, hcntr⟩
  refine ⟨?_, decodeStatus_congr fun k h8 h14 => placeStatus_istrRead s w h8 h14⟩
  rw [step_noTurn rfl, blockTurn_of_run (fetch_entry rfl hirq)]

/-- With every completion flag cleared CTR is 0 (R32). -/
theorem placeExit_ctr (s : State) : (placeExit s).ctr = false := by
  rw [← Bool.not_eq_true, ctr_iff]
  rintro ⟨n, hn⟩
  have he : (placeExit s).eprOf n = withoutCompletion (s.eprOf n) := by simp [placeExit, State.eprOf]
  simp [he, withoutCompletion, completionMask] at hn

theorem step_placeExit (s : State) : step (placeExit s) = exec .dispatchExit (placeExit s) := by
  rw [step_noTurn rfl, blockTurn_of_run (fetch_exit rfl (placeExit_ctr s))]

theorem withFetchWord_frame (s : State) {nbits : Nat} (w : Nat) (h : 16 < nbits) :
    s.withFetchWord nbits w = placeFrame s (BitVec.ofNat 64 w) := if_neg (Nat.not_le.2 h)

theorem withFetchWord_event (s : State) {nbits : Nat} (w : Half) (h : nbits ≤ 16) :
    s.withFetchWord nbits w.toNat = placeEvent s w := by
  rw [State.withFetchWord, if_pos h, BitVec.ofNat_toNat, BitVec.setWidth_eq]

/-- A word has a handler exactly when one of its bits 14:8 is 1. -/
theorem decodeStatus_eq_nil_iff_masked (w : Half) : decodeStatus w = [] ↔ w &&& 0x7F00 = 0 := by
  have hmask : ∀ i, (0x7F00 : Half).getLsbD i = decide (8 ≤ i ∧ i ≤ 14) := by
    intro i
    by_cases hi : i < 16
    · interval_cases i <;> decide
    · rw [BitVec.getLsbD_of_ge _ _ (by omega), eq_comm, decide_eq_false_iff_not]
      omega
  have hzero : w &&& 0x7F00 = 0 ↔ ∀ i, (w &&& 0x7F00).getLsbD i = false := BitVec.zero_iff_eq_false
  rw [decodeStatus_eq_nil_iff, hzero]
  refine forall_congr' fun i => ?_
  rw [BitVec.getLsbD_and, hmask, Bool.and_eq_false_iff, decide_eq_false_iff_not]
  tauto

/-- Settles O6: by the kind of the placed word. -/
theorem placedWordRuns : Obligations.PlacedWordRuns := by
  refine ⟨fun s nbits w i hn hi => ?_, fun s nbits w hn => ?_⟩
  · have hdecode : i = decodeFrame (BitVec.ofNat 64 w) := by
      rw [decodeTableWord, if_neg (Nat.not_le.2 hn)] at hi
      exact (Option.some.inj hi).symm
    rw [withFetchWord_frame s w hn, hdecode, step_placeFrame]
  · rw [withFetchWord_event s w hn]
    refine ⟨fun hw => ?_, fun hw hs => ?_, fun hw => ?_⟩
    · rw [placeEvent, if_pos hw]
      exact step_placeSample s (Bool.or_eq_true _ _ ▸ hw)
    · have hnil : decodeStatus w ≠ [] := mt (decodeStatus_eq_nil_iff_masked w).1 hs
      rw [placeEvent, if_neg (by rw [hw]; exact Bool.false_ne_true), if_neg (by simpa using hnil)]
      exact step_placeStatus s hnil
    · have hbit : ∀ i, (w &&& 0xFF80).getLsbD i = false := fun i => by rw [hw]; exact BitVec.getLsbD_zero
      have h15 : w.getLsbD 15 = false := by simpa using hbit 15
      have h7 : w.getLsbD 7 = false := by simpa using hbit 7
      have hs : w &&& 0x7F00 = 0 :=
        calc w &&& 0x7F00 = w &&& 0xFF80 &&& 0x7F00 := by rw [BitVec.and_assoc]; rfl
          _ = 0 := by rw [hw]; exact BitVec.zero_and
      have hnil : decodeStatus w = [] := (decodeStatus_eq_nil_iff_masked w).2 hs
      rw [placeEvent, h15, h7, hnil]
      exact step_placeExit s

end Sys2Proof.Machine
end

section
/-! PROOFS. The pseudo-operations (`30_encoding.md` R101) and the notification record (R98). -/

namespace Sys2Proof.Machine

/-! ### SET_STATUS inside the toggle bits (R134) -/

/-- With a mask inside the toggle bits the masked bits become the desired ones and every other bit is kept (R134). -/
theorem eprWriteWord_setStatusWord (cur desired : Half) {mask : Half} (h : mask &&& 0x8F8F = 0) :
    eprWriteWord cur (setStatusWord cur desired mask) = (cur &&& ~~~mask) ||| (desired &&& mask) := by
  apply BitVec.eq_of_getLsbD_eq
  intro i hi
  have hdisjoint : mask.getLsbD i = true → fixedMask.getLsbD i = false := fun hmask => by
    have hand : (mask &&& fixedMask).getLsbD i = false := by rw [fixedMask, h]; exact BitVec.getLsbD_zero
    rwa [BitVec.getLsbD_and, hmask, Bool.true_and] at hand
  rw [eprWriteWord_getLsbD _ _ _ hi, setStatusWord]
  simp only [BitVec.getLsbD_and, BitVec.getLsbD_or, BitVec.getLsbD_xor, BitVec.getLsbD_not, hi, decide_true, Bool.true_and]
  cases hmask : mask.getLsbD i with
  | false => interval_cases i <;> simp [fixedMask]
  | true =>
    have hfixed := hdisjoint hmask
    interval_cases i <;> simp [fixedMask] at hfixed ⊢

/-- SET_STATUS as a command, on an endpoint in range and with a mask inside the toggle bits (R133, R134). -/
theorem setStatusCommand_masked {n : Ep} {ep : BitVec 8} (desired : Half) {mask : Half} (s : State) (hep : ep.toNat = n.val)
    (h : mask &&& 0x8F8F = 0) :
    setStatusCommand ep desired mask s = s.setEpr n ((s.eprOf n &&& ~~~mask) ||| (desired &&& mask)) := by
  rw [setStatusCommand, endpointOf_eq hep]
  exact congrArg (s.setEpr n) (eprWriteWord_setStatusWord _ _ h)

/-- The desired bits of a status pseudo-operation, as a product (R101). -/
theorem statusCode_shift (code : BitVec 2) (k : Nat) :
    (code.setWidth 16 <<< k : Half) = BitVec.ofNat 16 (2 ^ k * code.toNat) := by
  apply BitVec.eq_of_toNat_eq
  rw [BitVec.toNat_shiftLeft, BitVec.toNat_setWidth, BitVec.toNat_ofNat, Nat.shiftLeft_eq, Nat.mod_mul_mod, Nat.mul_comm]

/-- A status code shifted to STAT_TX or STAT_RX lies inside the field. -/
theorem statusCode_inField (code : BitVec 2) :
    (code.setWidth 16 <<< 4 : Half) &&& statTxMask = code.setWidth 16 <<< 4 ∧
      (code.setWidth 16 <<< 12 : Half) &&& statRxMask = code.setWidth 16 <<< 12 := by
  revert code
  decide

/-- Settles O22: the expansions are the same call; the field reached is the one SET_STATUS reaches with the code shifted to
it. -/
theorem pseudoOperationsExpand : Obligations.PseudoOperationsExpand := by
  intro ep code s
  refine ⟨rfl, rfl, ?_, ?_, fun n hep => ⟨?_, ?_⟩⟩
  · exact congrArg (fun desired => exec (.setStatus ep desired 0x0030) s) (statusCode_shift code 4)
  · exact congrArg (fun desired => exec (.setStatus ep desired 0x3000) s) (statusCode_shift code 12)
  · have hset := setStatusCommand_masked (code.setWidth 16 <<< 4) (mask := statTxMask) s hep rfl
    rw [(statusCode_inField code).1] at hset
    exact congrArg Host.Outcome.next hset
  · have hset := setStatusCommand_masked (code.setWidth 16 <<< 12) (mask := statRxMask) s hep rfl
    rw [(statusCode_inField code).2] at hset
    exact congrArg Host.Outcome.next hset

/-! ### The notification record (R98) -/

/-- The number of two words put together. -/
theorem toNat_append_eq_add {m n : Nat} (x : BitVec m) (y : BitVec n) : (x ++ y).toNat = 2 ^ n * x.toNat + y.toNat := by
  rw [BitVec.toNat_append, ← Nat.shiftLeft_add_eq_or_of_lt y.isLt, Nat.shiftLeft_eq, Nat.mul_comm]

theorem notificationRecord_toNat (code ep : BitVec 8) (buffer : Word) (length : Half) :
    (notificationRecord code ep buffer length).toNat =
      2 ^ 56 * code.toNat + 2 ^ 48 * ep.toNat + 2 ^ 32 * length.toNat + buffer.toNat := by
  rw [notificationRecord, toNat_append_eq_add, toNat_append_eq_add, toNat_append_eq_add]
  ring

/-- Settles O35: the record is the four fields put together. -/
theorem notifyAppendsRecord : Obligations.NotifyAppendsRecord := by
  intro code ep buffer length s
  exact ⟨notificationRecord code ep buffer length, rfl, notificationRecord_toNat code ep buffer length⟩

end Sys2Proof.Machine
end

section
/-! PROOFS. The allocator (`40_allocator.md`): ALLOC as a command by whether it fits, the ranges a sequence of ALLOC commands
hands out (R122), and the control registers over every operation without a bus reset. -/

namespace Sys2Proof.Machine

/-! ### ALLOC as a command (R120, R121) -/

theorem exec_alloc_fits {length : Half} {s : State} (h : s.Fits length) :
    exec (.alloc length) s = .next
      { s with pmaCursor := BitVec.ofNat 16 (s.pmaCursor.toNat + 2 * allocWords length), result := s.pmaCursor } := by
  show execAlloc length s = _
  rw [execAlloc, allocate_fits h]

theorem exec_alloc_overrun {length : Half} {s : State} (h : ¬ s.Fits length) :
    exec (.alloc length) s = .next { raiseFault .allocOverrun s with result := 0 } := by
  show execAlloc length s = _
  rw [execAlloc, allocate_overrun h]

theorem exec_allocInternal (length : Half) (s : State) : exec (.allocInternal length) s = .next (allocate length s).2 := rfl

/-- Settles O15: by whether the words fit. -/
theorem allocEffect : Obligations.AllocEffect := by
  intro length s
  refine ⟨fun h => ?_, fun h => ?_⟩
  · have hfits : s.Fits length := h
    exact ⟨exec_alloc_fits hfits, by rw [exec_allocInternal, allocate_fits hfits]; rfl⟩
  · have hover : ¬ s.Fits length := Nat.not_le.2 h
    exact ⟨exec_alloc_overrun hover, by rw [exec_allocInternal, allocate_overrun hover]; rfl⟩

/-! ### A sequence of ALLOC commands (R122) -/

/-- The first command of a sequence hands out the range from the old cursor to the new one, or fails and keeps the cursor;
either way the cursor stays in its range. -/
theorem allocatedRanges_cons (length : Half) (lengths : List Half) {s : State} (h : AllocCursorOk s.pmaCursor) :
    ∃ t : State, AllocCursorOk t.pmaCursor ∧
      ((t.pmaCursor.toNat = s.pmaCursor.toNat + 2 * allocWords length ∧
          allocatedRanges (length :: lengths) s =
            (s.pmaCursor.toNat, t.pmaCursor.toNat) :: allocatedRanges lengths t) ∨
        (t.pmaCursor = s.pmaCursor ∧ allocatedRanges (length :: lengths) s = allocatedRanges lengths t)) := by
  by_cases hf : s.Fits length
  · obtain ⟨hok, hnext⟩ := allocate_cursor h hf
    refine ⟨{ s with
      pmaCursor := BitVec.ofNat 16 (s.pmaCursor.toNat + 2 * allocWords length), result := s.pmaCursor },
      hok, .inl ⟨hnext, ?_⟩⟩
    rw [allocatedRanges, exec_alloc_fits hf, hnext]
    exact if_pos hf
  · refine ⟨{ raiseFault .allocOverrun s with result := 0 }, h, .inr ⟨rfl, ?_⟩⟩
    rw [allocatedRanges, exec_alloc_overrun hf]
    exact if_neg hf

/-- Every range starts at an even offset at or above the cursor and ends inside packet memory. -/
theorem allocatedRanges_bounds (lengths : List Half) {s : State} (h : AllocCursorOk s.pmaCursor) :
    ∀ r ∈ allocatedRanges lengths s,
      r.1 % 2 = 0 ∧ s.pmaCursor.toNat ≤ r.1 ∧ r.1 ≤ r.2 ∧ r.2 ≤ Config.pmaSize := by
  induction lengths generalizing s with
  | nil => exact nofun
  | cons length lengths ih =>
    obtain ⟨t, ht, ⟨hnext, heq⟩ | ⟨hkept, heq⟩⟩ := allocatedRanges_cons length lengths h
    · have hle : s.pmaCursor.toNat ≤ t.pmaCursor.toNat := by omega
      have ⟨heven, _, _⟩ := h
      have ⟨_, _, hend⟩ := ht
      rw [heq]
      refine List.forall_mem_cons.2 ⟨⟨heven, Nat.le_refl _, hle, hend⟩, fun r hr => ?_⟩
      obtain ⟨hreven, hlow, hends⟩ := ih ht r hr
      exact ⟨hreven, hle.trans hlow, hends⟩
    · rw [heq, ← hkept]
      exact ih ht

theorem allocatedRanges_head (lengths : List Half) {s : State} (h : AllocCursorOk s.pmaCursor) :
    ∀ r ∈ (allocatedRanges lengths s).head?, r.1 = s.pmaCursor.toNat := by
  induction lengths generalizing s with
  | nil => exact nofun
  | cons length lengths ih =>
    obtain ⟨t, ht, ⟨-, heq⟩ | ⟨hkept, heq⟩⟩ := allocatedRanges_cons length lengths h
    · rw [heq]
      rintro _ ⟨⟩
      rfl
    · rw [heq, ← hkept]
      exact ih ht

/-- Each range starts where the one before it ends. -/
theorem allocatedRanges_contiguous (lengths : List Half) {s : State} (h : AllocCursorOk s.pmaCursor) :
    (allocatedRanges lengths s).IsChain (fun r q => q.1 = r.2) := by
  induction lengths generalizing s with
  | nil => exact .nil
  | cons length lengths ih =>
    obtain ⟨t, ht, ⟨-, heq⟩ | ⟨-, heq⟩⟩ := allocatedRanges_cons length lengths h <;> rw [heq]
    · exact List.isChain_cons.2 ⟨allocatedRanges_head lengths ht, ih ht⟩
    · exact ih ht

/-- Each range ends at or below the start of every later one: the later ones start at or above the cursor it leaves. -/
theorem allocatedRanges_disjoint (lengths : List Half) {s : State} (h : AllocCursorOk s.pmaCursor) :
    (allocatedRanges lengths s).Pairwise (fun r q => r.2 ≤ q.1) := by
  induction lengths generalizing s with
  | nil => exact .nil
  | cons length lengths ih =>
    obtain ⟨t, ht, ⟨-, heq⟩ | ⟨-, heq⟩⟩ := allocatedRanges_cons length lengths h <;> rw [heq]
    · exact List.pairwise_cons.2 ⟨fun q hq => (allocatedRanges_bounds lengths ht q hq).2.1, ih ht⟩
    · exact ih ht

/-- Settles O16: the four properties, each by induction on the sequence from any cursor in its range. -/
theorem allocationsAreDisjoint : Obligations.AllocationsAreDisjoint := by
  intro lengths s h
  refine ⟨allocatedRanges_head lengths h, List.isChain_iff_getElem.1 (allocatedRanges_contiguous lengths h),
    (allocatedRanges_disjoint lengths h).imp fun hle => ⟨hle, fun hlt => hlt.trans_le hle⟩, fun r hr => ?_⟩
  obtain ⟨heven, hlow, hends⟩ := allocatedRanges_bounds lengths h r hr
  obtain ⟨-, hbase, -⟩ := h
  exact ⟨heven, hbase.trans hlow, hends⟩

/-! ### The control registers -/

/-- Settles O57: an operation that runs no bus reset keeps the four registers. -/
theorem controlRegistersKept : Obligations.ControlRegistersKept := by
  intro i s t hbus hreset hentry h
  have hno : ¬ RunsBusReset i s := by
    rintro (hi | hi | ⟨hi, hsampled⟩)
    · exact hbus hi
    · exact hreset hi
    · exact Bool.false_ne_true ((hentry hi).symm.trans hsampled)
  exact ((exec_operation h).noReset hno).2

end Sys2Proof.Machine
end

section
/-! PROOFS. CONFIGURE, SET_STATUS and the completion flags (`41_endpoint_config_status.md`): the register each leaves, as a
value or bit by bit, and from it the whole next state. -/

namespace Sys2Proof.Machine

/-! ### CONFIGURE (R130, R131) -/

/-- The register CONFIGURE leaves: the type and the low address bits are new, the bits 0xF9F0 are kept (R131). -/
theorem eprWriteWord_configWord (cur : Half) (address : BitVec 8) (type : TransferType) :
    eprWriteWord cur (configWord cur address type) =
      (cur &&& 0xF9F0) ||| ((typeCode type).setWidth 16 <<< 9) ||| (address.setWidth 16 &&& 0x000F) := by
  apply BitVec.eq_of_getLsbD_eq
  intro i hi
  rw [eprWriteWord_getLsbD _ _ _ hi]
  interval_cases i <;> simp [configWord]

theorem exec_configureInternal (n : Ep) (address : BitVec 8) (size : Half) (type : TransferType) (s : State) :
    exec (.configureInternal n address size type) s = .next
      ((s.setEts n { s.etsOf n with packetSize := size }).setEpr n
        ((s.eprOf n &&& 0xF9F0) ||| ((typeCode type).setWidth 16 <<< 9) ||| (address.setWidth 16 &&& 0x000F))) :=
  congrArg (fun w => Host.Outcome.next (State.setEpr _ n w)) (eprWriteWord_configWord (s.eprOf n) address type)

/-- CONFIGURE as a command, on an endpoint in range and of a recognised type, is the internal form (R130, R137). -/
theorem exec_configure_inRange {ep code : BitVec 8} {n : Ep} {type : TransferType} (address : BitVec 8) (size : Half)
    (s : State) (hep : ep.toNat = n.val) (htype : typeOf code = some type) :
    exec (.configure ep address size code) s = exec (.configureInternal n address size type) s := by
  show execConfigure ep address size code s = execConfigureInternal n address size type s
  rw [execConfigure, endpointOf_eq hep, htype, execConfigureInternal]

/-- The three types as a command's number, as a constructor and as the EP_TYPE code (R28, R93). -/
theorem typeOf_typeCode {code : BitVec 8} {type : TransferType} {epType : BitVec 2}
    (h : (code, type, epType) ∈
      ([(0, .bulk, 0b00), (1, .control, 0b01), (2, .interrupt, 0b11)] : List (BitVec 8 × TransferType × BitVec 2))) :
    typeOf code = some type ∧ typeCode type = epType := by
  simp only [List.mem_cons, Prod.mk.injEq, List.not_mem_nil, or_false] at h
  obtain ⟨rfl, rfl, rfl⟩ | ⟨rfl, rfl, rfl⟩ | ⟨rfl, rfl, rfl⟩ := h <;> decide

/-- Settles O17: the command and the internal form both run the operation on the endpoint. -/
theorem configureEffect : Obligations.ConfigureEffect := by
  intro n ep address code size type epType s hep htype
  obtain ⟨hof, rfl⟩ := typeOf_typeCode htype
  have hinternal := exec_configureInternal n address size type s
  exact ⟨(exec_configure_inRange address size s hep hof).trans hinternal, hinternal⟩

/-! ### SET_STATUS for any mask (R133, R134) -/

section AnyMask

variable {cur desired mask : Half} {i : Nat}

theorem setStatusWord_getLsbD_masked (h : mask.getLsbD i = true) :
    (setStatusWord cur desired mask).getLsbD i = xor (cur.getLsbD i) (desired.getLsbD i) := by
  simp [setStatusWord, h]

theorem setStatusWord_getLsbD_unmasked (h : mask.getLsbD i = false) :
    (setStatusWord cur desired mask).getLsbD i = (cur.getLsbD i && fixedMask.getLsbD i) := by
  simp [setStatusWord, h]

/-- Outside the mask the written word holds the bits of FIXED_MASK as read and 0 on the toggle bits, so no bit moves. -/
theorem setStatus_getLsbD_unmasked (hi : i < 16) (h : mask.getLsbD i = false) :
    (eprWriteWord cur (setStatusWord cur desired mask)).getLsbD i = cur.getLsbD i := by
  rw [eprWriteWord_getLsbD _ _ _ hi, setStatusWord_getLsbD_unmasked h]
  interval_cases i <;> simp [fixedMask]

/-- Inside the mask the written bit is `cur XOR desired`, and the kind of the field decides what the register becomes. -/
theorem setStatus_getLsbD_masked (hi : i < 16) (h : mask.getLsbD i = true) :
    (eprWriteWord cur (setStatusWord cur desired mask)).getLsbD i =
      if i = 15 ∨ i = 7 then cur.getLsbD i && !desired.getLsbD i
      else if i = 11 then cur.getLsbD i
      else if i = 10 ∨ i = 9 ∨ i = 8 ∨ i < 4 then xor (cur.getLsbD i) (desired.getLsbD i)
      else desired.getLsbD i := by
  rw [eprWriteWord_getLsbD _ _ _ hi, setStatusWord_getLsbD_masked h]
  by_cases hflag : i = 15 ∨ i = 7
  · rw [if_pos hflag, if_pos hflag]
    cases cur.getLsbD i <;> simp
  rw [if_neg hflag, if_neg hflag]
  by_cases htoggle : i = 14 ∨ i = 13 ∨ i = 12 ∨ i = 6 ∨ i = 5 ∨ i = 4
  · rw [if_pos htoggle, if_neg (by omega), if_neg (by omega), ← Bool.xor_assoc, Bool.xor_self, Bool.false_xor]
  rw [if_neg htoggle]
  by_cases hsetup : i = 11
  · rw [if_pos hsetup, if_pos hsetup]
  · rw [if_neg hsetup, if_neg hsetup, if_pos (by omega)]

end AnyMask

/-- SET_STATUS as a command, on an endpoint in range, is the internal form (R133, R137). -/
theorem exec_setStatus_inRange {n : Ep} {ep : BitVec 8} (desired mask : Half) (s : State) (hep : ep.toNat = n.val) :
    exec (.setStatus ep desired mask) s = exec (.setStatusInternal n desired mask) s := by
  show Host.Outcome.next (setStatusCommand ep desired mask s) = .next (setStatusOf n desired mask s)
  rw [setStatusCommand, endpointOf_eq hep]

/-- Settles O20: the register SET_STATUS leaves under a mask inside the toggle bits, for the internal form and the command. -/
theorem setStatusProperty : Obligations.SetStatusProperty := by
  intro n ep desired mask s hep hmask t
  have hinternal : exec (.setStatusInternal n desired mask) s = .next t :=
    congrArg (fun w => Host.Outcome.next (s.setEpr n w)) (eprWriteWord_setStatusWord (s.eprOf n) desired hmask)
  exact ⟨(exec_setStatus_inRange desired mask s hep).trans hinternal, hinternal⟩

/-- Settles O21: the register is the written word's, and each bit of it goes by whether the mask holds it. -/
theorem setStatusAnyMask : Obligations.SetStatusAnyMask := by
  intro n ep desired mask s hep
  refine ⟨eprWriteWord (s.eprOf n) (setStatusWord (s.eprOf n) desired mask),
    exec_setStatus_inRange desired mask s hep, rfl, fun i hi => ?_⟩
  cases hmask : mask.getLsbD i with
  | false => exact setStatus_getLsbD_unmasked hi hmask
  | true => exact setStatus_getLsbD_masked hi hmask

/-! ### The completion flags (R136) -/

/-- Settles O23: each clear is one register write, of the word whose effect is known. -/
theorem clearCompletionFlag : Obligations.ClearCompletionFlag := by
  intro n val s cur
  exact ⟨congrArg (fun w => Host.Outcome.next (s.setEpr n w)) (eprWriteWord_clearCtrRx cur val),
    congrArg (fun w => Host.Outcome.next (s.setEpr n w)) (eprWriteWord_clearCtrTx cur val)⟩

end Sys2Proof.Machine
end

section
/-! PROOFS. Transmit (`42_transmit.md`): SEND_NEXT_PACKET and BEGIN_PACKET_RECEIVE by case, SEND of a buffer, the
cancels, and the length of the next packet. -/

namespace Sys2Proof.Machine

variable {n : Ep} {s t : State}

/-! ### SEND_NEXT_PACKET by case (R147) -/

theorem exec_sendNextPacket (n : Ep) (s : State) : exec (.sendNextPacket n) s = settle (sendNext n s) := rfl

theorem sendNext_oversize (h : Config.maxPacketSize < (s.etsOf n).packetSize.toNat) :
    sendNext n s = refuse .packetSizeTooLarge := if_pos h

theorem sendNext_nothing (h : (s.etsOf n).TxNothing) (hsize : (s.etsOf n).packetSize.toNat ≤ Config.maxPacketSize) :
    sendNext n s = .ok s := (if_neg (Nat.not_lt.2 hsize)).trans (if_pos h)

theorem sendNext_overrun (h : ¬ (s.etsOf n).TxNothing) (hsize : (s.etsOf n).packetSize.toNat ≤ Config.maxPacketSize)
    (hd : s.DescriptorOk n) (hz : s.bdt n .txAddr = 0) (hf : ¬ s.Fits (s.etsOf n).packetSize) :
    sendNext n s = .ok (raiseFault .allocOverrun s) := by
  refine (if_neg (Nat.not_lt.2 hsize)).trans ((if_neg h).trans ?_)
  rw [bdtRead_at .txAddr hd, Eff.ok_bind, if_pos hz, allocate_overrun hf]

/-- With a buffer, or room for one, the packet is queued from the state with the buffer allocated. -/
theorem sendNext_withTxBuffer (h : ¬ (s.etsOf n).TxNothing)
    (hsize : (s.etsOf n).packetSize.toNat ≤ Config.maxPacketSize) (hd : s.DescriptorOk n)
    (hf : s.bdt n .txAddr = 0 → s.Fits (s.etsOf n).packetSize) : sendNext n s = queuePacket n (s.withTxBuffer n) := by
  refine (if_neg (Nat.not_lt.2 hsize)).trans ((if_neg h).trans ?_)
  rw [bdtRead_at .txAddr hd, Eff.ok_bind]
  by_cases hz : s.bdt n .txAddr = 0
  · have halloc : State.DescriptorOk { s with
        pmaCursor := BitVec.ofNat 16 (s.pmaCursor.toNat + 2 * allocWords (s.etsOf n).packetSize) } n := hd
    rw [if_pos hz, allocate_fits (hf hz), State.withTxBuffer_some hz (hf hz)]
    exact congrArg (· >>= queuePacket n) (bdtWrite_at .txAddr s.pmaCursor halloc)
  · rw [if_neg hz, State.withTxBuffer_none hz]

/-- With a descriptor in packet memory and a copy that is possible, the packet is queued. -/
theorem queuePacket_runs (hd : s.DescriptorOk n)
    (hc : CopyOk (s.bdt n .txAddr).toNat (s.etsOf n).txPacketLength.toNat) : ∃ t, queuePacket n s = .ok t := by
  obtain ⟨u, hu⟩ := copyIn_runs (src := (s.etsOf n).txCursor) (s := s) hc
  have hb : u.btable = s.btable := by rw [(copyIn_ok hu).1]
  unfold queuePacket
  rw [bdtRead_at .txAddr hd, Eff.ok_bind, hu, Eff.ok_bind, bdtWrite_at .txCount _ (hd.congr hb)]
  exact ⟨_, rfl⟩

/-- A direction that is ready has its next packet queued (R147, R148). -/
theorem sendNext_queues (h : s.TxReady n) : ∃ t, sendNext n s = .ok t ∧ s.QueuedPacket n t := by
  obtain ⟨hd, hactive, hsize, hfits, hcopy⟩ := h
  obtain ⟨he, -, -, -⟩ := s.withTxBuffer_ets n
  have hb : (s.withTxBuffer n).btable = s.btable := by rw [(PacketStep.withTxBuffer n s).eq]
  have hets : (s.withTxBuffer n).etsOf n = s.etsOf n := by rw [State.etsOf, he]; rfl
  obtain ⟨t, ht⟩ := queuePacket_runs (hd.congr hb) (by rw [hets]; exact hcopy)
  rw [← sendNext_withTxBuffer hactive hsize hd hfits] at ht
  refine ⟨t, ht, ?_⟩
  rcases sendNext_ok ht with ⟨hn, -⟩ | ⟨-, hz, hf, -⟩ | ⟨-, -, hq, -⟩
  · exact absurd hn hactive
  · exact absurd (hfits hz) hf
  · exact hq

/-- Settles O24: the queued packet of a direction that is ready, as the outcome of the operation. -/
theorem sendNextPacketQueues : Obligations.SendNextPacketQueues := by
  intro n s h
  obtain ⟨t, ht, hq⟩ := sendNext_queues h
  exact ⟨t, settle_next.2 ht, hq⟩

/-! ### BEGIN_PACKET_RECEIVE where it arms nothing (R162) -/

theorem exec_beginPacketReceive (n : Ep) (s : State) : exec (.beginPacketReceive n) s = settle (beginReceive n s) := rfl

theorem beginReceive_oversize (h : Config.maxPacketSize < (s.etsOf n).packetSize.toNat) :
    beginReceive n s = refuse .packetSizeTooLarge := if_pos h

theorem beginReceive_nothing (h : (s.etsOf n).RxNothing)
    (hsize : (s.etsOf n).packetSize.toNat ≤ Config.maxPacketSize) : beginReceive n s = .ok s :=
  (if_neg (Nat.not_lt.2 hsize)).trans (if_pos h)

theorem beginReceive_overrun (h : ¬ (s.etsOf n).RxNothing)
    (hsize : (s.etsOf n).packetSize.toNat ≤ Config.maxPacketSize) (hd : s.DescriptorOk n) (hz : s.bdt n .rxAddr = 0)
    (hf : ¬ s.Fits (s.etsOf n).packetSize) : beginReceive n s = .ok (raiseFault .allocOverrun s) := by
  refine (if_neg (Nat.not_lt.2 hsize)).trans ((if_neg h).trans ?_)
  rw [bdtRead_at .rxAddr hd, Eff.ok_bind, if_pos hz, allocate_overrun hf]

/-- Settles O30: one equation of each operation per case. -/
theorem packetOperationsOtherwise : Obligations.PacketOperationsOtherwise := by
  intro n s size overrun
  refine ⟨fun h hsize => ?_, fun h hsize => ?_, fun h hsize hd hz hf => ?_, fun h hsize hd hz hf => ?_, fun h => ?_,
    fun h => ?_⟩
  · rw [exec_sendNextPacket, sendNext_nothing h hsize, settle_ok]
  · rw [exec_beginPacketReceive, beginReceive_nothing h hsize, settle_ok]
  · rw [exec_sendNextPacket, sendNext_overrun h hsize hd hz hf]
    rfl
  · rw [exec_beginPacketReceive, beginReceive_overrun h hsize hd hz hf]
    rfl
  · rw [exec_sendNextPacket, sendNext_oversize h, settle_refuse]
  · rw [exec_beginPacketReceive, beginReceive_oversize h, settle_refuse]

/-! ### SEND and RECEIVE on an endpoint in range (R137, R145, R146, R160) -/

section InRange

variable {ep : BitVec 8} (buffer : Word) (length : Half) (s : State)

theorem exec_send_inRange (h : ep.toNat = n.val) :
    exec (.send ep buffer length) s = settle (sendOf n buffer length s) := by
  show settle (sendCommand ep buffer length s) = _
  rw [sendCommand, endpointOf_eq h]

theorem exec_receive_inRange (h : ep.toNat = n.val) :
    exec (.receive ep buffer length) s = settle (receiveOf n buffer length s) := by
  show settle (receiveCommand ep buffer length s) = _
  rw [receiveCommand, endpointOf_eq h]

end InRange

theorem bufferWraps_eq_false_iff {buffer : Word} {length : Half} :
    bufferWraps buffer length = false ↔ buffer.toNat + length.toNat ≤ 2 ^ 32 - 1 :=
  decide_eq_false_iff_not.trans Nat.not_lt

theorem sendOf_null (length : Half) (s : State) :
    sendOf n 0 length s = .ok ((s.setEts n { s.etsOf n with txCursor := 0 }).setEpr n (s.eprOf n &&& 0xFFCF)) :=
  congrArg Except.ok (setTxDisabled_eq n _)

theorem receiveOf_null (length : Half) (s : State) :
    receiveOf n 0 length s = .ok ((s.setEts n { s.etsOf n with rxCursor := 0 }).setEpr n (s.eprOf n &&& 0xCFFF)) :=
  congrArg Except.ok (setRxDisabled_eq n _)

/-- A buffer that is not null and does not wrap goes to SEND_NEXT_PACKET with the transfer recorded (R145). -/
theorem sendOf_recorded {b : Word} {l : Half} (s : State) (hb : b ≠ 0) (hw : b.toNat + l.toNat ≤ 2 ^ 32 - 1) :
    sendOf n b l s = sendNext n (s.setEts n { s.etsOf n with txBuf := b, txLen := l, txCursor := b }) := by
  rw [sendOf, if_neg hb, bufferWraps_eq_false_iff.2 hw, if_neg Bool.false_ne_true]

theorem sendOf_wraps {b : Word} {l : Half} (s : State) (hb : b ≠ 0) (hw : 2 ^ 32 - 1 < b.toNat + l.toNat) :
    sendOf n b l s = refuse .bufferWraps :=
  (if_neg hb).trans (if_pos (decide_eq_true hw))

/-- Settles O25: SEND is SEND_NEXT_PACKET on the recorded state, whose cases are known. -/
theorem sendRecordsAndQueues : Obligations.SendRecordsAndQueues := by
  intro n ep buffer length s hep hb s0
  rw [exec_send_inRange buffer length s hep]
  refine ⟨fun hw => ?_, fun hw => by rw [sendOf_wraps s hb hw, settle_refuse]⟩
  rw [sendOf_recorded s hb hw]
  refine ⟨rfl, sendNextPacketQueues n s0, fun hzero => ?_⟩
  have hsize : (s0.etsOf n).packetSize = 0 := by rw [State.setEts_etsOf_same]; exact hzero
  exact congrArg settle (sendNext_nothing (.inr hsize) (by rw [hsize]; exact Nat.zero_le _))

/-- Settles O34: the five forms are the two null-buffer cases. -/
theorem cancelEffect : Obligations.CancelEffect := by
  intro n ep length s hep tx rx
  have hsend (l : Half) : exec (.send ep 0 l) s = .next tx := by
    rw [exec_send_inRange 0 l s hep, sendOf_null, settle_ok]
  have hreceive (l : Half) : exec (.receive ep 0 l) s = .next rx := by
    rw [exec_receive_inRange 0 l s hep, receiveOf_null, settle_ok]
  exact ⟨hsend length, hsend 0, hreceive length, hreceive 0, settle_next.2 (receiveOf_null length s)⟩

/-! ### The length of the next packet (R11, R151) -/

section PacketLength

variable {e : Ets} (h : CursorOk e.txBuf e.txCursor e.txLen) (hc : e.txCursor ≠ Config.cursorNone)

include h hc

/-- The packet ends inside the buffer. -/
theorem Ets.queued_add_txPacketLength_le :
    e.txCursor.toNat - e.txBuf.toNat + e.txPacketLength.toNat ≤ e.txLen.toNat := by
  have hlen := Ets.txPacketLength_toNat h hc
  have hqueued := (completed_toNat h hc).2
  omega

/-- The cursor moved on by the packet does not wrap. -/
theorem Ets.txCursor_add_txPacketLength_toNat :
    (e.txCursor + e.txPacketLength.setWidth 32).toNat = e.txCursor.toNat + e.txPacketLength.toNat := by
  have hle := Ets.queued_add_txPacketLength_le h hc
  obtain ⟨hlow, -, hend⟩ := h hc
  have hlt := e.txPacketLength.isLt
  simp only [Config.maxBufferEnd] at hend
  rw [BitVec.toNat_add, BitVec.toNat_setWidth_of_le (by decide)]
  omega

end PacketLength

/-- Settles O26: the length, the moved cursor and the end of the packet, each exactly. -/
theorem packetLengthExact : Obligations.PacketLengthExact := by
  intro e hc h
  exact ⟨Ets.txPacketLength_toNat h hc, Ets.txCursor_add_txPacketLength_toNat h hc,
    Ets.queued_add_txPacketLength_le h hc⟩

end Sys2Proof.Machine
end

section
/-! PROOFS. The packets of one transfer (`42_transmit.md` R148, R149): what one packet leaves of a transfer in progress,
and by induction over the TX_COMPLETEs the packets of the whole transfer. -/

namespace Sys2Proof.Machine

/-! ### A transfer in progress -/

/-- The transmit direction has a transfer inside its buffer, of which `left` bytes are not yet queued (R11, R151). -/
structure Ets.TxLeft (e : Ets) (left : Nat) : Prop where
  active : e.txCursor ≠ Config.cursorNone
  inside : CursorOk e.txBuf e.txCursor e.txLen
  left : e.txLen.toNat - (e.txCursor.toNat - e.txBuf.toNat) = left

/-- Endpoint `n` has packet size `size` and an allocated packet buffer above its descriptor. -/
structure State.TxAllocated (s : State) (n : Ep) (size : Nat) : Prop where
  descriptor : s.DescriptorOk n
  packetSize : (s.etsOf n).packetSize.toNat = size
  pos : 1 ≤ size
  max : size ≤ Config.maxPacketSize
  nonzero : s.bdt n .txAddr ≠ 0
  even : (s.bdt n .txAddr).toNat % 2 = 0
  fits : (s.bdt n .txAddr).toNat + size ≤ Config.pmaSize
  above : s.btable.toNat + 8 * n.val + 8 ≤ (s.bdt n .txAddr).toNat

/-- What a packet queued for a transfer with `left` bytes to go leaves (R148): a short packet of those bytes and no
transfer, or a full packet and a transfer with the rest to go. -/
def State.PacketOf (t : State) (n : Ep) (size left : Nat) : Prop :=
  (left < size ∧ (t.bdt n .txCount).toNat = left ∧ (t.etsOf n).txCursor = Config.cursorNone) ∨
  (size ≤ left ∧ (t.bdt n .txCount).toNat = size ∧ t.TxAllocated n size ∧ (t.etsOf n).TxLeft (left - size))

variable {n : Ep} {s t : State} {e : Ets} {size left : Nat}

theorem Ets.TxLeft.txPacketLength_toNat (h : e.TxLeft left) : e.txPacketLength.toNat = min e.packetSize.toNat left := by
  rw [← h.left]
  exact Ets.txPacketLength_toNat h.inside h.active

/-- The cursor moved on by the packet has the packet's bytes fewer to go. -/
theorem Ets.TxLeft.advance (h : e.TxLeft left) :
    ({ e with txCursor := e.txCursor + e.txPacketLength.setWidth 32 } : Ets).TxLeft
      (left - e.txPacketLength.toNat) := by
  obtain ⟨hc, hin, rfl⟩ := h
  have hcursor := Ets.txCursor_add_txPacketLength_toNat hin hc
  have hend := Ets.queued_add_txPacketLength_le hin hc
  obtain ⟨hlow, -, -⟩ := hin hc
  have hpos : e.txCursor.toNat ≠ 0 := fun h0 => hc (BitVec.eq_of_toNat_eq h0)
  refine ⟨fun h0 => ?_, hin.advance hc (by omega), ?_⟩
  · have : e.txCursor.toNat + e.txPacketLength.toNat = 0 := hcursor.symm.trans (congrArg BitVec.toNat h0)
    omega
  · show e.txLen.toNat - ((e.txCursor + e.txPacketLength.setWidth 32).toNat - e.txBuf.toNat) = _
    omega

/-- A register write keeps the endpoint's packet size and buffer. -/
theorem State.TxAllocated.setEpr (h : s.TxAllocated n size) (k : Ep) (w : Half) : (s.setEpr k w).TxAllocated n size :=
  ⟨h.descriptor, h.packetSize, h.pos, h.max, h.nonzero, h.even, h.fits, h.above⟩

theorem State.PacketOf.setEpr (h : t.PacketOf n size left) (k : Ep) (w : Half) : (t.setEpr k w).PacketOf n size left :=
  h.imp id fun ⟨hfull, hcount, halloc, hleft⟩ => ⟨hfull, hcount, halloc.setEpr k w, hleft⟩

/-! ### One packet -/

/-- A transfer in progress on an endpoint with its buffer is ready for its next packet. -/
theorem State.TxAllocated.txReady (h : s.TxAllocated n size) (hleft : (s.etsOf n).TxLeft left) : s.TxReady n := by
  have hpos := h.pos
  have hsize := h.packetSize
  have hlen := hleft.txPacketLength_toNat
  have hfits := h.fits
  refine ⟨h.descriptor, ?_, hsize ▸ h.max, fun h0 => absurd h0 h.nonzero, ?_⟩
  · rintro (h0 | h0)
    · exact hleft.active h0
    · rw [h0] at hsize
      exact absurd hsize (Nat.ne_of_lt hpos)
  · rw [State.withTxBuffer_none h.nonzero]
    exact ⟨.inl h.even, by omega⟩

/-- The record of the endpoint after a packet (R147, R148). -/
theorem QueuedPacket.etsOf (h : s.QueuedPacket n t) :
    t.etsOf n = { s.etsOf n with
      txCursor := if (s.etsOf n).txPacketLength = (s.etsOf n).packetSize then
        (s.etsOf n).txCursor + (s.etsOf n).txPacketLength.setWidth 32 else Config.cursorNone } := by
  rw [h.1]
  exact State.setEts_etsOf_same s n _

/-- A queued packet, of bytes above the descriptor, keeps the address and the packet size. -/
theorem State.TxAllocated.queued (h : s.TxAllocated n size) (hq : s.QueuedPacket n t) : t.TxAllocated n size := by
  have hets := QueuedPacket.etsOf hq
  have hb : t.btable = s.btable := by rw [(QueuedPacket.packetStep hq).eq]
  obtain ⟨-, -, hbytes⟩ := hq
  rw [State.withTxBuffer_none h.nonzero] at hbytes
  have haddr : t.bdt n .txAddr = s.bdt n .txAddr := by
    refine State.bdt_congr hb fun x hx => ?_
    have habove := h.above
    have hfield : ¬ s.InBdtField n .txCount x ∧ x < s.btable.toNat + 8 * n.val + 8 := by
      simp only [State.InBdtField, bdtOffset, bdtFieldOffset] at hx ⊢
      omega
    rw [hbytes x hfield.1, if_neg (by omega)]
  have hsize : (t.etsOf n).packetSize = (s.etsOf n).packetSize := by rw [hets]
  exact ⟨h.descriptor.congr hb, hsize ▸ h.packetSize, h.pos, h.max, haddr ▸ h.nonzero, haddr ▸ h.even, haddr ▸ h.fits,
    by rw [haddr, hb]; exact h.above⟩

/-- SEND_NEXT_PACKET on a transfer in progress: the packet is short exactly where less than the packet size is left. -/
theorem State.TxAllocated.sendNext_packetOf (h : s.TxAllocated n size) (hleft : (s.etsOf n).TxLeft left) :
    ∃ t, sendNext n s = .ok t ∧ t.PacketOf n size left := by
  obtain ⟨t, ht, hq⟩ := sendNext_queues (h.txReady hleft)
  have hlen := hleft.txPacketLength_toNat
  rw [h.packetSize] at hlen
  have hets := QueuedPacket.etsOf hq
  have ⟨_, hcount, _⟩ := hq
  refine ⟨t, ht, ?_⟩
  by_cases hshort : left < size
  · have hne : (s.etsOf n).txPacketLength ≠ (s.etsOf n).packetSize := fun heq => by
      rw [heq, h.packetSize] at hlen
      omega
    rw [if_neg hne] at hets
    exact .inl ⟨hshort, by rw [hcount]; omega, by rw [hets]⟩
  · have heq : (s.etsOf n).txPacketLength.toNat = size := by omega
    rw [if_pos (BitVec.eq_of_toNat_eq (heq.trans h.packetSize.symm))] at hets
    have hadvance := hleft.advance
    rw [heq, ← hets] at hadvance
    exact .inr ⟨by omega, by rw [hcount, heq], h.queued hq, hadvance⟩

/-! ### TX_COMPLETE after TX_COMPLETE -/

/-- TX_COMPLETE on a transfer in progress queues its next packet and clears CTR_TX (R211). -/
theorem exec_txComplete_active (val : Half) (h : (s.etsOf n).txCursor ≠ Config.cursorNone) (ht : sendNext n s = .ok t) :
    exec (.txComplete n val) s = .next (clearCtrTxOf n val t) := by
  show settle (txCompleteOf n val s) = _
  rw [txCompleteOf, ht, Eff.ok_bind]
  exact congrArg settle (if_neg h)

theorem queuedLengths_idle (k : Nat) (h : (s.etsOf n).txCursor = Config.cursorNone) : queuedLengths n k s = [] := by
  cases k with
  | zero => rfl
  | succ k => exact if_pos h

/-- On a transfer in progress the first TX_COMPLETE queues a packet, and the others go on from there. -/
theorem queuedLengths_active (k : Nat) (h : s.TxAllocated n size) (hleft : (s.etsOf n).TxLeft left) :
    ∃ u : State, u.PacketOf n size left ∧ queuedLengths n (k + 1) s = u.bdt n .txCount :: queuedLengths n k u := by
  obtain ⟨t, ht, hp⟩ := h.sendNext_packetOf hleft
  refine ⟨clearCtrTxOf n (s.eprOf n ||| 0x0080) t, hp.setEpr n _, ?_⟩
  rw [queuedLengths, if_neg hleft.active, exec_txComplete_active _ hleft.active ht]

/-- A short packet is the last one. -/
theorem queuedLengths_of_short (hshort : left < size) (hcount : (t.bdt n .txCount).toNat = left)
    (hidle : (t.etsOf n).txCursor = Config.cursorNone) (k : Nat) :
    (t.bdt n .txCount :: queuedLengths n k t).map BitVec.toNat =
      List.replicate (left / size) size ++ [left % size] := by
  rw [queuedLengths_idle k hidle, Nat.div_eq_of_lt hshort, Nat.mod_eq_of_lt hshort]
  exact congrArg (fun l => [l]) hcount

/-- The packets from one queued packet on: as many full ones as the bytes to go hold, then one of the rest (R149). -/
theorem queuedLengths_of_packet (hpos : 1 ≤ size) {k : Nat} (h : t.PacketOf n size left) (hk : left / size ≤ k) :
    (t.bdt n .txCount :: queuedLengths n k t).map BitVec.toNat =
      List.replicate (left / size) size ++ [left % size] := by
  induction k generalizing left t with
  | zero =>
    rcases h with ⟨hshort, hcount, hidle⟩ | ⟨hfull, -⟩
    · exact queuedLengths_of_short hshort hcount hidle 0
    · exact absurd hfull (Nat.not_le.2 (Nat.lt_of_div_eq_zero hpos (Nat.le_zero.1 hk)))
  | succ k ih =>
    rcases h with ⟨hshort, hcount, hidle⟩ | ⟨hfull, hcount, halloc, hleft⟩
    · exact queuedLengths_of_short hshort hcount hidle (k + 1)
    · obtain ⟨u, hu, hlengths⟩ := queuedLengths_active k halloc hleft
      have hdiv : left / size = (left - size) / size + 1 := Nat.div_eq_sub_div hpos hfull
      rw [hlengths, List.map_cons, ih hu (by omega), hcount, hdiv, List.replicate_succ, Nat.mod_eq_sub_mod hfull]
      rfl

/-- Settles O27: SEND records a transfer of N bytes in its buffer and queues the first packet of it. -/
theorem packetCount : Obligations.PacketCount := by
  intro n ep buffer length s hep hb hw hd size a hpos hmax hnonzero heven hfits habove
  rw [exec_send_inRange buffer length s hep, sendOf_recorded s hb hw]
  generalize hs : s.setEts n _ = s0
  have hets : s0.etsOf n = { s.etsOf n with txBuf := buffer, txLen := length, txCursor := buffer } := by
    rw [← hs, State.setEts_etsOf_same]
  have hbdt : s0.bdt n .txAddr = s.bdt n .txAddr := by rw [← hs]; rfl
  have hbtable : s0.btable = s.btable := by rw [← hs]; rfl
  have halloc : s0.TxAllocated n size.toNat := by
    refine ⟨hd.congr hbtable, by rw [hets], hpos, hmax, ?_, ?_, ?_, ?_⟩ <;> rw [hbdt]
    · exact fun h0 => hnonzero (congrArg BitVec.toNat h0)
    · exact heven
    · exact hfits
    · rw [hbtable]; exact habove
  have hleft : (s0.etsOf n).TxLeft length.toNat := by
    rw [hets]
    exact ⟨hb, CursorOk.start (bufferWraps_eq_false_iff.2 hw), by simp⟩
  obtain ⟨t, ht, hp⟩ := halloc.sendNext_packetOf hleft
  exact ⟨t, settle_next.2 ht, queuedLengths_of_packet hpos hp (Nat.le_succ _)⟩

end Sys2Proof.Machine
end

section
/-! PROOFS. The receive block encoding (`43_receive.md` R161, R229): its value and its capacity by arithmetic, and that no
`rx_count` word holds the packet in less. -/

namespace Sys2Proof.Machine

variable {p : Half}

/-! ### The capacity of an rx_count word (R229) -/

theorem numBlock_toNat (rc : Half) : (rc.extractLsb' 10 5).toNat = rc.toNat / 1024 % 32 := by
  rw [BitVec.extractLsb'_toNat, Nat.shiftRight_eq_div_pow]

theorem blSize_iff {rc : Half} : rc.getLsbD 15 = true ↔ 32768 ≤ rc.toNat := by
  have hmsb : rc.getLsbD 15 = rc.msb := (BitVec.msb_eq_getLsbD_last rc).symm
  rw [hmsb, BitVec.msb_eq_decide]
  exact decide_eq_true_iff

theorem capacity_eq (rc : Half) :
    capacity rc = if rc.getLsbD 15 then 32 * (rc.toNat / 1024 % 32 + 1) else 2 * (rc.toNat / 1024 % 32) := by
  rw [capacity, numBlock_toNat]

/-- A capacity is an even number up to 62 or a positive multiple of 32. -/
theorem capacity_cases (rc : Half) : (∃ k, k ≤ 31 ∧ capacity rc = 2 * k) ∨ ∃ k, capacity rc = 32 * (k + 1) := by
  rw [capacity_eq]
  split
  · exact .inr ⟨_, rfl⟩
  · exact .inl ⟨_, by omega, rfl⟩

/-! ### The encoding of a packet size (R161) -/

theorem blockEnc_toNat_small (h : p.toNat ≤ 62) : (blockEnc p).toNat = 1024 * ((p.toNat + 1) / 2) := by
  rw [blockEnc, if_pos h, BitVec.toNat_shiftLeft, BitVec.toNat_ofNat, Nat.shiftLeft_eq]
  omega

theorem blockEnc_toNat_large (h : ¬ p.toNat ≤ 62) (hmax : p.toNat ≤ 1023) :
    (blockEnc p).toNat = 32768 + 1024 * ((p.toNat + 31) / 32 - 1) := by
  have hblocks : (BitVec.ofNat 16 ((p.toNat + 31) / 32 - 1) <<< 10 : Half).toNat = 1024 * ((p.toNat + 31) / 32 - 1) := by
    rw [BitVec.toNat_shiftLeft, BitVec.toNat_ofNat, Nat.shiftLeft_eq]
    omega
  have hor := Nat.shiftLeft_add_eq_or_of_lt (i := 15) (b := 1024 * ((p.toNat + 31) / 32 - 1)) (by omega) 1
  rw [blockEnc, if_neg h, BitVec.toNat_or, hblocks]
  exact hor.symm

theorem blockEnc_toNat (hmax : p.toNat ≤ 1023) :
    (blockEnc p).toNat =
      if p.toNat ≤ 62 then 1024 * ((p.toNat + 1) / 2) else 32768 + 1024 * ((p.toNat + 31) / 32 - 1) := by
  split
  · next h => exact blockEnc_toNat_small h
  · next h => exact blockEnc_toNat_large h hmax

/-- The COUNT bits of the encoding are 0: it is a multiple of 1024. -/
theorem blockEnc_count (hmax : p.toNat ≤ 1023) : (blockEnc p).extractLsb' 0 10 = 0 := by
  have hmod : (blockEnc p).toNat % 1024 = 0 := by
    rw [blockEnc_toNat hmax]
    split <;> omega
  exact BitVec.eq_of_toNat_eq ((BitVec.extractLsb'_toNat ..).trans hmod)

/-- The capacity encoded: the packet size rounded up to an even number, or to a multiple of 32. -/
theorem capacity_blockEnc (hmax : p.toNat ≤ 1023) :
    capacity (blockEnc p) = if p.toNat ≤ 62 then 2 * ((p.toNat + 1) / 2) else 32 * ((p.toNat + 31) / 32) := by
  rw [capacity_eq]
  by_cases h : p.toNat ≤ 62
  · have hvalue := blockEnc_toNat_small h
    rw [if_neg (fun hbl => absurd (blSize_iff.1 hbl) (by omega)), if_pos h]
    omega
  · have hvalue := blockEnc_toNat_large h hmax
    rw [if_pos (blSize_iff.2 (by omega)), if_neg h]
    omega

/-- Any capacity that holds the packet is at least the one encoded: it is even, and above 62 a multiple of 32. -/
theorem capacity_blockEnc_le (hmax : p.toNat ≤ 1023) {rc : Half} (h : p.toNat ≤ capacity rc) :
    capacity (blockEnc p) ≤ capacity rc := by
  rw [capacity_blockEnc hmax]
  obtain ⟨k, hk, heq⟩ | ⟨k, heq⟩ := capacity_cases rc <;> split <;> omega

/-- Settles O28: the value, the COUNT bits and the capacity of the encoding, each by arithmetic. -/
theorem blockEncodingIsLeast : Obligations.BlockEncodingIsLeast := by
  refine ⟨capacity_eq, fun p hmax => ⟨blockEnc_toNat hmax, blockEnc_count hmax, ?_, fun rc => capacity_blockEnc_le hmax⟩⟩
  rw [capacity_blockEnc hmax]
  split <;> omega

end Sys2Proof.Machine
end

section
/-! PROOFS. Receive (`43_receive.md`): BEGIN_PACKET_RECEIVE on a direction that is ready, RECEIVE of a buffer, and
END_PACKET_RECEIVE by case with the bytes it leaves alone. -/

namespace Sys2Proof.Machine

variable {n : Ep} {s t u : State}

/-! ### BEGIN_PACKET_RECEIVE (R162) -/

/-- With a descriptor in packet memory, arming writes the block encoding and sets the status VALID. -/
theorem armReceive_at (hd : s.DescriptorOk n) :
    armReceive n s =
      .ok ((s.setBdt n .rxCount (blockEnc (s.etsOf n).packetSize)).setEpr n (s.eprOf n ||| 0x3000)) := by
  rw [armReceive, bdtWrite_at .rxCount _ hd, Eff.ok_bind, setRxValid_eq]
  rfl

/-- With a buffer, or room for one, the direction is armed from the state with the buffer allocated. -/
theorem beginReceive_withRxBuffer (h : ¬ (s.etsOf n).RxNothing)
    (hsize : (s.etsOf n).packetSize.toNat ≤ Config.maxPacketSize) (hd : s.DescriptorOk n)
    (hf : s.bdt n .rxAddr = 0 → s.Fits (s.etsOf n).packetSize) : beginReceive n s = armReceive n (s.withRxBuffer n) := by
  refine (if_neg (Nat.not_lt.2 hsize)).trans ((if_neg h).trans ?_)
  rw [bdtRead_at .rxAddr hd, Eff.ok_bind]
  by_cases hz : s.bdt n .rxAddr = 0
  · have halloc : State.DescriptorOk { s with
        pmaCursor := BitVec.ofNat 16 (s.pmaCursor.toNat + 2 * allocWords (s.etsOf n).packetSize) } n := hd
    rw [if_pos hz, allocate_fits (hf hz), State.withRxBuffer_some hz (hf hz)]
    exact congrArg (· >>= armReceive n) (bdtWrite_at .rxAddr s.pmaCursor halloc)
  · rw [if_neg hz, State.withRxBuffer_none hz]

theorem beginReceive_arms (h : s.RxReady n) : beginReceive n s = .ok (s.armedReceive n) := by
  obtain ⟨hd, hactive, hsize, hfits⟩ := h
  obtain ⟨hets, hepr, -, -⟩ := s.withRxBuffer_ets n
  have hb : (s.withRxBuffer n).btable = s.btable := by rw [(PacketStep.withRxBuffer n s).eq]
  rw [beginReceive_withRxBuffer hactive hsize hd hfits, armReceive_at (hd.congr hb), State.armedReceive, State.etsOf, hets,
    State.eprOf, hepr]
  rfl

/-- With a packet size in range and a descriptor in packet memory, BEGIN_PACKET_RECEIVE completes: it does nothing, the
allocation overruns, or the direction is armed. -/
theorem beginReceive_runs (hsize : (s.etsOf n).packetSize.toNat ≤ Config.maxPacketSize) (hd : s.DescriptorOk n) :
    ∃ t, beginReceive n s = .ok t := by
  by_cases hn : (s.etsOf n).RxNothing
  · exact ⟨s, beginReceive_nothing hn hsize⟩
  by_cases hf : s.bdt n .rxAddr = 0 → s.Fits (s.etsOf n).packetSize
  · exact ⟨_, beginReceive_arms ⟨hd, hn, hsize, hf⟩⟩
  · obtain ⟨hz, hover⟩ := Classical.not_imp.1 hf
    exact ⟨_, beginReceive_overrun hn hsize hd hz hover⟩

theorem beginReceive_ets (h : beginReceive n s = .ok t) : t.ets = s.ets := by
  rcases beginReceive_ok h with ⟨-, rfl⟩ | ⟨-, -, -, rfl⟩ | ⟨-, -, rfl, -⟩
  · rfl
  · rfl
  · exact (s.withRxBuffer_ets n).1

/-- Settles O29: a direction that is ready is armed. -/
theorem beginPacketReceiveArms : Obligations.BeginPacketReceiveArms := by
  intro n s h
  rw [exec_beginPacketReceive, beginReceive_arms h, settle_ok]

/-! ### RECEIVE of a buffer (R160) -/

theorem receiveOf_wraps {b : Word} {l : Half} (s : State) (hb : b ≠ 0) (hw : 2 ^ 32 - 1 < b.toNat + l.toNat) :
    receiveOf n b l s = refuse .bufferWraps :=
  (if_neg hb).trans (if_pos (decide_eq_true hw))

theorem exec_receiveInternal (n : Ep) (buffer : Word) (length : Half) (s : State) :
    exec (.receiveInternal n buffer length) s = settle (receiveOf n buffer length s) := rfl

/-- RECEIVE of a buffer that is not null and does not wrap is BEGIN_PACKET_RECEIVE with the transfer recorded, an overrun
and a packet size out of range included. -/
theorem exec_receive_recorded {ep : BitVec 8} {buffer : Word} {length : Half} (s : State) (hep : ep.toNat = n.val)
    (hb : buffer ≠ 0) (hw : buffer.toNat + length.toNat ≤ 2 ^ 32 - 1) :
    exec (.receive ep buffer length) s = exec (.beginPacketReceive n)
      (s.setEts n { s.etsOf n with rxBuf := buffer, rxLen := length, rxCursor := buffer }) := by
  rw [exec_receive_inRange buffer length s hep, receiveOf_recorded hb (bufferWraps_eq_false_iff.2 hw),
    exec_beginPacketReceive]

/-- Settles O33: RECEIVE is BEGIN_PACKET_RECEIVE on the recorded state, whose cases are known. -/
theorem receiveRecordsAndArms : Obligations.ReceiveRecordsAndArms := by
  intro n ep buffer length s hep hb s0
  refine ⟨(exec_receiveInternal n buffer length s).trans (exec_receive_inRange buffer length s hep).symm,
    fun hw => ?_, fun hw => ?_⟩
  · rw [exec_receive_recorded s hep hb hw]
    refine ⟨beginPacketReceiveArms n s0, fun hzero => ?_⟩
    have hsize : (s0.etsOf n).packetSize = 0 := by rw [State.setEts_etsOf_same]; exact hzero
    exact congrArg settle (beginReceive_nothing (.inr hsize) (by rw [hsize]; exact Nat.zero_le _))
  · rw [exec_receive_inRange buffer length s hep, receiveOf_wraps s hb hw, settle_refuse]

/-! ### END_PACKET_RECEIVE by case (R163, R164, R166) -/

/-- COUNT is the low ten bits of rx_count (R26). -/
theorem receivedCount_eq_and (rc : Half) : receivedCount rc = rc &&& 0x03FF := by
  apply BitVec.eq_of_toNat_eq
  rw [receivedCount, BitVec.toNat_setWidth_of_le (by decide), BitVec.extractLsb'_toNat, BitVec.toNat_and]
  exact (Nat.and_two_pow_sub_one_eq_mod rc.toNat 10).symm

theorem receivedCount_le (rc : Half) : (receivedCount rc).toNat ≤ Config.maxPacketSize := by
  rw [receivedCount_eq_and, BitVec.toNat_and]
  exact Nat.and_le_right

theorem endReceive_idle (h : (s.etsOf n).rxCursor = Config.cursorNone) : endReceive n s = .ok s := if_pos h

/-- On an active direction whose packet can be copied, the packet is delivered; the received count then decides between the
end of the transfer and the next packet. -/
theorem endReceive_delivers (hc : (s.etsOf n).rxCursor ≠ Config.cursorNone) (h : s.RxEndReady n) :
    ∃ u, s.Delivered n u ∧ endReceive n s =
      if receivedCount (s.bdt n .rxCount) ≠ (s.etsOf n).packetSize then
        .ok (u.setEts n { s.etsOf n with rxCursor := Config.cursorNone })
      else beginReceive n (u.setEts n
        { s.etsOf n with rxCursor := (s.etsOf n).rxCursor + BitVec.ofNat 32 (s.rxCopyLen n) }) := by
  obtain ⟨hd, hcopy⟩ := h.resolve_left hc
  obtain ⟨u, hu⟩ := copyOut_runs (dst := (s.etsOf n).rxCursor) (s := s) hcopy
  obtain ⟨hframe, hbytes, -⟩ := copyOut_ok (Nat.le_of_lt (BitVec.isLt _)) hu
  refine ⟨u, ⟨hframe, hbytes⟩, (if_neg hc).trans ?_⟩
  rw [bdtRead_at .rxCount hd, Eff.ok_bind, bdtRead_at .rxAddr hd, Eff.ok_bind, State.rxCopyLen, BitVec.ofNat_toNat]
  exact congrArg (· >>= _) hu

/-- END_PACKET_RECEIVE completes: a packet that goes on to the next one has the packet size, which its ten bits hold. -/
theorem endReceive_runs (h : s.RxEndReady n) : ∃ t, endReceive n s = .ok t := by
  by_cases hc : (s.etsOf n).rxCursor = Config.cursorNone
  · exact ⟨s, endReceive_idle hc⟩
  obtain ⟨u, hu, heq⟩ := endReceive_delivers hc h
  rw [heq]
  split
  · exact ⟨_, rfl⟩
  · next hr =>
    obtain ⟨hd, -⟩ := h.resolve_left hc
    have hb : u.btable = s.btable := by rw [hu.1]
    refine beginReceive_runs ?_ (hd.congr hb)
    rw [State.setEts_etsOf_same, ← not_not.1 hr]
    exact receivedCount_le _

/-- Settles O31: the delivered state, and BEGIN_PACKET_RECEIVE from it where the transfer goes on. -/
theorem endPacketReceiveEffect : Obligations.EndPacketReceiveEffect := by
  intro n s h e received
  have hreceived : receivedCount (s.bdt n .rxCount) = received := receivedCount_eq_and _
  refine ⟨fun hc => settle_next.2 (endReceive_idle hc), fun hc hr => ?_, fun hc hr => ?_⟩
  · obtain ⟨u, hu, heq⟩ := endReceive_delivers hc h
    rw [if_pos (hreceived ▸ hr)] at heq
    exact ⟨u, hu, settle_next.2 heq⟩
  · obtain ⟨u, hu, heq⟩ := endReceive_delivers hc h
    rw [if_neg (not_not.2 (hreceived.trans hr))] at heq
    obtain ⟨t, ht⟩ := endReceive_runs h
    refine ⟨u, hu, fun hready => ?_, fun hnothing => ?_, t, settle_next.2 ht⟩
    · exact settle_next.2 (heq.trans (beginReceive_arms hready))
    · refine settle_next.2 (heq.trans (beginReceive_nothing hnothing ?_))
      rw [State.setEts_etsOf_same]
      exact hr ▸ hreceived ▸ receivedCount_le _

/-! ### The caller's buffer (R165, R167) -/

section CallersBuffer

variable (h : CursorOk (s.etsOf n).rxBuf (s.etsOf n).rxCursor (s.etsOf n).rxLen)
  (hc : (s.etsOf n).rxCursor ≠ Config.cursorNone)

include h hc

theorem State.rxCopyLen_eq_min :
    s.rxCopyLen n = min (receivedCount (s.bdt n .rxCount)).toNat
      ((s.etsOf n).rxLen.toNat - ((s.etsOf n).rxCursor.toNat - (s.etsOf n).rxBuf.toNat)) :=
  Ets.rxCopyLength_toNat _ h hc

/-- A delivered packet lies between the cursor and the end of the buffer. -/
theorem Delivered.smByte_outside (hu : s.Delivered n u) {y : Word}
    (hy : y.toNat < (s.etsOf n).rxBuf.toNat ∨ (s.etsOf n).rxBuf.toNat + (s.etsOf n).rxLen.toNat ≤ y.toNat) :
    u.smByte y = s.smByte y := by
  have hlen := State.rxCopyLen_eq_min h hc
  obtain ⟨hlow, hhigh, hend⟩ := h hc
  obtain ⟨-, hbytes⟩ := hu
  have hlt := y.isLt
  simp only [Config.maxBufferEnd] at hend
  rw [hbytes y, if_neg (by rw [BitVec.toNat_sub]; omega)]

end CallersBuffer

/-- END_PACKET_RECEIVE keeps every byte outside the caller's buffer: only the delivery writes system memory. -/
theorem endReceive_smByte_outside (h : CursorOk (s.etsOf n).rxBuf (s.etsOf n).rxCursor (s.etsOf n).rxLen)
    (ht : endReceive n s = .ok t) {y : Word}
    (hy : y.toNat < (s.etsOf n).rxBuf.toNat ∨ (s.etsOf n).rxBuf.toNat + (s.etsOf n).rxLen.toNat ≤ y.toNat) :
    t.smByte y = s.smByte y := by
  rcases endReceive_ok ht with ⟨-, rfl⟩ | ⟨hc, u, hu, -, ⟨-, rfl⟩ | ⟨-, hbegin⟩⟩
  · rfl
  · exact Delivered.smByte_outside h hc hu hy
  · have hsm : t.smByte y = u.smByte y := by
      rw [State.smByte, beginReceive_sm hbegin]
      rfl
    exact hsm.trans (Delivered.smByte_outside h hc hu hy)

/-- END_PACKET_RECEIVE keeps the receive cursor inside its buffer, which it moves on by no more than the room left. -/
theorem endReceive_cursorOk (h : CursorOk (s.etsOf n).rxBuf (s.etsOf n).rxCursor (s.etsOf n).rxLen)
    (ht : endReceive n s = .ok t) : CursorOk (t.etsOf n).rxBuf (t.etsOf n).rxCursor (t.etsOf n).rxLen := by
  rcases endReceive_ok ht with ⟨-, rfl⟩ | ⟨hc, u, -, -, ⟨-, rfl⟩ | ⟨-, hbegin⟩⟩
  · exact h
  · rw [State.setEts_etsOf_same]
    exact CursorOk.none _ _
  · have hlen := Ets.rxCopyLength_toNat (receivedCount (s.bdt n .rxCount)) h hc
    have hets := beginReceive_ets hbegin
    rw [State.etsOf, hets, ← State.etsOf, State.setEts_etsOf_same]
    exact h.advance hc (by omega)

/-- Settles O32: the completed operation, its bytes, its cursor and the length of its copy. -/
theorem receiveStaysInBuffer : Obligations.ReceiveStaysInBuffer := by
  intro n s hready h e
  obtain ⟨t, ht⟩ := endReceive_runs hready
  refine ⟨t, settle_next.2 ht, fun y hy => endReceive_smByte_outside h ht hy, endReceive_cursorOk h ht, fun hc => ?_⟩
  rw [State.rxCopyLen_eq_min h hc, receivedCount_eq_and]

end Sys2Proof.Machine
end

section
/-! PROOFS. The control endpoint (`44_control_endpoint.md`): each CTL_EVENT as the notification it appends, and for SETUP the
RECEIVE it then makes. -/

namespace Sys2Proof.Machine

/-- R181: CTL_EVENT(SETUP) is the internal RECEIVE of the Setup Packet record on the state with the record CTL_SETUP. -/
theorem exec_ctlEventSetup (s : State) :
    exec .ctlEventSetup s = exec (.receiveInternal 0 s.params.setupBufAddr Config.setupLen)
      (notifyApp codeCtlSetup 0 (s.etsOf 0).rxBuf (s.etsOf 0).rxLen s) := rfl

theorem exec_ctlEventOut (s : State) :
    exec .ctlEventOut s = .next (notifyApp codeCtlOut 0 (s.etsOf 0).rxBuf (s.etsOf 0).rxLen s) := rfl

theorem exec_ctlEventIn (s : State) :
    exec .ctlEventIn s = .next (notifyApp codeCtlIn 0 (s.etsOf 0).txBuf (s.etsOf 0).txLen s) := rfl

/-- Settles O36: OUT and IN are their notification, and SETUP is a RECEIVE whose cases are known, the Setup Packet record
being a buffer that is not null and does not wrap. -/
theorem controlEvents : Obligations.ControlEvents := by
  intro s e
  refine ⟨exec_ctlEventOut s, exec_ctlEventIn s, ?_⟩
  intro ⟨hpos, hroom⟩ s1 s0
  obtain ⟨hinternal, hrecorded, -⟩ := receiveRecordsAndArms 0 0 s.params.setupBufAddr Config.setupLen s1 rfl hpos
  have hsetup : exec .ctlEventSetup s = exec (.receive 0 s.params.setupBufAddr Config.setupLen) s1 :=
    (exec_ctlEventSetup s).trans hinternal
  rw [hsetup]
  exact hrecorded hroom

end Sys2Proof.Machine
end

section
/-! PROOFS. The bus reset (`45_bus_reset.md`): the cleared table, the armed endpoint 0, and the whole next state. -/

namespace Sys2Proof.Machine

variable {n : Ep} {s t : State}

/-! ### The cleared table (R190, step 4) -/

@[simp] theorem State.setBdt_descriptorOk (s : State) (n k : Ep) (f : BdtField) (v : Half) :
    (s.setBdt k f v).DescriptorOk n ↔ s.DescriptorOk n := Iff.rfl

@[simp] theorem State.zeroEndpoint_btable (s : State) (n : Ep) : (s.zeroEndpoint n).btable = s.btable := by
  rw [State.zeroEndpoint_eq]

theorem State.descriptorOk_of_btable_zero (hb : s.btable = 0) (n : Ep) : s.DescriptorOk n := by
  unfold State.DescriptorOk
  rw [hb, Config.pmaSize]
  exact ⟨rfl, by simp; omega⟩

theorem clearEndpoint_at (hd : s.DescriptorOk n) : clearEndpoint s n = .ok (s.zeroEndpoint n) := by
  simp only [clearEndpoint, bdtWrite_at, State.setBdt_descriptorOk, hd, Eff.ok_bind, Eff.pure_eq, State.zeroEndpoint]

theorem clearEndpoints_at {ns : List Ep} (hd : ∀ n ∈ ns, s.DescriptorOk n) :
    clearEndpoints ns s = .ok (ns.foldl State.zeroEndpoint s) := by
  induction ns generalizing s with
  | nil => rfl
  | cons n ns ih =>
    rw [clearEndpoints, clearEndpoint_at (hd n List.mem_cons_self), Eff.ok_bind, List.foldl_cons]
    exact ih fun k hk => (hd k (List.mem_cons_of_mem n hk)).congr (s.zeroEndpoint_btable n)

theorem State.pmByte_setBdt_zero (s : State) (n : Ep) (f : BdtField) (x : Nat) :
    (s.setBdt n f 0).pmByte x =
      if x = bdtOffset s.btable n f ∨ x = bdtOffset s.btable n f + 1 then 0 else s.pmByte x := by
  rw [State.pmByte_setBdt, ite_or]
  rfl

/-- With BTABLE 0, the bytes zeroed with endpoint `n` are the `n`-th group of eight. -/
theorem State.zeroEndpoint_pmByte (hb : s.btable = 0) (n : Ep) (x : Nat) :
    (s.zeroEndpoint n).pmByte x = if x / 8 = n.val then 0 else s.pmByte x := by
  simp only [State.zeroEndpoint, State.setEts_pmByte, State.pmByte_setBdt_zero, State.setBdt_btable, hb, bdtOffset,
    bdtFieldOffset, ← ite_or]
  refine if_congr ?_ rfl rfl
  rw [show (0 : Half).toNat = 0 from rfl]
  omega

theorem foldl_zeroEndpoint_pmByte (hb : s.btable = 0) (ns : List Ep) (x : Nat) :
    (ns.foldl State.zeroEndpoint s).pmByte x = if ∃ n ∈ ns, x / 8 = n.val then 0 else s.pmByte x := by
  induction ns generalizing s with
  | nil => simp
  | cons n ns ih =>
    rw [List.foldl_cons, ih ((s.zeroEndpoint_btable n).trans hb), State.zeroEndpoint_pmByte hb]
    by_cases hn : x / 8 = n.val <;> simp [hn]

/-- `s` with the whole table and every record zeroed (R190, step 4). -/
def State.tableZeroed (s : State) : State := Config.endpoints.foldl State.zeroEndpoint s

theorem mem_endpoints (n : Ep) : n ∈ Config.endpoints := by
  revert n
  decide

section tableZeroed

variable (hb : s.btable = 0)
include hb

theorem clearEndpoints_endpoints : clearEndpoints Config.endpoints s = .ok s.tableZeroed :=
  clearEndpoints_at fun n _ => State.descriptorOk_of_btable_zero hb n

theorem State.tableZeroed_eq : s.tableZeroed = { s with pm := s.tableZeroed.pm, ets := s.tableZeroed.ets } :=
  (clearEndpoints_ok (clearEndpoints_endpoints hb)).1

theorem State.tableZeroed_bdt (n : Ep) (f : BdtField) : s.tableZeroed.bdt n f = 0 := by
  rw [(clearEndpoints_ok (clearEndpoints_endpoints hb)).2.1, if_pos (mem_endpoints n)]

theorem State.tableZeroed_etsOf (n : Ep) : s.tableZeroed.etsOf n = Ets.zero := by
  rw [(clearEndpoints_ok (clearEndpoints_endpoints hb)).2.2.1, if_pos (mem_endpoints n)]

theorem State.tableZeroed_pmByte (x : Nat) : s.tableZeroed.pmByte x = if x < 64 then 0 else s.pmByte x := by
  have hall : (∃ n ∈ Config.endpoints, x / 8 = n.val) ↔ x < 64 := by
    constructor
    · rintro ⟨n, -, hn⟩
      omega
    · intro hx
      exact ⟨⟨x / 8, by omega⟩, mem_endpoints _, rfl⟩
  rw [State.tableZeroed, foldl_zeroEndpoint_pmByte hb]
  simp only [hall]

end tableZeroed

/-! ### Endpoint 0 configured and armed (R190, steps 5 to 7) -/

/-- The record of endpoint 0 armed onto the Setup Packet record (R192). -/
def Params.setupRecord (p : Params) : Ets :=
  { packetSize := 64, txBuf := 0, txCursor := 0, txLen := 0, rxBuf := p.setupBufAddr, rxCursor := p.setupBufAddr,
    rxLen := 8 }

/-- `s` with the allocator created, endpoint 0 configured and its transfer recorded, not yet armed. -/
def State.setupRecorded (s : State) : State :=
  { (s.setEts 0 s.params.setupRecord).setEpr 0 ((s.eprOf 0 &&& 0xF9F0) ||| 0x0200) with
    pmaCursor := 64, created := true }

/-- Configuring endpoint 0 and recording the Setup Packet transfer, from a zeroed record. -/
theorem State.resetConfigured_recorded (hz : s.etsOf 0 = Ets.zero) :
    s.resetConfigured.setEts 0
      { s.resetConfigured.etsOf 0 with
        rxBuf := s.params.setupBufAddr, rxLen := Config.setupLen, rxCursor := s.params.setupBufAddr } =
      s.setupRecorded := by
  have hword : eprWriteWord (s.eprOf 0) (configWord (s.eprOf 0) 0 .control) = (s.eprOf 0 &&& 0xF9F0) ||| 0x0200 :=
    (eprWriteWord_configWord (s.eprOf 0) 0 .control).trans (BitVec.or_zero)
  have hcfg : s.resetConfigured = { (s.setEts 0 { s.etsOf 0 with packetSize := 64 }).setEpr 0
      ((s.eprOf 0 &&& 0xF9F0) ||| 0x0200) with pmaCursor := 64, created := true } := by
    rw [← hword]
    rfl
  rw [hcfg, hz]
  simp [State.setupRecorded, State.setEts, State.setEpr, State.etsOf, Ets.zero, Params.setupRecord, Config.setupLen]

theorem State.setupRecorded_etsOf (s : State) : s.setupRecorded.etsOf 0 = s.params.setupRecord :=
  State.setEts_etsOf_same s 0 s.params.setupRecord

theorem State.setupRecorded_fits (s : State) : s.setupRecorded.Fits (s.setupRecorded.etsOf 0).packetSize := by
  rw [s.setupRecorded_etsOf]
  show 64 + 2 * allocWords 64 ≤ Config.pmaSize
  decide

theorem State.setupRecorded_rxReady (hp : s.params.Ok) (hb : s.btable = 0) : s.setupRecorded.RxReady 0 := by
  refine ⟨State.descriptorOk_of_btable_zero hb 0, ?_, ?_, fun _ => s.setupRecorded_fits⟩
  · rw [s.setupRecorded_etsOf]
    rintro (hbuf | hsize)
    · exact hp.1 hbuf
    · cases hsize
  · rw [s.setupRecorded_etsOf]
    show 64 ≤ Config.maxPacketSize
    decide

/-- Arming endpoint 0 takes the first 64 bytes of the allocation region and advertises 64 bytes (R192). -/
theorem State.setupRecorded_armed (hz : s.bdt 0 .rxAddr = 0) :
    s.setupRecorded.armedReceive 0 =
      (({ s.setupRecorded with pmaCursor := 128 }.setBdt 0 .rxAddr 64).setBdt 0 .rxCount 0x8400).setEpr 0
        ((s.eprOf 0 &&& 0xC9F0) ||| 0x3200) := by
  have hr : s.setupRecorded.bdt 0 .rxAddr = 0 := hz
  rw [State.armedReceive, State.withRxBuffer_some hr s.setupRecorded_fits, s.setupRecorded_etsOf]
  have hword : ((s.eprOf 0 &&& 0xF9F0) ||| 0x0200) ||| 0x3000 = (s.eprOf 0 &&& 0xC9F0) ||| 0x3200 := by
    apply BitVec.eq_of_getLsbD_eq
    intro i hi
    interval_cases i <;> simp
  have hepr : s.setupRecorded.eprOf 0 = (s.eprOf 0 &&& 0xF9F0) ||| 0x0200 := State.setEpr_eprOf_same s 0 _
  have hblock : blockEnc s.params.setupRecord.packetSize = 0x8400 := show blockEnc 64 = 0x8400 by decide
  have hcursor : BitVec.ofNat 16 (s.setupRecorded.pmaCursor.toNat + 2 * allocWords s.params.setupRecord.packetSize) =
      (128 : Half) := show BitVec.ofNat 16 (64 + 2 * allocWords 64) = (128 : Half) by decide
  rw [hepr, hword, hblock, hcursor]
  rfl

theorem State.setupRecorded_armed_eq (hz : s.bdt 0 .rxAddr = 0) :
    s.setupRecorded.armedReceive 0 = { s with
      pmaCursor := 128
      created := true
      pm := (s.setupRecorded.armedReceive 0).pm
      ets := (s.setEts 0 s.params.setupRecord).ets
      epr := (s.setEpr 0 ((s.eprOf 0 &&& 0xC9F0) ||| 0x3200)).epr } := by
  rw [State.setupRecorded_armed hz]
  simp [State.setupRecorded, State.setEpr, State.setBdt, State.setPmByte]

/-- With BTABLE 0, arming endpoint 0 writes the buffer's address at 4 and the block encoding at 6, little-endian. -/
theorem State.setupRecorded_armed_pmByte (hb : s.btable = 0) (hz : s.bdt 0 .rxAddr = 0) (x : Nat) :
    (s.setupRecorded.armedReceive 0).pmByte x =
      if x = 6 then 0 else if x = 7 then 0x84 else if x = 4 then 0x40 else if x = 5 then 0 else s.pmByte x := by
  have hb' : s.setupRecorded.btable = 0 := hb
  rw [State.setupRecorded_armed hz, State.setEpr_pmByte, State.pmByte_setBdt, State.pmByte_setBdt, State.setBdt_btable, hb']
  rfl

/-! ### The whole sequence (R190) -/

/-- `s` with the registers of the first three steps written. -/
def State.registersReset (s : State) : State := { s with istr := 0, cra := 1, btable := 0 }

theorem registersReset_eq (s : State) : btableWrite Config.bdtBase { istrWrite 0 s with cra := 1 } = s.registersReset := by
  have hflags : istrWriteFlags s.istr 0 = 0 := BitVec.and_zero
  simp only [istrWrite, hflags]
  rfl

/-- `s` after the first seven steps. -/
def State.busResetArmed (s : State) : State := s.registersReset.tableZeroed.setupRecorded.armedReceive 0

/-- BUS_RESET completes: zeroing the table and arming endpoint 0 are the two parts that could stop. -/
theorem busResetOf_runs (hp : s.params.Ok) :
    busResetOf s = .ok { notifyApp codeBusReset 0 0 0 s.busResetArmed with cntr := 0xE600, daddr := 0x80 } := by
  rw [State.busResetArmed]
  have hclear := clearEndpoints_endpoints (s := s.registersReset) rfl
  have hzero := s.registersReset.tableZeroed_etsOf rfl 0
  have heq := s.registersReset.tableZeroed_eq rfl
  generalize s.registersReset.tableZeroed = u at *
  have hb : u.btable = 0 := by rw [heq]; rfl
  have hparams : u.params = s.params := by rw [heq]; rfl
  rw [← hparams] at hp
  have hreceive : receiveOf 0 u.params.setupBufAddr Config.setupLen u.resetConfigured =
      .ok (u.setupRecorded.armedReceive 0) := by
    rw [receiveOf_recorded hp.1 (bufferWraps_eq_false_iff.2 hp.2), State.resetConfigured_recorded hzero,
      beginReceive_arms (State.setupRecorded_rxReady hp hb)]
  show (clearEndpoints Config.endpoints (btableWrite Config.bdtBase { istrWrite 0 s with cra := 1 }) >>= _) = _
  rw [registersReset_eq, hclear, Eff.ok_bind]
  show (receiveOf 0 u.params.setupBufAddr Config.setupLen u.resetConfigured >>= _) = _
  rw [hreceive]
  rfl

theorem State.busResetArmed_eq (s : State) : s.busResetArmed = { s with
    istr := 0
    cra := 1
    btable := 0
    pm := s.busResetArmed.pm
    ets := (s.registersReset.tableZeroed.setEts 0 s.params.setupRecord).ets
    pmaCursor := 128
    epr := (s.setEpr 0 ((s.eprOf 0 &&& 0xC9F0) ||| 0x3200)).epr
    created := true } := by
  have heq := s.registersReset.tableZeroed_eq rfl
  have harmed := State.setupRecorded_armed_eq (s.registersReset.tableZeroed_bdt rfl 0 .rxAddr)
  rw [State.busResetArmed]
  generalize s.registersReset.tableZeroed = u at *
  rw [harmed, heq]
  rfl

theorem State.busResetArmed_ets (s : State) :
    s.busResetArmed.ets = (s.registersReset.tableZeroed.setEts 0 s.params.setupRecord).ets := by
  rw [State.busResetArmed_eq]

theorem State.busResetArmed_etsOf_zero (s : State) : s.busResetArmed.etsOf 0 = s.params.setupRecord := by
  rw [State.etsOf, State.busResetArmed_ets]
  exact State.setEts_etsOf_same _ 0 _

theorem State.busResetArmed_etsOf_other (s : State) {n : Ep} (hn : n ≠ 0) : s.busResetArmed.etsOf n = Ets.zero := by
  rw [State.etsOf, State.busResetArmed_ets]
  exact (State.setEts_etsOf_other _ _ hn).trans (s.registersReset.tableZeroed_etsOf rfl n)

theorem State.busResetArmed_pmByte (s : State) (x : Nat) :
    s.busResetArmed.pmByte x =
      if x = 4 then 0x40 else if x = 7 then 0x84 else if x < 64 then 0 else s.pmByte x := by
  have hb : s.registersReset.tableZeroed.btable = 0 := by rw [State.tableZeroed_eq rfl]; rfl
  have hkept : s.registersReset.pmByte x = s.pmByte x := rfl
  rw [State.busResetArmed, State.setupRecorded_armed_pmByte hb (State.tableZeroed_bdt rfl 0 .rxAddr),
    State.tableZeroed_pmByte rfl, hkept]
  grind

/-- Settles O37: BUS_RESET completes in the armed state with its record appended and CNTR and DADDR assigned. -/
theorem busResetEffect : Obligations.BusResetEffect := by
  intro s hp
  have hrun := busResetOf_runs hp
  have heq := s.busResetArmed_eq
  have hzero := s.busResetArmed_etsOf_zero
  have hother := fun n => s.busResetArmed_etsOf_other (n := n)
  have hpm := s.busResetArmed_pmByte
  generalize s.busResetArmed = u at *
  refine ⟨_, congrArg settle hrun, ?_, hzero, hother, hpm⟩
  rw [heq]
  rfl

/-! ### The table and the endpoint registers afterwards (R191, R192) -/

/-- The bytes of the table after a bus reset (R192). -/
def resetTableByte (x : Nat) : Byte := if x = 4 then 0x40 else if x = 7 then 0x84 else 0

/-- The descriptor words after a bus reset (R192). -/
def resetTableWord (n : Ep) (f : BdtField) : Half :=
  if n = 0 then
    match f with
    | .rxAddr => 64
    | .rxCount => 0x8400
    | _ => 0
  else 0

theorem resetTableByte_pair (n : Ep) (f : BdtField) :
    resetTableByte (bdtOffset 0 n f + 1) ++ resetTableByte (bdtOffset 0 n f) = resetTableWord n f := by
  cases f <;> revert n <;> decide

/-- The descriptors are the words of the table's bytes: all of them lie below 64. -/
theorem State.bdt_eq_resetTableWord (hb : t.btable = 0)
    (hpm : ∀ x, t.pmByte x = if x = 4 then 0x40 else if x = 7 then 0x84 else if x < 64 then 0 else s.pmByte x) (n : Ep)
    (f : BdtField) : t.bdt n f = resetTableWord n f := by
  have htable : ∀ x, x < 64 → t.pmByte x = resetTableByte x := fun x hx => by rw [hpm, resetTableByte, if_pos hx]
  have hlt : bdtOffset 0 n f + 1 < 64 := by
    have := bdtFieldOffset_lt f
    simp only [bdtOffset, show (0 : Half).toNat = 0 from rfl]
    omega
  rw [State.bdt, State.pmHalf, hb, htable _ hlt, htable _ (by omega), resetTableByte_pair]

theorem sieReset_eprOf (s : State) (n : Ep) : (sieReset s).eprOf n = 0 := by
  simp [sieReset, State.eprOf]

/-- Settles O38: it is BUS_RESET's effect from a state whose endpoint registers are all 0, its table read as words. -/
theorem busResetPostState : Obligations.BusResetPostState := by
  intro s hp
  obtain ⟨t, hrun, heq, hets0, hets, hpm⟩ := busResetEffect (sieReset s) hp
  have hbdt := State.bdt_eq_resetTableWord (by rw [heq]) hpm
  have hcursor : t.pmaCursor = 128 := by rw [heq]
  have hepr0 : t.eprOf 0 = 0x3200 := by
    rw [heq]
    refine (State.setEpr_eprOf_same _ 0 _).trans ?_
    rw [sieReset_eprOf]
    rfl
  have hepr : ∀ n : Ep, n ≠ 0 → t.eprOf n = 0 := fun n hn => by
    rw [heq]
    exact (State.setEpr_eprOf_other _ _ hn).trans (sieReset_eprOf s n)
  have hregs : t.istr = 0 ∧ t.btable = 0 ∧ t.cra = 1 ∧ t.cntr = 0xE600 ∧ t.daddr = 0x80 ∧
      t.notes = s.notes ++ [0x0100000000000000] := by
    rw [heq]
    exact ⟨rfl, rfl, rfl, rfl, rfl, rfl⟩
  refine ⟨t, hrun, ?_⟩
  rw [hets0]
  exact ⟨hcursor, rfl, rfl, rfl, rfl, rfl, rfl, rfl, hets, hbdt 0 .txAddr, hbdt 0 .txCount, hbdt 0 .rxAddr,
    hbdt 0 .rxCount, fun n hn f => (hbdt n f).trans (if_neg hn), fun x hx => by rw [hpm, if_pos hx], hepr0, hepr, hregs⟩

/-- The type, the address and the receive status of EPR[0] after a bus reset do not depend on the register before (R191). -/
theorem resetWord_fields (w : Half) : ((w &&& 0xC9F0) ||| 0x3200) &&& 0x360F = 0x3200 := by
  rw [BitVec.and_or_distrib_right, BitVec.and_assoc]
  exact (congrArg (· ||| _) BitVec.and_zero).trans BitVec.zero_or

/-- Settles O39: what BUS_RESET leaves in these parts depends on the parameters alone, and after SIE_RESET the bits of
EPR[0] it keeps are 0. -/
theorem busResetIdempotent : Obligations.BusResetIdempotent := by
  intro s q hp hpq
  have hq : q.params.Ok := hpq ▸ hp
  constructor
  · obtain ⟨t, htrun, hteq, htets0, htets, htpm⟩ := busResetEffect s hp
    obtain ⟨u, hurun, hueq, huets0, huets, hupm⟩ := busResetEffect q hq
    have hets : t.ets = u.ets := State.ets_ext fun n => by
      by_cases hn : n = 0
      · subst hn
        exact htets0.trans (hpq ▸ huets0.symm)
      · exact (htets n hn).trans (huets n hn).symm
    have htbdt := State.bdt_eq_resetTableWord (by rw [hteq]) htpm
    have hubdt := State.bdt_eq_resetTableWord (by rw [hueq]) hupm
    have hcursor : t.pmaCursor = u.pmaCursor := by rw [hteq, hueq]
    have hregs : t.btable = u.btable ∧ t.cra = u.cra ∧ t.cntr = u.cntr ∧ t.daddr = u.daddr ∧ t.istr = u.istr ∧
        t.eprOf 0 &&& 0x360F = u.eprOf 0 &&& 0x360F := by
      rw [hteq, hueq]
      refine ⟨rfl, rfl, rfl, rfl, rfl, ?_⟩
      show (s.setEpr 0 _).eprOf 0 &&& 0x360F = (q.setEpr 0 _).eprOf 0 &&& 0x360F
      rw [State.setEpr_eprOf_same, State.setEpr_eprOf_same, resetWord_fields, resetWord_fields]
    exact ⟨t, u, htrun, hurun, hcursor, hets, fun n f => (htbdt n f).trans (hubdt n f).symm, hregs⟩
  · obtain ⟨t, htrun, hteq, -⟩ := busResetEffect (sieReset s) hp
    obtain ⟨u, hurun, hueq, -⟩ := busResetEffect (sieReset q) hq
    refine ⟨t, u, htrun, hurun, ?_⟩
    rw [hteq, hueq]
    rfl

end Sys2Proof.Machine
end

section
/-! PROOFS. The dispatcher (`46_dispatcher.md`): the flag handlers and DISPATCH_ENTRY (R201 to R208), the two branches of
DISPATCH_EP (R210, R211), and the endpoint loop (R209, R212). -/

namespace Sys2Proof.Machine

variable {n : Ep} {val : Half} {s t u : State}

/-! ### The flag handlers and DISPATCH_ENTRY (R201 to R208) -/

theorem istrWrite_of_noFlags (w : Half) (h : s.istr = 0) : istrWrite w s = s := by
  have hflags : istrWriteFlags s.istr w = s.istr := by rw [istrWriteFlags, h]; exact BitVec.zero_and
  rw [istrWrite, hflags]

/-- The RESET handler's clear of its flag changes nothing: BUS_RESET has cleared every stored flag (R190, R202). -/
theorem handleReset_runs (hp : s.params.Ok) : ∃ t, busResetOf s = .ok t ∧ handleReset s = .ok t ∧ t.istr = 0 := by
  obtain ⟨t, hrun, heq, -⟩ := busResetEffect s hp
  have hbus : busResetOf s = .ok t := settle_next.1 hrun
  have hflags : t.istr = 0 := by rw [heq]
  refine ⟨t, hbus, ?_, hflags⟩
  rw [handleReset, hbus, Eff.ok_bind, istrWrite_of_noFlags _ hflags, Eff.pure_eq]

/-- Settles O41: the RESET handler is BUS_RESET, and each other handler is its writes. -/
theorem flagHandlers : Obligations.FlagHandlers := by
  intro s
  refine ⟨fun hp => ?_, rfl, rfl, rfl, rfl, rfl, rfl⟩
  obtain ⟨t, hbus, hreset, hflags⟩ := handleReset_runs hp
  exact ⟨t, settle_next.2 hbus, settle_next.2 hreset, hflags⟩

theorem execAll_cons_of_next {i : Instr} (h : exec i s = .next t) (l : List Instr) :
    execAll (i :: l) s = execAll l t := by
  rw [execAll, h]

/-- The operations selected from a table, run in order, begin with the first one, where its bit is set. -/
theorem execAll_selected_cons {i : Instr} {f : State → State} (h : ∀ s, exec i s = .next (f s)) (x : Half) (k : Nat)
    (table : List (Nat × Instr)) (s : State) :
    execAll (selected x ((k, i) :: table)) s = execAll (selected x table) (whenFlag (x.getLsbD k) f s) := by
  rw [selected_cons]
  cases x.getLsbD k with
  | false => rfl
  | true => exact execAll_cons_of_next (h s) _

/-- The handlers of a sample after the RESET handler, as operations run in order. -/
theorem execAll_flagHandlers (x : Half) (s : State) :
    execAll (selected x statusHandlers.tail) s = .next (runFlagHandlers x s) := by
  rw [statusHandlers, List.tail_cons, execAll_selected_cons (i := .susp) (f := handleSusp) fun _ => rfl,
    execAll_selected_cons (i := .wkup) (f := handleWkup) fun _ => rfl,
    execAll_selected_cons (i := .err) (f := handleErr) fun _ => rfl,
    execAll_selected_cons (i := .sof) (f := handleSof) fun _ => rfl,
    execAll_selected_cons (i := .esof) (f := handleEsof) fun _ => rfl,
    execAll_selected_cons (i := .pmaovr) (f := handlePmaovr) fun _ => rfl]
  rfl

/-- DISPATCH_ENTRY: the RESET handler where its flag is sampled, then the other handlers and the phase (R201). -/
theorem dispatchEntryOf_eq (s : State) : dispatchEntryOf s =
    (if s.istrRead.getLsbD 10 = true then handleReset s else .ok s) >>= fun u =>
      .ok (enterDispatcher (runFlagHandlers s.istrRead u)) := by
  unfold dispatchEntryOf
  dsimp only
  split <;> rfl

/-- Settles O40: the RESET handler completes where it is selected, and the other handlers always do. -/
theorem dispatchEntryRunsHandlers : Obligations.DispatchEntryRunsHandlers := by
  intro s hp
  have hhandlers := execAll_flagHandlers s.istrRead
  show ∃ u, _ ∧ settle (dispatchEntryOf s) = _
  rw [dispatchEntryOf_eq, decodeStatus_eq, statusHandlers, selected_cons]
  split
  · next hx =>
    obtain ⟨v, -, hreset, -⟩ := handleReset_runs (hp hx)
    rw [hreset]
    exact ⟨_, (execAll_cons_of_next (i := .reset) (settle_next.2 hreset) _).trans (hhandlers v), rfl⟩
  · exact ⟨_, hhandlers s, rfl⟩

/-! ### RX_COMPLETE (R210) -/

/-- RX_COMPLETE by what END_PACKET_RECEIVE leaves. -/
theorem rxCompleteOf_after (hu : endReceive n s = .ok u) :
    rxCompleteOf n val s =
      if (u.etsOf n).rxCursor = Config.cursorNone then
        if n = 0 then
          if val.getLsbD 11 = true then ctlSetup (clearCtrRxOf n val u) else .ok (ctlOut (clearCtrRxOf n val u))
        else .ok (notifyApp codeEndpointReceived (epByte n) (u.etsOf n).rxBuf (u.etsOf n).rxLen (clearCtrRxOf n val u))
      else .ok (clearCtrRxOf n val u) := by
  rw [rxCompleteOf, hu, Eff.ok_bind]
  rfl

/-- What RX_COMPLETE can do after END_PACKET_RECEIVE and ClearCtrRx: nothing, one record, or CTL_EVENT(SETUP). -/
theorem rxCompleteOf_ok (h : rxCompleteOf n val s = .ok t) : ∃ u, endReceive n s = .ok u ∧
    (t = clearCtrRxOf n val u ∨ (∃ code ep b l, t = notifyApp code ep b l (clearCtrRxOf n val u)) ∨
      (n = 0 ∧ ctlSetup (clearCtrRxOf n val u) = .ok t)) := by
  obtain ⟨u, hu, -⟩ := Eff.bind_ok h
  refine ⟨u, hu, ?_⟩
  rw [rxCompleteOf_after hu] at h
  split at h
  · split at h
    · next hn =>
      split at h
      · exact .inr (.inr ⟨hn, h⟩)
      · cases h; exact .inr (.inl ⟨_, _, _, _, rfl⟩)
    · cases h; exact .inr (.inl ⟨_, _, _, _, rfl⟩)
  · cases h; exact .inl rfl

theorem clearCtrRxOf_eq (n : Ep) (val : Half) (s : State) : clearCtrRxOf n val s =
    s.setEpr n ((s.eprOf n &&& 0x7870) ||| (val &&& 0x070F) ||| (s.eprOf n &&& val &&& 0x0080)) :=
  congrArg (s.setEpr n) (eprWriteWord_clearCtrRx _ val)

/-- CTL_EVENT(SETUP) completes on a state of which endpoint 0 can be armed onto the Setup Packet record. -/
theorem ctlSetup_runs (h : s.SetupReady) : ∃ t, ctlSetup s = .ok t := by
  obtain ⟨hp, hd, hsize⟩ := h
  rw [ctlSetup, receiveOf_recorded hp.1 (bufferWraps_eq_false_iff.2 hp.2)]
  exact beginReceive_runs (by rw [State.setEts_etsOf_same]; exact hsize) hd

theorem State.SetupReady.congr (h : s.SetupReady) (hparams : t.params = s.params) (hb : t.btable = s.btable)
    (hsize : (t.etsOf 0).packetSize = (s.etsOf 0).packetSize) : t.SetupReady := by
  obtain ⟨hp, hd, hmax⟩ := h
  exact ⟨hparams ▸ hp, hd.congr hb, hsize ▸ hmax⟩

/-- END_PACKET_RECEIVE changes no more of the record than the receive cursor. -/
theorem endReceive_etsOf (h : endReceive n s = .ok t) :
    t.etsOf n = { s.etsOf n with rxCursor := (t.etsOf n).rxCursor } := by
  rcases endReceive_ok h with ⟨-, rfl⟩ | ⟨-, u, -, -, ⟨-, rfl⟩ | ⟨-, hbegin⟩⟩
  · rfl
  · rw [State.setEts_etsOf_same]
  · rw [State.etsOf, beginReceive_ets hbegin, ← State.etsOf, State.setEts_etsOf_same]

/-- RX_COMPLETE completes: its END_PACKET_RECEIVE does, and so does the CTL_EVENT(SETUP) it may run. -/
theorem rxCompleteOf_runs (h : s.RxEndReady n) (hsetup : n = 0 → val.getLsbD 11 = true → s.SetupReady) :
    ∃ t, rxCompleteOf n val s = .ok t := by
  obtain ⟨u, hu⟩ := endReceive_runs h
  rw [rxCompleteOf_after hu]
  split_ifs with hc hn hval
  · have hframe := (endReceive_step hu).eq
    have hsize : (u.etsOf n).packetSize = (s.etsOf n).packetSize := by rw [endReceive_etsOf hu]
    exact ctlSetup_runs ((hsetup hn hval).congr (by rw [hframe]; rfl) (by rw [hframe]; rfl) (hn ▸ hsize))
  all_goals exact ⟨_, rfl⟩

/-- Settles O46: one equation per case of the cursor END_PACKET_RECEIVE leaves, the endpoint and the sample. -/
theorem rxCompleteEffect : Obligations.RxCompleteEffect := by
  intro n val s h hsetup
  obtain ⟨u, hu⟩ := endReceive_runs h
  obtain ⟨t, ht⟩ := rxCompleteOf_runs (val := val) h hsetup
  have hafter : exec (.rxComplete n val) s = _ := congrArg settle (rxCompleteOf_after (val := val) hu)
  rw [clearCtrRxOf_eq] at hafter
  refine ⟨u, settle_next.2 hu, fun (hc : _ ≠ Config.cursorNone) => ?_, fun (hc : _ = Config.cursorNone) hn => ?_,
    fun (hc : _ = Config.cursorNone) hn hval => ?_, fun (hc : _ = Config.cursorNone) hn hval => ?_, t,
    settle_next.2 ht⟩
  · rw [hafter, if_neg hc, settle_ok]
  · rw [hafter, if_pos hc, if_neg hn]
    rfl
  · rw [hafter, if_pos hc, if_pos hn, if_neg (Bool.eq_false_iff.1 hval)]
    rfl
  · rw [hafter, if_pos hc, if_pos hn, if_pos hval]
    rfl

/-! ### TX_COMPLETE (R211) -/

/-- TX_COMPLETE by what SEND_NEXT_PACKET leaves. -/
theorem txCompleteOf_after (hu : sendNext n s = .ok u) :
    txCompleteOf n val s = .ok (
      if (s.etsOf n).txCursor = Config.cursorNone then
        if n = 0 then ctlIn (clearCtrTxOf n val u)
        else notifyApp codeEndpointSent (epByte n) (u.etsOf n).txBuf (u.etsOf n).txLen (clearCtrTxOf n val u)
      else clearCtrTxOf n val u) := by
  rw [txCompleteOf, hu, Eff.ok_bind]
  split_ifs <;> rfl

/-- What TX_COMPLETE can do after SEND_NEXT_PACKET and ClearCtrTx: nothing, or one record. -/
theorem txCompleteOf_ok (h : txCompleteOf n val s = .ok t) : ∃ u, sendNext n s = .ok u ∧
    (t = clearCtrTxOf n val u ∨ ∃ code ep b l, t = notifyApp code ep b l (clearCtrTxOf n val u)) := by
  obtain ⟨u, hu, -⟩ := Eff.bind_ok h
  refine ⟨u, hu, ?_⟩
  rw [txCompleteOf_after hu] at h
  cases h
  split_ifs
  · exact .inr ⟨_, _, _, _, rfl⟩
  · exact .inr ⟨_, _, _, _, rfl⟩
  · exact .inl rfl

theorem clearCtrTxOf_eq (n : Ep) (val : Half) (s : State) : clearCtrTxOf n val s =
    s.setEpr n ((s.eprOf n &&& 0x7870) ||| (val &&& 0x070F) ||| (s.eprOf n &&& val &&& 0x8000)) :=
  congrArg (s.setEpr n) (eprWriteWord_clearCtrTx _ val)

theorem sendNext_runs (h : s.TxContinueReady n) : ∃ t, sendNext n s = .ok t := by
  obtain ⟨hn, hsize⟩ | hready := h
  · exact ⟨s, sendNext_nothing hn hsize⟩
  · obtain ⟨t, ht, -⟩ := sendNext_queues hready
    exact ⟨t, ht⟩

theorem txCompleteOf_runs (h : s.TxContinueReady n) : ∃ t, txCompleteOf n val s = .ok t := by
  obtain ⟨u, hu⟩ := sendNext_runs h
  exact ⟨_, txCompleteOf_after hu⟩

/-- Settles O47: SEND_NEXT_PACKET's case decides TX_COMPLETE's. -/
theorem txCompleteEffect : Obligations.TxCompleteEffect := by
  intro n val s e cleared
  have hcleared (q : State) : clearCtrTxOf n val q = cleared q := clearCtrTxOf_eq n val q
  have hidle (hc : (s.etsOf n).txCursor = Config.cursorNone) (hsize : e.packetSize.toNat ≤ 1023) :
      exec (.txComplete n val) s = _ :=
    congrArg settle (txCompleteOf_after (val := val) (sendNext_nothing (.inl hc) hsize))
  rw [hcleared] at hidle
  refine ⟨fun (hc : _ = Config.cursorNone) hsize hn => ?_, fun (hc : _ = Config.cursorNone) hsize hn => ?_,
    fun hc hready => ?_, fun hc hzero => ?_, fun hsize => ?_⟩
  · rw [hidle hc hsize, if_pos hc, if_neg hn]
    rfl
  · subst hn
    rw [hidle hc hsize, if_pos hc, if_pos rfl]
    rfl
  · obtain ⟨u, hu, hq⟩ := sendNext_queues hready
    exact ⟨u, settle_next.2 hu, hq, hcleared u ▸ exec_txComplete_active val hc hu⟩
  · have hsend : sendNext n s = .ok s :=
      sendNext_nothing (.inr hzero) (by rw [show (s.etsOf n).packetSize = 0 from hzero]; exact Nat.zero_le _)
    exact hcleared s ▸ exec_txComplete_active val hc hsend
  · show settle (txCompleteOf n val s) = _
    rw [txCompleteOf, sendNext_oversize hsize, Eff.refuse_bind, settle_refuse]

/-! ### The completion flags of the endpoint served (R136, R209) -/

/-- The completion flags of endpoint `n` are the same in both states. -/
def SameFlags (n : Ep) (s t : State) : Prop :=
  (t.eprOf n).getLsbD 15 = (s.eprOf n).getLsbD 15 ∧ (t.eprOf n).getLsbD 7 = (s.eprOf n).getLsbD 7

theorem SameFlags.refl (n : Ep) (s : State) : SameFlags n s s := ⟨rfl, rfl⟩

theorem SameFlags.trans (h : SameFlags n s t) (g : SameFlags n t u) : SameFlags n s u :=
  ⟨g.1.trans h.1, g.2.trans h.2⟩

theorem SameFlags.setEts (n : Ep) (s : State) (e : Ets) : SameFlags n s (s.setEts n e) := ⟨rfl, rfl⟩

theorem SameFlags.notify (n : Ep) (s : State) (code ep : BitVec 8) (b : Word) (l : Half) :
    SameFlags n s (notifyApp code ep b l s) := ⟨rfl, rfl⟩

/-- Setting bits other than the completion flags leaves them. -/
theorem SameFlags.of_or {w : Half} (h : t.eprOf n = s.eprOf n ||| w)
    (hw : w.getLsbD 15 = false ∧ w.getLsbD 7 = false) : SameFlags n s t := by
  rw [SameFlags, h, BitVec.getLsbD_or, BitVec.getLsbD_or, hw.1, hw.2, Bool.or_false, Bool.or_false]
  exact ⟨rfl, rfl⟩

/-- Clearing bits other than the completion flags leaves them. -/
theorem SameFlags.of_and {w : Half} (h : t.eprOf n = s.eprOf n &&& w)
    (hw : w.getLsbD 15 = true ∧ w.getLsbD 7 = true) : SameFlags n s t := by
  rw [SameFlags, h, BitVec.getLsbD_and, BitVec.getLsbD_and, hw.1, hw.2, Bool.and_true, Bool.and_true]
  exact ⟨rfl, rfl⟩

theorem sendNext_sameFlags (h : sendNext n s = .ok t) : SameFlags n s t := by
  rcases sendNext_ok h with ⟨-, rfl⟩ | ⟨-, -, -, rfl⟩ | ⟨-, -, hq, -⟩
  · exact SameFlags.refl n t
  · exact SameFlags.refl n s
  · exact SameFlags.of_or (by rw [hq.1]; exact State.setEpr_eprOf_same s n _) ⟨rfl, rfl⟩

theorem beginReceive_sameFlags (h : beginReceive n s = .ok t) : SameFlags n s t := by
  rcases beginReceive_ok h with ⟨-, rfl⟩ | ⟨-, -, -, rfl⟩ | ⟨-, -, rfl, -⟩
  · exact SameFlags.refl n t
  · exact SameFlags.refl n s
  · exact SameFlags.of_or (State.setEpr_eprOf_same _ n _) ⟨rfl, rfl⟩

theorem endReceive_sameFlags (h : endReceive n s = .ok t) : SameFlags n s t := by
  rcases endReceive_ok h with ⟨-, rfl⟩ | ⟨-, u, hu, -, hend⟩
  · exact SameFlags.refl n t
  · have hdelivered : SameFlags n s u := by rw [hu.1]; exact SameFlags.refl n s
    rcases hend with ⟨-, rfl⟩ | ⟨-, hbegin⟩
    · exact hdelivered.trans (SameFlags.setEts n u _)
    · exact (hdelivered.trans (SameFlags.setEts n u _)).trans (beginReceive_sameFlags hbegin)

theorem receiveOf_sameFlags {b : Word} {l : Half} (h : receiveOf n b l s = .ok t) : SameFlags n s t := by
  unfold receiveOf at h
  split at h
  · cases h
    rw [cancelRx, setRxDisabled_eq]
    exact SameFlags.of_and (State.setEpr_eprOf_same _ n _) ⟨rfl, rfl⟩
  · split at h
    · cases h
    · exact (SameFlags.setEts n s _).trans (beginReceive_sameFlags h)

theorem ctlSetup_sameFlags (h : ctlSetup s = .ok t) : SameFlags 0 s t :=
  (SameFlags.notify 0 s _ _ _ _).trans (receiveOf_sameFlags h)

theorem clearCtrRxOf_flags (n : Ep) (val : Half) (s : State) : ((clearCtrRxOf n val s).eprOf n).getLsbD 15 = false ∧
    ((clearCtrRxOf n val s).eprOf n).getLsbD 7 = ((s.eprOf n).getLsbD 7 && val.getLsbD 7) := by
  rw [clearCtrRxOf_eq, State.setEpr_eprOf_same]
  simp

theorem clearCtrTxOf_flags (n : Ep) (val : Half) (s : State) :
    ((clearCtrTxOf n val s).eprOf n).getLsbD 15 = ((s.eprOf n).getLsbD 15 && val.getLsbD 15) ∧
    ((clearCtrTxOf n val s).eprOf n).getLsbD 7 = false := by
  rw [clearCtrTxOf_eq, State.setEpr_eprOf_same]
  simp

/-- RX_COMPLETE clears CTR_RX, and CTR_TX only where the sample had it 0. -/
theorem rxComplete_flags (h : rxCompleteOf n val s = .ok t) :
    (t.eprOf n).getLsbD 15 = false ∧ (t.eprOf n).getLsbD 7 = ((s.eprOf n).getLsbD 7 && val.getLsbD 7) := by
  obtain ⟨u, hu, ht⟩ := rxCompleteOf_ok h
  have hlast : SameFlags n (clearCtrRxOf n val u) t := by
    rcases ht with rfl | ⟨_, _, _, _, rfl⟩ | ⟨rfl, hsetup⟩
    · exact SameFlags.refl n _
    · exact SameFlags.notify n _ _ _ _ _
    · exact ctlSetup_sameFlags hsetup
  obtain ⟨hrx, htx⟩ := clearCtrRxOf_flags n val u
  exact ⟨hlast.1.trans hrx, by rw [hlast.2, htx, (endReceive_sameFlags hu).2]⟩

/-- TX_COMPLETE clears CTR_TX, and CTR_RX only where the sample had it 0. -/
theorem txComplete_flags (h : txCompleteOf n val s = .ok t) :
    (t.eprOf n).getLsbD 15 = ((s.eprOf n).getLsbD 15 && val.getLsbD 15) ∧ (t.eprOf n).getLsbD 7 = false := by
  obtain ⟨u, hu, ht⟩ := txCompleteOf_ok h
  have hlast : SameFlags n (clearCtrTxOf n val u) t := by
    rcases ht with rfl | ⟨_, _, _, _, rfl⟩
    · exact SameFlags.refl n _
    · exact SameFlags.notify n _ _ _ _ _
  obtain ⟨hrx, htx⟩ := clearCtrTxOf_flags n val u
  exact ⟨by rw [hlast.1, hrx, (sendNext_sameFlags hu).1], hlast.2.trans htx⟩

/-! ### What RX_COMPLETE leaves of the transmit direction -/

/-- The same in both states: what the transmit direction of endpoint `n` reads (BTABLE, the allocator's cursor, its buffer
address, the record but its receive fields), and the receive buffer's address, which keeps the next allocation away. -/
structure TxKept (n : Ep) (s t : State) : Prop where
  btable : t.btable = s.btable
  cursor : t.pmaCursor = s.pmaCursor
  txAddr : t.bdt n .txAddr = s.bdt n .txAddr
  rxAddr : t.bdt n .rxAddr = s.bdt n .rxAddr
  record : t.etsOf n =
    { s.etsOf n with rxBuf := (t.etsOf n).rxBuf, rxCursor := (t.etsOf n).rxCursor, rxLen := (t.etsOf n).rxLen }

theorem TxKept.refl (n : Ep) (s : State) : TxKept n s s := ⟨rfl, rfl, rfl, rfl, rfl⟩

theorem TxKept.trans (h : TxKept n s t) (g : TxKept n t u) : TxKept n s u where
  btable := g.btable.trans h.btable
  cursor := g.cursor.trans h.cursor
  txAddr := g.txAddr.trans h.txAddr
  rxAddr := g.rxAddr.trans h.rxAddr
  record := by rw [g.record, h.record]

theorem TxKept.setEpr (n : Ep) (s : State) (w : Half) : TxKept n s (s.setEpr n w) := ⟨rfl, rfl, rfl, rfl, rfl⟩

theorem TxKept.setRx (n : Ep) (s : State) (b c : Word) (l : Half) :
    TxKept n s (s.setEts n { s.etsOf n with rxBuf := b, rxCursor := c, rxLen := l }) :=
  ⟨rfl, rfl, rfl, rfl, by rw [State.setEts_etsOf_same]⟩

theorem TxKept.notify (n : Ep) (s : State) (code ep : BitVec 8) (b : Word) (l : Half) :
    TxKept n s (notifyApp code ep b l s) := ⟨rfl, rfl, rfl, rfl, rfl⟩

theorem TxKept.setRxCount (n : Ep) (s : State) (v : Half) : TxKept n s (s.setBdt n .rxCount v) :=
  ⟨rfl, rfl, State.bdt_setBdt_other s v (.inr nofun), State.bdt_setBdt_other s v (.inr nofun), rfl⟩

theorem Delivered.txKept (h : s.Delivered n t) : TxKept n s t := by
  rw [h.1]
  exact ⟨rfl, rfl, rfl, rfl, rfl⟩

/-- With a receive buffer, BEGIN_PACKET_RECEIVE allocates nothing. -/
theorem beginReceive_txKept (hz : s.bdt n .rxAddr ≠ 0) (h : beginReceive n s = .ok t) : TxKept n s t := by
  rcases beginReceive_ok h with ⟨-, rfl⟩ | ⟨-, h0, -, -⟩ | ⟨-, -, rfl, -⟩
  · exact TxKept.refl n t
  · exact absurd h0 hz
  · rw [State.armedReceive, State.withRxBuffer_none hz]
    exact (TxKept.setRxCount n s _).trans (TxKept.setEpr n _ _)

theorem endReceive_txKept (hz : s.bdt n .rxAddr ≠ 0) (h : endReceive n s = .ok t) : TxKept n s t := by
  rcases endReceive_ok h with ⟨-, rfl⟩ | ⟨-, u, hu, -, hend⟩
  · exact TxKept.refl n t
  · have hdelivered := Delivered.txKept hu
    have hets : u.etsOf n = s.etsOf n := by rw [hu.1]; rfl
    have hset (c : Word) : TxKept n s (u.setEts n { s.etsOf n with rxCursor := c }) :=
      hdelivered.trans (hets ▸ TxKept.setRx n u _ c _)
    rcases hend with ⟨-, rfl⟩ | ⟨-, hbegin⟩
    · exact hset _
    · exact (hset _).trans (beginReceive_txKept ((hset _).rxAddr ▸ hz) hbegin)

theorem receiveOf_txKept {b : Word} {l : Half} (hz : s.bdt n .rxAddr ≠ 0) (h : receiveOf n b l s = .ok t) :
    TxKept n s t := by
  unfold receiveOf at h
  split at h
  · cases h
    rw [cancelRx, setRxDisabled_eq]
    exact (TxKept.setRx n s _ _ _).trans (TxKept.setEpr n _ _)
  · split at h
    · cases h
    · exact (TxKept.setRx n s _ _ _).trans (beginReceive_txKept hz h)

theorem rxComplete_txKept (hz : s.bdt n .rxAddr ≠ 0) (h : rxCompleteOf n val s = .ok t) : TxKept n s t := by
  obtain ⟨u, hu, ht⟩ := rxCompleteOf_ok h
  have hcleared : TxKept n s (clearCtrRxOf n val u) := (endReceive_txKept hz hu).trans (TxKept.setEpr n u _)
  rcases ht with rfl | ⟨_, _, _, _, rfl⟩ | ⟨rfl, hsetup⟩
  · exact hcleared
  · exact hcleared.trans (TxKept.notify n _ _ _ _ _)
  · exact (hcleared.trans (TxKept.notify 0 _ _ _ _ _)).trans (receiveOf_txKept (hcleared.rxAddr ▸ hz) hsetup)

theorem State.withTxBuffer_txAddr (s : State) (n : Ep) :
    (s.withTxBuffer n).bdt n .txAddr = if s.bdt n .txAddr = 0 then s.pmaCursor else s.bdt n .txAddr := by
  unfold State.withTxBuffer
  split
  · exact State.bdt_setBdt_same _ n .txAddr _
  · rfl

/-- Whether the transmit direction can be continued depends on what `TxKept` keeps. -/
theorem TxKept.txContinueReady (k : TxKept n s t) (h : s.TxContinueReady n) : t.TxContinueReady n := by
  have hfits (l : Half) : s.Fits l → t.Fits l := by
    unfold State.Fits
    rw [k.cursor]
    exact id
  rw [State.TxContinueReady, State.TxReady, State.withTxBuffer_txAddr, k.record, k.txAddr, k.cursor,
    ← State.withTxBuffer_txAddr]
  obtain hn | ⟨hd, hactive, hsize, hroom, hcopy⟩ := h
  · exact .inl hn
  · exact .inr ⟨hd.congr k.btable, hactive, hsize, fun hz => hfits _ (hroom hz), hcopy⟩

/-! ### The endpoint loop (R209, R212) -/

/-- Settles O42: the exit writes the phase alone. -/
theorem dispatchExitEffect : Obligations.DispatchExitEffect := fun _ => rfl

/-- An operation first and a list of operations then are run in that order, a stop of the first one included. -/
theorem settle_bind_execAll {i : Instr} {x : Eff State} {f : State → Eff State} {l : List Instr}
    (hi : exec i s = settle x) (hl : ∀ t, settle (f t) = execAll l t) : settle (x >>= f) = execAll (i :: l) s := by
  cases x with
  | ok t => exact (hl t).trans (execAll_cons_of_next hi l).symm
  | error r =>
    rw [execAll, hi]
    cases r <;> rfl

/-- DISPATCH_EP: the receive branch where its flag is sampled, then the transmit branch (R209). -/
theorem dispatchEpOf_eq (s : State) : dispatchEpOf s =
    (if (s.eprOf s.epId).getLsbD 15 = true then rxCompleteOf s.epId (s.eprOf s.epId) s else .ok s) >>= fun t =>
      if (s.eprOf s.epId).getLsbD 7 = true then txCompleteOf s.epId (s.eprOf s.epId) t else .ok t := by
  unfold dispatchEpOf
  dsimp only
  split <;> rfl

theorem execAll_singleton (i : Instr) (s : State) : execAll [i] s = exec i s := by
  rw [execAll]
  cases exec i s <;> rfl

/-- Settles O43: each branch is the operation selected, the transmit one from the state the receive one leaves. -/
theorem dispatchEpRunsBranches : Obligations.DispatchEpRunsBranches := by
  intro s
  show settle (dispatchEpOf s) = _
  rw [dispatchEpOf_eq, decodeSample]
  generalize s.epId = n
  generalize s.eprOf n = val
  have htx (t : State) : settle (if val.getLsbD 7 = true then txCompleteOf n val t else .ok t) =
      execAll (if val.getLsbD 7 = true then [.txComplete n val] else []) t := by
    split
    · exact (execAll_singleton (.txComplete n val) t).symm
    · rfl
  split
  · exact settle_bind_execAll rfl htx
  · exact htx s

/-- What DISPATCH_EP can do, by the two branches of its sample (R209). -/
theorem dispatchEpOf_ok (h : dispatchEpOf s = .ok t) : ∃ u,
    (if (s.eprOf s.epId).getLsbD 15 = true then rxCompleteOf s.epId (s.eprOf s.epId) s = .ok u else u = s) ∧
    (if (s.eprOf s.epId).getLsbD 7 = true then txCompleteOf s.epId (s.eprOf s.epId) u = .ok t else t = u) := by
  rw [dispatchEpOf_eq] at h
  obtain ⟨u, hu, ht⟩ := Eff.bind_ok h
  refine ⟨u, ?_, ?_⟩
  · split_ifs at hu ⊢
    · exact hu
    · cases hu; rfl
  · split_ifs at ht ⊢
    · exact ht
    · cases ht; rfl

/-- One iteration leaves both completion flags of its endpoint 0 (R209). -/
theorem dispatchEp_flags (h : dispatchEpOf s = .ok t) :
    (t.eprOf s.epId).getLsbD 15 = false ∧ (t.eprOf s.epId).getLsbD 7 = false := by
  obtain ⟨u, hu, ht⟩ := dispatchEpOf_ok h
  have hrx : (u.eprOf s.epId).getLsbD 15 = false ∧
      ((s.eprOf s.epId).getLsbD 7 = false → (u.eprOf s.epId).getLsbD 7 = false) := by
    split_ifs at hu with hval
    · obtain ⟨h15, h7⟩ := rxComplete_flags hu
      exact ⟨h15, fun h => by rw [h7, h]; rfl⟩
    · subst hu
      exact ⟨eq_false_of_ne_true hval, id⟩
  split_ifs at ht with hval
  · obtain ⟨h15, h7⟩ := txComplete_flags ht
    exact ⟨by rw [h15, hrx.1]; rfl, h7⟩
  · subst ht
    exact ⟨hrx.1, hrx.2 (eq_false_of_ne_true hval)⟩

/-- One iteration completes; the transmit branch finds its direction as it was, the receive branch having a buffer. -/
theorem dispatchEpOf_runs (hrx : (s.eprOf s.epId).getLsbD 15 = true →
      s.RxEndReady s.epId ∧ (s.epId = 0 → (s.eprOf s.epId).getLsbD 11 = true → s.SetupReady))
    (htx : (s.eprOf s.epId).getLsbD 7 = true → s.TxContinueReady s.epId)
    (hboth : (s.eprOf s.epId).getLsbD 15 = true → (s.eprOf s.epId).getLsbD 7 = true → s.bdt s.epId .rxAddr ≠ 0) :
    ∃ t, dispatchEpOf s = .ok t := by
  have hfirst : ∃ u, (if (s.eprOf s.epId).getLsbD 15 = true then rxCompleteOf s.epId (s.eprOf s.epId) s else .ok s) =
      .ok u ∧ ((s.eprOf s.epId).getLsbD 7 = true → u.TxContinueReady s.epId) := by
    split
    · next hval =>
      obtain ⟨hend, hsetup⟩ := hrx hval
      obtain ⟨u, hu⟩ := rxCompleteOf_runs hend hsetup
      exact ⟨u, hu, fun h7 => (rxComplete_txKept (hboth hval h7) hu).txContinueReady (htx h7)⟩
    · exact ⟨s, rfl, htx⟩
  obtain ⟨u, hu, hready⟩ := hfirst
  rw [dispatchEpOf_eq, hu, Eff.ok_bind]
  split
  · next h7 => exact txCompleteOf_runs (hready h7)
  · exact ⟨u, rfl⟩

/-- Settles O44: the iteration completes, its endpoint's flags are 0, and both branches are packet operations on it. -/
theorem dispatchEpCompletes : Obligations.DispatchEpCompletes := by
  intro s n val hrx htx hboth
  obtain ⟨t, ht⟩ := dispatchEpOf_runs hrx htx hboth
  obtain ⟨h15, h7⟩ := dispatchEp_flags ht
  exact ⟨t, settle_next.2 ht, h15, h7, fun k hk => ((dispatchEp_step ht).others k hk).symm⟩

/-- Serving the endpoint EP_ID names takes the first one off the ascending list of pending endpoints. -/
theorem pendingEps_served (hserved : completionPending (t.eprOf s.epId) = false)
    (hothers : ∀ k, k ≠ s.epId → t.eprOf k = s.eprOf k) : t.pendingEps = s.pendingEps.tail := by
  have hfilter : t.pendingEps = s.pendingEps.filter (fun k => k != s.epId) := by
    rw [State.pendingEps, State.pendingEps, List.filter_filter]
    refine List.filter_congr fun k _ => ?_
    by_cases hk : k = s.epId
    · rw [hk, hserved, bne_self_eq_false, Bool.false_and]
    · rw [hothers k hk, bne_iff_ne.2 hk, Bool.true_and]
  have hsorted : s.pendingEps.Pairwise (· < ·) := List.Pairwise.filter _ (by decide)
  rw [hfilter, State.epId]
  cases hl : s.pendingEps with
  | nil => rfl
  | cons m ms =>
    rw [hl] at hsorted
    rw [List.headD_cons, List.filter_cons_of_neg (by simp), List.tail_cons, List.filter_eq_self]
    exact fun k hk => bne_iff_ne.2 (ne_of_gt (List.rel_of_pairwise_cons hsorted hk))

/-- Settles O45: DISPATCH_EP clears the flags of the lowest pending endpoint and keeps every other register. -/
theorem dispatchLoopProgress : Obligations.DispatchLoopProgress := by
  intro s t _ h
  have ht : dispatchEpOf s = .ok t := settle_next.1 h
  obtain ⟨h15, h7⟩ := dispatchEp_flags ht
  refine pendingEps_served (Bool.eq_false_iff.2 fun hpending => ?_) fun k hk => ((dispatchEp_step ht).others k hk).2
  rw [completionPending_iff, h15, h7] at hpending
  exact hpending.elim Bool.false_ne_true Bool.false_ne_true

end Sys2Proof.Machine
end

section
/-! PROOFS. The serial-interface engine (`47_sie_environment.md`): what each of its four steps does when its precondition
holds (R221 to R224), and what none of them changes (R225). -/

namespace Sys2Proof.Machine

variable {m : SieMove} {n : Ep} {data : List Byte} {setup : Bool} {s t : State} {rest : List Turn}

/-! ### A turn of the SIE -/

theorem step_sie_of_ok (hs : s.script = .sie m :: rest) (h : sieStep m { s with script := rest } = .ok t) :
    step s = .next t := (step_sie hs).trans (settle_next.2 h)

theorem sieStep_of_step (hs : s.script = .sie m :: rest) (h : step s = .next t) :
    sieStep m { s with script := rest } = .ok t := settle_next.1 ((step_sie hs).symm.trans h)

/-! ### SIE_FLAG and SIE_RESET (R223, R224) -/

/-- Settles O50: the stored flags at the bits of R31, and the cleared registers. -/
theorem sieFlagsAndReset : Obligations.SieFlagsAndReset := by
  intro s rest
  refine ⟨fun name bit hmem hs => ?_, fun hs => step_sie_of_ok hs rfl⟩
  have hbits : ∀ p ∈ ([(.esof, 0), (.sof, 1), (.susp, 3), (.wkup, 4), (.err, 5), (.pmaovr, 6)] : List (SieFlag × Nat)),
      sieFlagBit p.1 = 1#7 <<< p.2 := by decide
  have hbit : sieFlagBit name = 1#7 <<< bit := hbits _ hmem
  exact hbit ▸ step_sie_of_ok hs rfl

/-! ### SIE_TX (R221) -/

/-- COUNT of tx_count is its low ten bits (R25). -/
theorem txByteCount_eq_and (c : Half) : txByteCount c = (c &&& 0x03FF).toNat := by
  rw [← receivedCount_eq_and, receivedCount, BitVec.toNat_setWidth_of_le (by decide), txByteCount]

/-- SIE_TX with its precondition met, the descriptor and the packet in packet memory. -/
theorem sieTx_sends (htype : epTypeField (s.eprOf n) ≠ isochronousCode) (henabled : s.deviceEnabled = true)
    (hvalid : statTx (s.eprOf n) = statValid) (hd : s.DescriptorOk n)
    (hfit : (s.bdt n .txAddr).toNat + txByteCount (s.bdt n .txCount) ≤ Config.pmaSize) :
    sieTx n s = .ok ({ s with wire := s.wire ++
      [WireEntry.mk n (s.pmBytes (s.bdt n .txAddr).toNat (txByteCount (s.bdt n .txCount)))] }.setEpr n
        (sieTxWord (s.eprOf n))) := by
  rw [sieTx, if_neg htype, if_pos ⟨henabled, hvalid⟩, bdtRead_at _ hd, Eff.ok_bind, bdtRead_at _ hd, Eff.ok_bind,
    if_pos hfit, Eff.pure_eq]

/-- Settles O48: a turn of SIE_TX with its precondition met. -/
theorem sieTransmits : Obligations.SieTransmits := by
  intro n s rest cur a count hs henabled hvalid htype hd hfit
  rw [← sieTxWord_eq]
  have hcount : txByteCount (s.bdt n .txCount) = count := txByteCount_eq_and _
  have hsend := sieTx_sends (s := { s with script := rest }) htype henabled hvalid hd (hcount.symm ▸ hfit)
  rw [step_sie_of_ok hs hsend, ← hcount]
  rfl

/-! ### SIE_RX (R222) -/

/-- The precondition of SIE_RX that does not read the descriptor, clause by clause. -/
theorem sieRxAllowed_iff : sieRxAllowed n data setup s = true ↔
    s.deviceEnabled = true ∧ statRx (s.eprOf n) = statValid ∧ data.length ≤ 1023 ∧
      (setup = true → epTypeField (s.eprOf n) = controlCode ∧ data.length = 8) := by
  cases setup <;> simp [sieRxAllowed, and_assoc]

/-- SIE_RX with its precondition met, the descriptor and the armed buffer in packet memory. -/
theorem sieRx_runs (htype : epTypeField (s.eprOf n) ≠ isochronousCode) (hallowed : sieRxAllowed n data setup s = true)
    (hd : s.DescriptorOk n) (hcap : data.length ≤ capacity (s.bdt n .rxCount))
    (hfit : (s.bdt n .rxAddr).toNat + data.length ≤ Config.pmaSize) : ∃ t, sieRx n data setup s = .ok t := by
  obtain ⟨u, hu⟩ := pmWriteBytes_runs (s := s) hfit
  have hdu : u.DescriptorOk n := hd.congr (by rw [(pmWriteBytes_ok hu).1])
  rw [sieRx, if_neg htype, if_pos hallowed, bdtRead_at _ hd, Eff.ok_bind, bdtRead_at _ hd, Eff.ok_bind,
    if_pos ⟨hcap, hfit⟩, hu, Eff.ok_bind, bdtRead_at _ hdu, Eff.ok_bind, bdtWrite_at _ _ hdu]
  exact ⟨_, rfl⟩

/-- SIE_RX changes packet memory and the endpoint's register only. -/
theorem sieRx_eq (h : sieRx n data setup s = .ok t) :
    t = { s with pm := t.pm, epr := (s.setEpr n (sieRxWord (s.eprOf n) setup)).epr } := by
  obtain ⟨-, -, -, -, u, hu, -, rfl⟩ := sieRx_ok h
  rw [(pmWriteBytes_ok hu).1]
  rfl

/-- Outside the count word, SIE_RX writes the data bytes at the armed buffer and nothing else. -/
theorem sieRx_pmByte (h : sieRx n data setup s = .ok t) {x : Nat} (hx : ¬ s.InBdtField n .rxCount x) :
    t.pmByte x = if (s.bdt n .rxAddr).toNat ≤ x ∧ x < (s.bdt n .rxAddr).toNat + data.length then
      data.getD (x - (s.bdt n .rxAddr).toNat) 0 else s.pmByte x := by
  obtain ⟨-, -, -, -, u, hu, -, rfl⟩ := sieRx_ok h
  obtain ⟨hueq, hbytes, -⟩ := pmWriteBytes_ok hu
  have hb : u.btable = s.btable := by rw [hueq]
  rw [State.InBdtField, not_or] at hx
  rw [State.setEpr_pmByte, State.pmByte_setBdt, hb, if_neg hx.1, if_neg hx.2, hbytes]

/-- Where the buffer does not cover the count word, SIE_RX leaves the number of bytes in COUNT and keeps the rest. -/
theorem sieRx_rxCount (h : sieRx n data setup s = .ok t) (hclear : ∀ x, s.InBdtField n .rxCount x →
      x < (s.bdt n .rxAddr).toNat ∨ (s.bdt n .rxAddr).toNat + data.length ≤ x) :
    t.bdt n .rxCount = withCount (s.bdt n .rxCount) data.length := by
  obtain ⟨-, -, -, -, u, hu, -, rfl⟩ := sieRx_ok h
  obtain ⟨hueq, hbytes, -⟩ := pmWriteBytes_ok hu
  have hkept : u.bdt n .rxCount = s.bdt n .rxCount := by
    refine State.bdt_congr (by rw [hueq]) fun x hx => ?_
    have := hclear x hx
    rw [hbytes, if_neg (by omega)]
  rw [← hkept]
  exact State.bdt_setBdt_same u n .rxCount _

/-- Settles O49: a turn of SIE_RX with its precondition met. -/
theorem sieReceives : Obligations.SieReceives := by
  intro n data setup s rest cur a rc hs henabled hvalid htype hd hfit hcap hlen hsetup hclear
  have hallowed : sieRxAllowed n data setup { s with script := rest } = true :=
    sieRxAllowed_iff.2 ⟨henabled, hvalid, hlen, hsetup⟩
  obtain ⟨t, ht⟩ := sieRx_runs (s := { s with script := rest }) htype hallowed hd hcap hfit
  have hbytes : ∀ x, ¬ s.InBdtField n .rxCount x →
      t.pmByte x = if a ≤ x ∧ x < a + data.length then data.getD (x - a) 0 else s.pmByte x := fun x => sieRx_pmByte ht
  refine ⟨t, step_sie_of_ok hs ht, ?_, sieRx_rxCount (s := { s with script := rest }) ht hclear, fun i hi => ?_,
    fun x hx hout => ?_⟩
  · rw [← sieRxWord_eq]
    exact sieRx_eq ht
  · have hx : ¬ s.InBdtField n .rxCount (a + i) := fun hx => by
      have := hclear _ hx
      omega
    rw [hbytes _ hx, if_pos ⟨Nat.le_add_right a i, Nat.add_lt_add_left hi a⟩, Nat.add_sub_cancel_left]
    exact List.getD_eq_getElem _ _ hi
  · rw [hbytes x hx, if_neg (by omega)]

/-! ### What no step of the SIE changes (R225) -/

/-- `v` is what a step of the SIE other than SIE_RESET may make of an endpoint register that holds `w`: EP_TYPE, EP_KIND
and EA kept, no status made VALID, no completion flag cleared (R225). -/
structure SieEprStep (w v : Half) : Prop where
  fields : v &&& 0x070F = w &&& 0x070F
  statTx : statTx v = statValid → statTx w = statValid
  statRx : statRx v = statValid → statRx w = statValid
  flags : w &&& 0x8080 = w &&& v &&& 0x8080

theorem SieEprStep.refl (w : Half) : SieEprStep w w := ⟨rfl, id, id, by rw [BitVec.and_self]⟩

/-- The bits at a mask of a word that keeps the bits of `keep`, flips those of `flip` and sets those of `set`, the form in
which SIE_TX and SIE_RX leave an endpoint register. -/
theorem keepFlipSet_and (w keep flip set p : Half) : ((w &&& keep) ||| (~~~w &&& flip) ||| set) &&& p =
    (w &&& (keep &&& p)) ||| (~~~w &&& (flip &&& p)) ||| (set &&& p) := by
  rw [BitVec.and_or_distrib_right, BitVec.and_or_distrib_right, BitVec.and_assoc, BitVec.and_assoc]

/-- Bits that are kept or set are not cleared. -/
theorem and_keepFlipSet {w keep flip set p : Half} (hflip : flip &&& p = 0#16) (hset : (keep ||| set) &&& p = p) :
    w &&& p = w &&& ((w &&& keep) ||| (~~~w &&& flip) ||| set) &&& p := by
  rw [BitVec.and_assoc, keepFlipSet_and, hflip, BitVec.and_zero, BitVec.or_zero, BitVec.and_or_distrib_left,
    ← BitVec.and_assoc, BitVec.and_self, ← BitVec.and_or_distrib_left, ← BitVec.and_or_distrib_right, hset]

theorem statTx_and_mask (w : Half) : statTx (w &&& statTxMask) = statTx w := by
  rw [statTx, BitVec.extractLsb'_and]
  exact BitVec.and_allOnes

theorem statRx_and_mask (w : Half) : statRx (w &&& statRxMask) = statRx w := by
  rw [statRx, BitVec.extractLsb'_and]
  exact BitVec.and_allOnes

/-- SIE_TX leaves STAT_TX NAK and sets CTR_TX; the receive half of the register is kept (R221). -/
theorem sieTxWord_step (w : Half) : SieEprStep w (sieTxWord w) where
  fields := by rw [sieTxWord_eq, keepFlipSet_and]; simp
  statTx h := by
    have hnak : sieTxWord w &&& statTxMask = 0x0020 := by rw [sieTxWord_eq, keepFlipSet_and]; simp [statTxMask]
    rw [← statTx_and_mask, hnak] at h
    exact absurd h (by decide)
  statRx h := by
    have hkept : sieTxWord w &&& statRxMask = w &&& statRxMask := by
      rw [sieTxWord_eq, keepFlipSet_and]; simp [statRxMask]
    rwa [← statRx_and_mask, hkept, statRx_and_mask] at h
  flags := by rw [sieTxWord_eq]; exact and_keepFlipSet (by decide) (by decide)

/-- `sieRxWord_eq` with the bits SIE_RX sets put together. -/
theorem sieRxWord_keepFlipSet (w : Half) (setup : Bool) : sieRxWord w setup =
    (w &&& 0x07FF) ||| (~~~w &&& 0x4000) ||| (0xA000 ||| (if setup then 0x0800 else 0)) := by
  rw [sieRxWord_eq, BitVec.or_assoc]

/-- SIE_RX leaves STAT_RX NAK and sets CTR_RX; the transmit half of the register is kept (R222). -/
theorem sieRxWord_step (w : Half) (setup : Bool) : SieEprStep w (sieRxWord w setup) where
  fields := by rw [sieRxWord_keepFlipSet, keepFlipSet_and]; cases setup <;> simp
  statTx h := by
    have hkept : sieRxWord w setup &&& statTxMask = w &&& statTxMask := by
      rw [sieRxWord_keepFlipSet, keepFlipSet_and]; cases setup <;> simp [statTxMask]
    rwa [← statTx_and_mask, hkept, statTx_and_mask] at h
  statRx h := by
    have hnak : sieRxWord w setup &&& statRxMask = 0x2000 := by
      rw [sieRxWord_keepFlipSet, keepFlipSet_and]; cases setup <;> simp [statRxMask]
    rw [← statRx_and_mask, hnak] at h
    exact absurd h (by decide)
  flags := by
    rw [sieRxWord_keepFlipSet]
    exact and_keepFlipSet (by decide) (by cases setup <;> decide)

theorem setEpr_sieEprStep {v : Half} (h : SieEprStep (s.eprOf n) v) (k : Ep) :
    SieEprStep (s.eprOf k) ((s.setEpr n v).eprOf k) := by
  by_cases hk : k = n
  · rw [hk, State.setEpr_eprOf_same]
    exact h
  · rw [State.setEpr_eprOf_other s v hk]
    exact .refl _

theorem sieStep_sieEprStep (hm : m ≠ .reset) (h : sieStep m s = .ok t) (k : Ep) : SieEprStep (s.eprOf k) (t.eprOf k) := by
  cases m with
  | tx n =>
    obtain ⟨-, -, -, -, rfl⟩ := sieTx_ok h
    exact setEpr_sieEprStep (s := s) (sieTxWord_step _) k
  | rx n data setup =>
    rw [sieRx_eq h]
    exact setEpr_sieEprStep (sieRxWord_step _ setup) k
  | flag name => cases h; exact .refl _
  | reset => exact absurd rfl hm

theorem sieStep_eq (h : sieStep m s = .ok t) : t = { s with pm := t.pm, epr := t.epr, istr := t.istr, wire := t.wire } := by
  cases m with
  | tx n => obtain ⟨-, -, -, -, rfl⟩ := sieTx_ok h; rfl
  | rx n data setup => rw [sieRx_eq h]
  | flag name => cases h; rfl
  | reset => cases h; rfl

/-- Only a receive writes packet memory, inside the armed buffer or in the count word of a direction that was VALID. -/
theorem sieStep_pmByte (h : sieStep m s = .ok t) (x : Nat) : t.pmByte x = s.pmByte x ∨
    ∃ n data setup, m = .rx n data setup ∧ statRx (s.eprOf n) = statValid ∧ (s.InBdtField n .rxCount x ∨
      ((s.bdt n .rxAddr).toNat ≤ x ∧ x < (s.bdt n .rxAddr).toNat + capacity (s.bdt n .rxCount))) := by
  cases m with
  | tx n => obtain ⟨-, -, -, -, rfl⟩ := sieTx_ok h; exact .inl rfl
  | rx n data setup =>
    obtain ⟨-, hallowed, hcap, -⟩ := sieRx_ok h
    obtain ⟨-, hvalid, -⟩ := sieRxAllowed_iff.1 hallowed
    by_cases hcount : s.InBdtField n .rxCount x
    · exact .inr ⟨n, data, setup, rfl, hvalid, .inl hcount⟩
    · by_cases hin : (s.bdt n .rxAddr).toNat ≤ x ∧ x < (s.bdt n .rxAddr).toNat + data.length
      · exact .inr ⟨n, data, setup, rfl, hvalid, .inr ⟨hin.1, by omega⟩⟩
      · exact .inl ((sieRx_pmByte h hcount).trans (if_neg hin))
  | flag name => cases h; exact .inl rfl
  | reset => cases h; exact .inl rfl

/-- Settles O51: the frame of the four steps, and the preconditions of SIE_TX and SIE_RX. -/
theorem sieFrame : Obligations.SieFrame := by
  intro m s t rest hs hstep
  have h := sieStep_of_step hs hstep
  refine ⟨sieStep_eq h, sieStep_pmByte (s := { s with script := rest }) h, fun hm k => ?_, fun n hm => ?_,
    fun n data setup hm => ?_⟩
  · obtain ⟨hfields, htx, hrx, hflags⟩ := sieStep_sieEprStep hm h k
    exact ⟨hfields, htx, hrx, hflags⟩
  · subst hm
    obtain ⟨htype, henabled, hvalid, hfit, -⟩ := sieTx_ok h
    exact ⟨henabled, hvalid, htype, txByteCount_eq_and _ ▸ hfit⟩
  · subst hm
    obtain ⟨htype, hallowed, hcap, hfit, -⟩ := sieRx_ok h
    obtain ⟨henabled, hvalid, hlen, hsetup⟩ := sieRxAllowed_iff.1 hallowed
    exact ⟨henabled, hvalid, htype, hcap, hlen, hfit, hsetup⟩

end Sys2Proof.Machine
end

section
/-! PROOFS. The faults of a command (`60_exceptions.md`): BAD_ARG of an operand out of range (R243) and BAD_CMD of a
reserved opcode (R244). -/

namespace Sys2Proof.Machine

variable {ep code : BitVec 8} (s : State)

/-! ### Operands out of range (R137, R243) -/

theorem endpointOf_eq_none (h : 7 < ep.toNat) : endpointOf ep = none := dif_neg (Nat.not_lt.2 h)

theorem typeOf_eq_none (h : 2 < code.toNat) : typeOf code = none := by
  have hne : code ≠ 0 ∧ code ≠ 1 ∧ code ≠ 2 := by
    refine ⟨?_, ?_, ?_⟩ <;> rintro rfl <;> exact absurd h (by decide)
  obtain ⟨h0, h1, h2⟩ := hne
  rw [typeOf, if_neg h0, if_neg h1, if_neg h2]

theorem execConfigure_badEndpoint (h : 7 < ep.toNat) (address : BitVec 8) (size : Half) (code : BitVec 8) :
    execConfigure ep address size code s = .next (raiseFault .badArg s) := by
  rw [execConfigure, endpointOf_eq_none h]

theorem execConfigure_badType (ep address : BitVec 8) (size : Half) (h : 2 < code.toNat) :
    execConfigure ep address size code s = .next (raiseFault .badArg s) := by
  rw [execConfigure, typeOf_eq_none h]
  cases endpointOf ep <;> rfl

theorem setStatusCommand_badEndpoint (h : 7 < ep.toNat) (desired mask : Half) :
    setStatusCommand ep desired mask s = raiseFault .badArg s := by
  rw [setStatusCommand, endpointOf_eq_none h]

theorem sendCommand_badEndpoint (h : 7 < ep.toNat) (buffer : Word) (length : Half) :
    sendCommand ep buffer length s = .ok (raiseFault .badArg s) := by
  rw [sendCommand, endpointOf_eq_none h]

theorem receiveCommand_badEndpoint (h : 7 < ep.toNat) (buffer : Word) (length : Half) :
    receiveCommand ep buffer length s = .ok (raiseFault .badArg s) := by
  rw [receiveCommand, endpointOf_eq_none h]

/-- Settles O18: each command tests its endpoint, and CONFIGURE its type, before any other effect; a pseudo-operation runs
the command it expands to. -/
theorem badArgumentRejected : Obligations.BadArgumentRejected := by
  intro ep s t
  refine ⟨fun hep => ?_, fun address code size htype => execConfigure_badType s ep address size htype⟩
  have hstatus : ∀ desired mask, exec (.setStatus ep desired mask) s = .next t := fun desired mask =>
    congrArg Host.Outcome.next (setStatusCommand_badEndpoint s hep desired mask)
  have hsend : ∀ buffer length, exec (.send ep buffer length) s = .next t := fun buffer length =>
    settle_next.2 (sendCommand_badEndpoint s hep buffer length)
  have hreceive : ∀ buffer length, exec (.receive ep buffer length) s = .next t := fun buffer length =>
    settle_next.2 (receiveCommand_badEndpoint s hep buffer length)
  exact ⟨execConfigure_badEndpoint s hep, hstatus, hsend, hreceive, hsend 0 0, hreceive 0 0,
    fun code => hstatus (code.setWidth 16 <<< 4) statTxMask, fun code => hstatus (code.setWidth 16 <<< 12) statRxMask⟩

/-! ### Reserved opcodes (R95, R244) -/

/-- A frame is put together from its fields (R91). -/
theorem frameFrom_fields (f : Wide) :
    frameFrom (opcodeOf (frameCmd0 f)) (epOf (frameCmd0 f)) (a16Of (frameCmd0 f)) (frameCmd1 f) = f := by
  have hhigh : opcodeOf (frameCmd0 f) ++ epOf (frameCmd0 f) = (frameCmd0 f).extractLsb' 16 16 :=
    BitVec.extractLsb'_append_extractLsb'_eq_extractLsb' (start₂ := 24) rfl
  have hcmd0 : (frameCmd0 f).extractLsb' 16 16 ++ a16Of (frameCmd0 f) = (frameCmd0 f).extractLsb' 0 32 :=
    BitVec.extractLsb'_append_extractLsb'_eq_extractLsb' (start₂ := 16) rfl
  have hframe : frameCmd1 f ++ frameCmd0 f = f.extractLsb' 0 64 :=
    BitVec.extractLsb'_append_extractLsb'_eq_extractLsb' (start₂ := 32) rfl
  rw [frameFrom, hhigh, hcmd0, BitVec.extractLsb'_eq_self, frameOf, hframe, BitVec.extractLsb'_eq_self]

/-- The opcode of a frame is its bits 31:24 (R91). -/
theorem opcodeOf_frameCmd0 (f : Wide) : opcodeOf (frameCmd0 f) = f.extractLsb' 24 8 :=
  BitVec.extractLsb'_extractLsb'_of_le (by decide)

/-- The opcodes 0x00 and 0x06 to 0xFF are the reserved ones (R92). -/
theorem isReservedOpcode_iff (opcode : BitVec 8) : isReservedOpcode opcode = true ↔ opcode = 0 ∨ 6 ≤ opcode.toNat := by
  rw [isReservedOpcode, Bool.or_eq_true, beq_iff_eq, decide_eq_true_iff]
  rfl

/-- Settles O19: the frame is put together from its fields, so the decoder answers by its opcode alone. -/
theorem reservedOpcodeRejected : Obligations.ReservedOpcodeRejected := by
  intro f s hopc
  have hreserved : isReservedOpcode (opcodeOf (frameCmd0 f)) = true := by
    rwa [opcodeOf_frameCmd0, isReservedOpcode_iff]
  have hdecode := decodeFrame_reserved _ (epOf (frameCmd0 f)) (a16Of (frameCmd0 f)) (frameCmd1 f) hreserved
  rw [frameFrom_fields, opcodeOf_frameCmd0] at hdecode
  exact ⟨hdecode, rfl⟩

end Sys2Proof.Machine
end
